-- ==== Sys2Proof/Word.lean ====
section
/-! DEFINITION. The word types of the encoder core (spec 00_scope.md R6, R7) and their plainest arithmetic. -/

namespace Sys2Proof

/-- One byte of the output space OUT (20_memory.md R53). -/
abbrev Byte := BitVec 8

/-- A host register word (10_state.md R21). -/
abbrev Word32 := BitVec 32

/-- A sample word of the image (20_memory.md R51), and the width of the block register R (10_state.md R33). -/
abbrev Word64 := BitVec 64

/-- A host transaction word T (30_encoding.md R71). -/
abbrev Txn := BitVec 36

/-- The ENGINE selector `seq` (10_state.md R34). -/
abbrev Seq := BitVec 2

/-- `ceil(a / b)` as 00_scope.md R8 writes it, for `b >= 1` (log 19). -/
abbrev ceilDiv (a b : Nat) : Nat := (a + b - 1) / b

end Sys2Proof
end

