-- ==== Sys2Proof/Config.lean ====
section
/-! DEFINITION. What an instance of the encoder core fixes (spec 00_scope.md R5), and the free values the spec leaves
open ("a model gives a draw"). Each free value is an opaque constant: nothing can compute it or prove a value of it. -/

namespace Sys2Proof

/-- SHIFT_POLICY (00_scope.md R5): where a slot's value is placed in the block register. -/
inductive ShiftPolicy where
  /-- MSB_FIRST_BLOCK, the default (41_block_packer.md R126). -/
  | msbFirstBlock
  /-- SOURCE_OBSERVED (41_block_packer.md R127). -/
  | sourceObserved
deriving DecidableEq, Repr

/-- PAD_POLICY (00_scope.md R5): the value of a slot past the image edge (41_block_packer.md R125). -/
inductive PadPolicy where
  /-- ZERO_FIELD, the default. -/
  | zeroField
  /-- BLACK_SAMPLE. -/
  | blackSample
deriving DecidableEq, Repr

/-- The parameters of an instance other than the image (00_scope.md R5). `outCap` is OUT_CAP, 0 to 2^36 - 1 bytes. -/
structure Params where
  shiftPolicy : ShiftPolicy
  padPolicy   : PadPolicy
  outCap      : BitVec 36
deriving DecidableEq, Repr

namespace Config

/-- OUT_CAP, OPEN in the spec (00_scope.md R5, D16). Log 2. -/
opaque outCap : BitVec 36

/-- IMG, OPEN in the spec (00_scope.md R5, 20_memory.md R51): the image the instance was made with. Log 3. -/
opaque img : BitVec 16 → BitVec 16 → Word64

/-- Draw number `i` of an unspecified byte of OUT (10_state.md R40, 20_memory.md R61). Logs 4 and 6. -/
opaque freeByte : Nat → Byte

/-- Draw number `i` of an unspecified sample word (20_memory.md R66). Logs 6 and 11. -/
opaque freeSample : Nat → Word64

/-- Draw number `i` of how many turns the host takes before the engine's next step, where both can move and no turn is
scheduled: any number, but a number (20_memory.md R62, 70_reset_and_hazards.md R240). Logs 1, 6 and 16. -/
opaque freeHostTurns : Nat → Nat

/-- The field of a slot `k >= 2` of value `q` at depth `d` under SOURCE_OBSERVED. Its shift is negative, which START
refuses (41_block_packer.md R127, 60_exceptions.md R204), so no run meets it. Log 10. -/
opaque negShiftField : (d q k : Nat) → Word64

end Config
end Sys2Proof
end

