-- ==== Sys2Proof/Syntax.lean ====
section
/-! DEFINITION. The encoded operations of the core (spec 30_encoding.md R70 to R76), the host's program and its
assembler forms (R80, R81). -/

namespace Sys2Proof

/-- CFG.SCAN (10_state.md R23). -/
inductive Scan where
  /-- 0, "HORIZONTAL". -/
  | rowMajor
  /-- 1, "vertical". -/
  | columnMajor
deriving DecidableEq, Repr

/-- The eight host registers by name (10_state.md R21). -/
inductive Reg where
  | ctrl | cfg | dims | status | outLenLo | outLenHi | geom | rsvd7
deriving DecidableEq, Repr

/-- One constructor per row of the opcode table (30_encoding.md R72, R73). An operand's type is its field's width (R74,
R75); a bit the spec ignores is no operand (R76). So every term of this type is a well-formed instruction. -/
inductive Instr where
  /-- START, 43_host_commands.md R180. -/
  | start
  /-- WR_CTRL_NOP, R181. -/
  | wrCtrlNop
  /-- WR_CFG, R182. -/
  | wrCfg (depth blockBits : BitVec 7) (scan : Scan) (invert : Bool)
  /-- WR_DIMS, R183. -/
  | wrDims (width height : BitVec 16)
  /-- WR_STATUS, R184. -/
  | wrStatus
  /-- WR_OUT_LEN_LO, R185. -/
  | wrOutLenLo
  /-- WR_OUT_LEN_HI, R186. -/
  | wrOutLenHi
  /-- WR_GEOM, R187. -/
  | wrGeom
  /-- WR_RSVD7, R188. -/
  | wrRsvd7
  /-- RD_CTRL, R189. -/
  | rdCtrl
  /-- RD_CFG, R190. -/
  | rdCfg
  /-- RD_DIMS, R191. -/
  | rdDims
  /-- RD_STATUS, R192. -/
  | rdStatus
  /-- RD_OUT_LEN_LO, R193. -/
  | rdOutLenLo
  /-- RD_OUT_LEN_HI, R194. -/
  | rdOutLenHi
  /-- RD_GEOM, R195. -/
  | rdGeom
  /-- RD_RSVD7, R196. -/
  | rdRsvd7
  /-- ENG_SLOT, 41_block_packer.md R129. -/
  | engSlot
  /-- ENG_FLUSH, 42_serializer.md R161. -/
  | engFlush
deriving DecidableEq, Repr

/-- An encoded operation: a HOST word or an ENGINE selector (30_encoding.md R70). -/
inductive Encoded where
  | host (t : Txn)
  | engine (seq : Seq)
deriving DecidableEq, Repr

/-- One step of an assembled host program (30_encoding.md R80). The two control forms encode no transaction. -/
inductive HostOp where
  | txn (t : Txn)
  /-- `jbusy`, its label resolved to a position in the program. -/
  | jbusy (target : Nat)
  | halt
deriving DecidableEq, Repr

/-- A register operand of the assembler: a name, or a number (30_encoding.md R80). -/
inductive RegRef where
  | named (r : Reg)
  | number (n : Nat)
deriving DecidableEq, Repr

/-- The forms of a line of assembler (30_encoding.md R80) and its pseudo-instructions (R81). A label is a number that
stands for its name (log 21). -/
inductive AsmOp where
  | wr (reg : RegRef) (imm : Nat)
  | rd (reg : RegRef)
  | jbusy (label : Nat)
  | halt
  | start
  | nop
  | cfg (depth blockBits : Nat) (scan : Scan) (invert : Bool)
  | dims (width height : Nat)
  | poll
  | readlen
deriving DecidableEq, Repr

/-- A line of assembler with the label that names it, if any (30_encoding.md R80). -/
structure AsmLine where
  label : Option Nat
  op    : AsmOp
deriving DecidableEq, Repr

end Sys2Proof
end

