-- ==== Sys2Proof/WellFormed.lean ====
section
/-! DEFINITION. The checks on what the host writes. An Instr needs none: its operands' widths are in its type, and no
HOST word is illegal (spec 30_encoding.md R78). A line of assembler (R80, R81) can be ill formed in the ways below (log 21). -/

namespace Sys2Proof

/-- A register is named, or numbered 0 to 7 (30_encoding.md R80). -/
def RegRef.wellFormed : RegRef → Bool
  | .named _ => true
  | .number n => n < 8

/-- The operands of one form: an immediate is below 2^32 (30_encoding.md R80), and the operands of `cfg` and `dims` fit
the fields they are shifted into (R74, R75, R81). -/
def AsmOp.wellFormed : AsmOp → Bool
  | .wr reg imm => reg.wellFormed && imm < 2 ^ 32
  | .rd reg => reg.wellFormed
  | .cfg depth blockBits _ _ => depth < 2 ^ 7 && blockBits < 2 ^ 7
  | .dims width height => width < 2 ^ 16 && height < 2 ^ 16
  | .jbusy _ => true
  | .halt => true
  | .start => true
  | .nop => true
  | .poll => true
  | .readlen => true

/-- The labels a program's lines carry, in order. -/
def asmLabels (lines : List AsmLine) : List Nat := lines.filterMap AsmLine.label

/-- The label a form goes to, if it is a `jbusy`. -/
def AsmOp.goesTo : AsmOp → Option Nat
  | .jbusy label => some label
  | _ => none

/-- No label names two lines, and every `jbusy` goes to a label of the program (30_encoding.md R80). -/
def asmLabelsResolve (lines : List AsmLine) : Bool :=
  decide (asmLabels lines).Nodup &&
    (lines.filterMap (fun l => l.op.goesTo)).all (fun l => decide (l ∈ asmLabels lines))

/-- A program of well-formed lines whose labels resolve. -/
def asmWellFormed (lines : List AsmLine) : Bool :=
  lines.all (fun l => l.op.wellFormed) && asmLabelsResolve lines

end Sys2Proof
end

