-- ==== Sys2Proof/Decode.lean ====
section
/-! DEFINITION. Decoding and encoding (spec 30_encoding.md), the opcode map as rows of match and mask (R72, R73), and
the assembler (R80, R81). -/

namespace Sys2Proof

/-! ### The fields of a HOST word -/

/-- WE, bit 35 (30_encoding.md R71). -/
def txnWe (t : Txn) : Bool := t.getLsbD 35

/-- REG, bits 34:32 (30_encoding.md R71). -/
def txnReg (t : Txn) : BitVec 3 := t.extractLsb' 32 3

/-- DATA, bits 31:0 (30_encoding.md R71). -/
def txnData (t : Txn) : Word32 := t.extractLsb' 0 32

/-- The HOST word of three fields (30_encoding.md R71, R80). -/
def txnOf (we : Bool) (reg : BitVec 3) (data : Word32) : Txn := BitVec.ofBool we ++ reg ++ data

/-- The number of a register (10_state.md R21). -/
def Reg.number : Reg → BitVec 3
  | .ctrl => 0
  | .cfg => 1
  | .dims => 2
  | .status => 3
  | .outLenLo => 4
  | .outLenHi => 5
  | .geom => 6
  | .rsvd7 => 7

/-- The register of a number (10_state.md R21). -/
def regOfNumber (n : BitVec 3) : Reg :=
  match n.toNat with
  | 0 => .ctrl
  | 1 => .cfg
  | 2 => .dims
  | 3 => .status
  | 4 => .outLenLo
  | 5 => .outLenHi
  | 6 => .geom
  | _ => .rsvd7

/-! ### Operands in DATA -/

/-- SCAN as a bit: 0 is ROW_MAJOR, 1 is COLUMN_MAJOR (10_state.md R23). -/
def Scan.bit : Scan → Bool
  | .rowMajor => false
  | .columnMajor => true

/-- The scan direction of a bit (10_state.md R23). -/
def scanOfBit (b : Bool) : Scan := if b then .columnMajor else .rowMajor

/-- The operands of WR_CFG in DATA: bits 6:0, 14:8, 16 and 17, the others ignored (30_encoding.md R74). -/
def wrCfgOfData (data : Word32) : Instr :=
  .wrCfg (data.extractLsb' 0 7) (data.extractLsb' 8 7) (scanOfBit (data.getLsbD 16)) (data.getLsbD 17)

/-- The operands of WR_DIMS in DATA: bits 15:0 and 31:16 (30_encoding.md R75). -/
def wrDimsOfData (data : Word32) : Instr :=
  .wrDims (data.extractLsb' 0 16) (data.extractLsb' 16 16)

/-- A CFG word: `d | (B << 8) | (scan << 16) | (inv << 17)` (30_encoding.md R74). -/
def cfgData (depth blockBits : BitVec 7) (scan : Scan) (invert : Bool) : Word32 :=
  depth.setWidth 32 ||| (blockBits.setWidth 32 <<< 8) ||| ((BitVec.ofBool scan.bit).setWidth 32 <<< 16) |||
    ((BitVec.ofBool invert).setWidth 32 <<< 17)

/-- A DIMS word: `W | (H << 16)` (30_encoding.md R75). -/
def dimsData (width height : BitVec 16) : Word32 :=
  width.setWidth 32 ||| (height.setWidth 32 <<< 16)

/-! ### Decoding -/

/-- A HOST word decodes to exactly one row (30_encoding.md R72): none is illegal (R78). -/
def decodeHost (t : Txn) : Instr :=
  match txnWe t, regOfNumber (txnReg t) with
  | true, .ctrl => if (txnData t).getLsbD 0 then .start else .wrCtrlNop
  | true, .cfg => wrCfgOfData (txnData t)
  | true, .dims => wrDimsOfData (txnData t)
  | true, .status => .wrStatus
  | true, .outLenLo => .wrOutLenLo
  | true, .outLenHi => .wrOutLenHi
  | true, .geom => .wrGeom
  | true, .rsvd7 => .wrRsvd7
  | false, .ctrl => .rdCtrl
  | false, .cfg => .rdCfg
  | false, .dims => .rdDims
  | false, .status => .rdStatus
  | false, .outLenLo => .rdOutLenLo
  | false, .outLenHi => .rdOutLenHi
  | false, .geom => .rdGeom
  | false, .rsvd7 => .rdRsvd7

/-- Why an ENGINE selector selects no micro-operation (30_encoding.md R73). -/
inductive DecodeError where
  /-- `seq` = 0 (NONE): the engine is idle. -/
  | phaseNone
  /-- `seq` = 3: unused. -/
  | phaseUnused
deriving DecidableEq, Repr

/-- The micro-operation an ENGINE selector selects (30_encoding.md R73). -/
def decodeEngine (seq : Seq) : Except DecodeError Instr :=
  match seq.toNat with
  | 0 => .error .phaseNone
  | 1 => .ok .engSlot
  | 2 => .ok .engFlush
  | _ => .error .phaseUnused

/-- Decoding of both formats (30_encoding.md R70). -/
def decode : Encoded → Except DecodeError Instr
  | .host t => .ok (decodeHost t)
  | .engine seq => decodeEngine seq

/-! ### Encoding -/

/-- The word of an instruction, its ignored bits 0 as the assembler writes them (30_encoding.md R72, R73, R80, R81;
log 17). -/
def encode : Instr → Encoded
  | .start => .host (txnOf true Reg.ctrl.number 1)
  | .wrCtrlNop => .host (txnOf true Reg.ctrl.number 0)
  | .wrCfg depth blockBits scan invert => .host (txnOf true Reg.cfg.number (cfgData depth blockBits scan invert))
  | .wrDims width height => .host (txnOf true Reg.dims.number (dimsData width height))
  | .wrStatus => .host (txnOf true Reg.status.number 0)
  | .wrOutLenLo => .host (txnOf true Reg.outLenLo.number 0)
  | .wrOutLenHi => .host (txnOf true Reg.outLenHi.number 0)
  | .wrGeom => .host (txnOf true Reg.geom.number 0)
  | .wrRsvd7 => .host (txnOf true Reg.rsvd7.number 0)
  | .rdCtrl => .host (txnOf false Reg.ctrl.number 0)
  | .rdCfg => .host (txnOf false Reg.cfg.number 0)
  | .rdDims => .host (txnOf false Reg.dims.number 0)
  | .rdStatus => .host (txnOf false Reg.status.number 0)
  | .rdOutLenLo => .host (txnOf false Reg.outLenLo.number 0)
  | .rdOutLenHi => .host (txnOf false Reg.outLenHi.number 0)
  | .rdGeom => .host (txnOf false Reg.geom.number 0)
  | .rdRsvd7 => .host (txnOf false Reg.rsvd7.number 0)
  | .engSlot => .engine 1
  | .engFlush => .engine 2

/-! ### The opcode map -/

/-- A row's name in the opcode table. -/
def mnemonic : Instr → String
  | .start => "START"
  | .wrCtrlNop => "WR_CTRL_NOP"
  | .wrCfg _ _ _ _ => "WR_CFG"
  | .wrDims _ _ => "WR_DIMS"
  | .wrStatus => "WR_STATUS"
  | .wrOutLenLo => "WR_OUT_LEN_LO"
  | .wrOutLenHi => "WR_OUT_LEN_HI"
  | .wrGeom => "WR_GEOM"
  | .wrRsvd7 => "WR_RSVD7"
  | .rdCtrl => "RD_CTRL"
  | .rdCfg => "RD_CFG"
  | .rdDims => "RD_DIMS"
  | .rdStatus => "RD_STATUS"
  | .rdOutLenLo => "RD_OUT_LEN_LO"
  | .rdOutLenHi => "RD_OUT_LEN_HI"
  | .rdGeom => "RD_GEOM"
  | .rdRsvd7 => "RD_RSVD7"
  | .engSlot => "ENG_SLOT"
  | .engFlush => "ENG_FLUSH"

/-- A row of the HOST map: `T` selects it when `T & mask = pattern` (30_encoding.md R72). -/
structure HostRow where
  name    : String
  pattern : Txn
  mask    : Txn
deriving DecidableEq, Repr

/-- The HOST opcode map (30_encoding.md R72). -/
def hostRows : List HostRow :=
  [⟨"START", 0x800000001, 0xF00000001⟩, ⟨"WR_CTRL_NOP", 0x800000000, 0xF00000001⟩,
   ⟨"WR_CFG", 0x900000000, 0xF00000000⟩, ⟨"WR_DIMS", 0xA00000000, 0xF00000000⟩,
   ⟨"WR_STATUS", 0xB00000000, 0xF00000000⟩, ⟨"WR_OUT_LEN_LO", 0xC00000000, 0xF00000000⟩,
   ⟨"WR_OUT_LEN_HI", 0xD00000000, 0xF00000000⟩, ⟨"WR_GEOM", 0xE00000000, 0xF00000000⟩,
   ⟨"WR_RSVD7", 0xF00000000, 0xF00000000⟩] ++
  [⟨"RD_CTRL", 0x000000000, 0xF00000000⟩, ⟨"RD_CFG", 0x100000000, 0xF00000000⟩,
   ⟨"RD_DIMS", 0x200000000, 0xF00000000⟩, ⟨"RD_STATUS", 0x300000000, 0xF00000000⟩,
   ⟨"RD_OUT_LEN_LO", 0x400000000, 0xF00000000⟩, ⟨"RD_OUT_LEN_HI", 0x500000000, 0xF00000000⟩,
   ⟨"RD_GEOM", 0x600000000, 0xF00000000⟩, ⟨"RD_RSVD7", 0x700000000, 0xF00000000⟩]

/-- `T` selects a row (30_encoding.md R72). -/
def HostRow.selects (row : HostRow) (t : Txn) : Prop := t &&& row.mask = row.pattern

/-- The bits of a HOST word that a row's instruction reads: the row's own and its operands' (30_encoding.md R72, R74 to
R76). -/
def Instr.usedBits : Instr → Txn
  | .start => 0xF00000001
  | .wrCtrlNop => 0xF00000001
  | .wrCfg _ _ _ _ => 0xF00037F7F
  | .wrDims _ _ => 0xFFFFFFFFF
  | .wrStatus => 0xF00000000
  | .wrOutLenLo => 0xF00000000
  | .wrOutLenHi => 0xF00000000
  | .wrGeom => 0xF00000000
  | .wrRsvd7 => 0xF00000000
  | .rdCtrl => 0xF00000000
  | .rdCfg => 0xF00000000
  | .rdDims => 0xF00000000
  | .rdStatus => 0xF00000000
  | .rdOutLenLo => 0xF00000000
  | .rdOutLenHi => 0xF00000000
  | .rdGeom => 0xF00000000
  | .rdRsvd7 => 0xF00000000
  | .engSlot => 0
  | .engFlush => 0

/-! ### The opcode table's words -/

/-- The bits of an opcode-table row as an encoded operation: a HOST row has 36 bits, an ENGINE row has 2 (30_encoding.md
R70, R79; log 17). Bits above the format's width must be 0. -/
def encodedOfTable (nbits w : Nat) : Option Encoded :=
  if nbits < 36 then
    if w < 2 ^ 2 then some (.engine (BitVec.ofNat 2 w)) else none
  else
    if w < 2 ^ 36 then some (.host (BitVec.ofNat 36 w)) else none

/-- The instruction the decoder reads from the bits of an opcode-table row. -/
def decodeTableWord (nbits w : Nat) : Option Instr :=
  match encodedOfTable nbits w with
  | none => none
  | some e =>
    match decode e with
    | .ok i => some i
    | .error _ => none

/-! ### The assembler -/

/-- The number a register operand stands for (30_encoding.md R80). -/
def RegRef.toBits : RegRef → BitVec 3
  | .named r => r.number
  | .number n => BitVec.ofNat 3 n

/-- `wr` assembles to `T = (1 << 35) | (REG << 32) | imm32` (30_encoding.md R80). -/
def asmWr (reg : RegRef) (imm : Nat) : HostOp := .txn (txnOf true reg.toBits (BitVec.ofNat 32 imm))

/-- `rd` assembles to `T = (REG << 32)` (30_encoding.md R80). -/
def asmRd (reg : RegRef) : HostOp := .txn (txnOf false reg.toBits 0)

/-- The expansion of one line that stands at position `at`, with the labels resolved by `find` (30_encoding.md R80, R81).
`poll` goes back to its own first transaction, its fresh label. -/
def AsmOp.expand (find : Nat → Nat) (pos : Nat) : AsmOp → List HostOp
  | .wr reg imm => [asmWr reg imm]
  | .rd reg => [asmRd reg]
  | .jbusy label => [.jbusy (find label)]
  | .halt => [.halt]
  | .start => [asmWr (.named .ctrl) 1]
  | .nop => [asmWr (.named .ctrl) 0]
  | .cfg depth blockBits scan invert =>
      [asmWr (.named .cfg) (depth ||| (blockBits <<< 8) ||| (scan.bit.toNat <<< 16) ||| (invert.toNat <<< 17))]
  | .dims width height => [asmWr (.named .dims) (width ||| (height <<< 16))]
  | .poll => [asmRd (.named .status), .jbusy pos]
  | .readlen => [asmRd (.named .outLenLo), asmRd (.named .outLenHi)]

/-- How many steps of the program a line becomes. -/
def AsmOp.size : AsmOp → Nat
  | .poll => 2
  | .readlen => 2
  | _ => 1

/-- The position in the assembled program of the line a label names, the first line at `pos`. -/
def labelPosition (label : Nat) : List AsmLine → Nat → Nat
  | [], pos => pos
  | l :: rest, pos => if l.label = some label then pos else labelPosition label rest (pos + l.op.size)

/-- The lines from position `pos` on, expanded in order. -/
def expandFrom (find : Nat → Nat) : List AsmLine → Nat → List HostOp
  | [], _ => []
  | l :: rest, pos => l.op.expand find pos ++ expandFrom find rest (pos + l.op.size)

/-- The host program of an assembler text (30_encoding.md R80, R81); an ill-formed text has none. -/
def assemble (lines : List AsmLine) : Option (List HostOp) :=
  if asmWellFormed lines then some (expandFrom (fun l => labelPosition l lines 0) lines 0) else none

end Sys2Proof
end

