-- ==== Sys2Proof/Machine/State.lean ====
section
/-! DEFINITION. Everything the spec gives the machine, as plain data (10_state.md, 20_memory.md), and what it holds
after reset (10_state.md R40). -/

namespace Sys2Proof.Machine

/-- STATUS.STATE (10_state.md R26). -/
inductive EngState where
  | idle | busy | done | error
deriving DecidableEq, Repr

/-- The codes of STATUS.ERR (60_exceptions.md R201). Codes 7 to 15 are never produced (log 20). -/
inductive ErrCode where
  | none | depthZero | blockZero | range | depthGtBlock | bounds | negShift
deriving DecidableEq, Repr

/-- CFG (10_state.md R23): only the named fields are stored (R32). -/
structure Cfg where
  depth     : BitVec 7
  blockBits : BitVec 7
  scan      : Scan
  invert    : Bool
deriving DecidableEq, Repr

/-- DIMS (10_state.md R25). -/
structure Dims where
  width  : BitVec 16
  height : BitVec 16
deriving DecidableEq, Repr

/-- STATUS (10_state.md R26). -/
structure Status where
  state : EngState
  err   : ErrCode
deriving DecidableEq, Repr

/-- OUT_LEN_LO and OUT_LEN_HI (10_state.md R29). -/
structure OutLen where
  lo : Word32
  hi : Word32
deriving DecidableEq, Repr

/-- GEOM (10_state.md R30). -/
structure Geom where
  ppb : BitVec 7
  bpb : BitVec 4
deriving DecidableEq, Repr

/-- The engine's hidden state: the block register R (10_state.md R33), the sequencer phase (R34) and the position
counters (R35). -/
structure Engine where
  r   : Word64
  seq : Seq
  o   : BitVec 16
  j   : BitVec 16
  k   : BitVec 6
  n   : BitVec 36
deriving DecidableEq, Repr

/-- A sparse memory: cells of key and value, in one canonical form (`Memory.wf`). A key that is not listed holds no value
the model knows: an unspecified byte of OUT, or a pixel the host has not written. -/
abbrev Memory (α : Type) := List (Nat × α)

/-- A value a register read returned to the host (30_encoding.md R71). -/
structure ReadRecord where
  reg   : Reg
  value : Word32
deriving DecidableEq, Repr

/-- The host: its program and position in it (30_encoding.md R80), what its reads returned, newest first
(70_reset_and_hazards.md R242), whether it has read STATUS = DONE for the last pass, and what it read from OUT, newest
first (20_memory.md R61). All are the model's own fields: logs 5, 7 and 14. -/
structure HostAgent where
  prog     : List HostOp
  pc       : Nat
  reads    : List ReadRecord
  seenDone : Bool
  outReads : List Host.Cell
deriving DecidableEq, Repr

/-- A turn of an agent, or an act of the environment (20_memory.md R61, R62, R66; 70_reset_and_hazards.md R230, R233). -/
inductive Event where
  /-- The host takes its next step. -/
  | host
  /-- The engine takes its next step. -/
  | engine
  /-- The reset input. -/
  | reset
  /-- The host makes IMG(x, y) hold a sample. -/
  | setPixel (x y : BitVec 16) (sample : Word64)
  /-- The host writes a byte of OUT. -/
  | writeOut (index : Nat) (value : Byte)
  /-- The host reads a byte of OUT. -/
  | readOut (index : Nat)
deriving DecidableEq, Repr

/-- The whole machine. -/
structure State where
  /-- The instance's parameters (00_scope.md R5). No step changes them (10_state.md R39; log 2). -/
  params   : Params
  cfg      : Cfg
  dims     : Dims
  status   : Status
  outLen   : OutLen
  geom     : Geom
  eng      : Engine
  /-- The output space OUT (20_memory.md R53; log 4). -/
  out      : Memory Byte
  /-- The image space IMG, as far as the host has written it (20_memory.md R51; log 3). -/
  img      : Memory Word64
  /-- The host changed IMG during this pass (20_memory.md R66; log 11). -/
  imgDirty : Bool
  /-- The indices of OUT the host wrote during this pass (20_memory.md R66; log 12). -/
  outDirty : List Nat
  host     : HostAgent
  /-- The turns and acts to come (20_memory.md R62; log 1). -/
  events   : List Event
  /-- Where both agents can move and no turn is scheduled: how many turns the host takes before the engine's next step,
  once drawn (70_reset_and_hazards.md R240; logs 1 and 16). -/
  hostTurns : Option Nat
  /-- How many free values have been taken (log 6). -/
  draws    : Nat
deriving DecidableEq, Repr

/-- Why the machine stops. -/
inductive Fault where
  /-- The host reads or writes OUT at an index at or above OUT_CAP, which does not exist (20_memory.md R53). Raised by
  the events `readOut` and `writeOut`. Safe: the spec gives such an access no effect. Log 13. -/
  | outIndexOutside (index : Nat)
deriving DecidableEq, Repr

/-- Why the machine refuses. -/
inductive Refusal where
  /-- An instruction with no meaning yet. Raised by no arm: every instruction has its meaning. Safe. -/
  | notModelled (mnemonic : String)
deriving DecidableEq, Repr

/-- The machine right after reset (10_state.md R40), with the default policies and the OPEN capacity (00_scope.md R5),
no host program loaded and nothing scheduled (logs 2, 5 and 7). -/
def State.reset : State where
  params := ⟨.msbFirstBlock, .zeroField, Config.outCap⟩
  cfg := ⟨4, 8, .rowMajor, false⟩
  dims := ⟨0, 0⟩
  status := ⟨.idle, .none⟩
  outLen := ⟨0, 0⟩
  geom := ⟨0, 0⟩
  eng := ⟨0, 0, 0, 0, 0, 0⟩
  out := []
  img := []
  imgDirty := false
  outDirty := []
  host := ⟨[], 0, [], false, []⟩
  events := []
  hostTurns := none
  draws := 0

end Sys2Proof.Machine
end

