-- ==== Sys2Proof/Machine/Flags.lean ====
section
/-! DEFINITION. The bits of the status fields and of the sequencer phase (spec 10_state.md R26, R34;
60_exceptions.md R201). The core has no condition flags (10_state.md R38). -/

namespace Sys2Proof.Machine

/-- STATUS[1:0] (10_state.md R26). -/
def stateBits : EngState → BitVec 2
  | .idle => 0
  | .busy => 1
  | .done => 2
  | .error => 3

/-- STATUS[7:4] (60_exceptions.md R201). -/
def errBits : ErrCode → BitVec 4
  | .none => 0
  | .depthZero => 1
  | .blockZero => 2
  | .range => 3
  | .depthGtBlock => 4
  | .bounds => 5
  | .negShift => 6

/-- `seq` = NONE (10_state.md R34). -/
def seqNone : Seq := 0

/-- `seq` = SLOT (10_state.md R34). -/
def seqSlot : Seq := 1

/-- `seq` = FLUSH (10_state.md R34). -/
def seqFlush : Seq := 2

/-- STATE = BUSY. -/
def isBusy (s : State) : Bool := s.status.state = .busy

/-- ENG_SLOT is enabled: STATE = BUSY and `seq` = SLOT (41_block_packer.md R129). -/
def slotEnabled (s : State) : Bool := isBusy s && s.eng.seq = seqSlot

/-- ENG_FLUSH is enabled: STATE = BUSY and `seq` = FLUSH (42_serializer.md R161). -/
def flushEnabled (s : State) : Bool := isBusy s && s.eng.seq = seqFlush

end Sys2Proof.Machine
end

