-- ==== Sys2Proof/Machine/Operands.lean ====
section
/-! DEFINITION. The words a register read returns, assembled from the stored fields (spec 30_encoding.md R77), and the
channels of a sample word (20_memory.md R51). -/

namespace Sys2Proof.Machine

/-- The CFG word (43_host_commands.md R190). -/
def cfgWord (c : Cfg) : Word32 := cfgData c.depth c.blockBits c.scan c.invert

/-- The DIMS word (43_host_commands.md R191). -/
def dimsWord (d : Dims) : Word32 := dimsData d.width d.height

/-- The STATUS word (43_host_commands.md R192). -/
def statusWord (st : Status) : Word32 :=
  (stateBits st.state).setWidth 32 ||| ((errBits st.err).setWidth 32 <<< 4)

/-- The GEOM word (43_host_commands.md R195). -/
def geomWord (g : Geom) : Word32 := g.ppb.setWidth 32 ||| (g.bpb.setWidth 32 <<< 8)

/-- `reg[n]` as a read returns it (00_scope.md R9; 10_state.md R22 to R31). CTRL and register 7 hold nothing and read
as 0. -/
def regRead (s : State) : Reg → Word32
  | .ctrl => 0
  | .cfg => cfgWord s.cfg
  | .dims => dimsWord s.dims
  | .status => statusWord s.status
  | .outLenLo => s.outLen.lo
  | .outLenHi => s.outLen.hi
  | .geom => geomWord s.geom
  | .rsvd7 => 0

/-- The 64-bit OUT_LEN (10_state.md R29). -/
def outLen64 (l : OutLen) : Word64 := l.hi ++ l.lo

/-- Red, bits 15:0 of a sample word (20_memory.md R51). -/
def sampleR (w : Word64) : BitVec 16 := w.extractLsb' 0 16

/-- Green, bits 31:16 (20_memory.md R51). -/
def sampleG (w : Word64) : BitVec 16 := w.extractLsb' 16 16

/-- Blue, bits 47:32 (20_memory.md R51). -/
def sampleB (w : Word64) : BitVec 16 := w.extractLsb' 32 16

/-- Alpha, bits 63:48 (20_memory.md R51). The core never reads it (40_quantizer.md R108). -/
def sampleA (w : Word64) : BitVec 16 := w.extractLsb' 48 16

end Sys2Proof.Machine
end

