-- ==== Sys2Proof/Machine/Quantizer.lean ====
section
/-! DEFINITION. The Intensity Quantizer (spec 40_quantizer.md), in exact natural-number arithmetic (R103, R110;
90_conflicts.md C7). -/

namespace Sys2Proof.Machine

/-- Step 1: the truncated average of the three channels (40_quantizer.md R101). -/
def average (r g b : BitVec 16) : Nat := (r.toNat + g.toNat + b.toNat) / 3

/-- Step 2: the inversion, before the remap (40_quantizer.md R102). -/
def invertIntensity (invert : Bool) (c : Nat) : Nat := if invert then 65535 - c else c

/-- `M`, the value of `d` ones (40_quantizer.md R103). -/
def depthMask (d : Nat) : Nat := 2 ^ d - 1

/-- Step 3: the exact product, then one truncating division (40_quantizer.md R103). -/
def remap (c d : Nat) : Nat := c * depthMask d / 65535

/-- QUANTIZE(r, g, b, d, inv), with step 4's mask (40_quantizer.md R100, R104). -/
def quantize (r g b : BitVec 16) (d : Nat) (invert : Bool) : Nat :=
  remap (invertIntensity invert (average r g b)) d &&& depthMask d

/-- QUANTIZE of a sample word: alpha is not read (40_quantizer.md R108). -/
def quantizeSample (w : Word64) (d : Nat) (invert : Bool) : Nat :=
  quantize (sampleR w) (sampleG w) (sampleB w) d invert

end Sys2Proof.Machine
end

