-- ==== Sys2Proof/Machine/Packer.lean ====
section
/-! DEFINITION. The geometry of a pass, the scan order and the placement of a value in the block register (spec
41_block_packer.md R120 to R127). -/

namespace Sys2Proof.Machine

/-- `d`, the colour depth (10_state.md R23). -/
def depthOf (c : Cfg) : Nat := c.depth.toNat

/-- `B`, the block width in bits (10_state.md R23; 90_conflicts.md C2). -/
def blockBitsOf (c : Cfg) : Nat := c.blockBits.toNat

/-- `P`, pixels per block (41_block_packer.md R120; log 19 for `d = 0`, which START refuses). -/
def pixelsPerBlock (c : Cfg) : Nat := ceilDiv (blockBitsOf c) (depthOf c)

/-- `BPB`, bytes per block (41_block_packer.md R120). -/
def bytesPerBlock (c : Cfg) : Nat := ceilDiv (blockBitsOf c) 8

/-- `L`, the lines of a pass (41_block_packer.md R121). -/
def lineCount (c : Cfg) (dm : Dims) : Nat :=
  match c.scan with
  | .rowMajor => dm.height.toNat
  | .columnMajor => dm.width.toNat

/-- The pixels of one line: the image's extent along the scan (41_block_packer.md R121, R124). -/
def lineLength (c : Cfg) (dm : Dims) : Nat :=
  match c.scan with
  | .rowMajor => dm.width.toNat
  | .columnMajor => dm.height.toNat

/-- `NB`, the blocks of one line (41_block_packer.md R121). -/
def blocksPerLine (c : Cfg) (dm : Dims) : Nat := ceilDiv (lineLength c dm) (pixelsPerBlock c)

/-- The size law `OUT_LEN = BPB * L * NB` (41_block_packer.md R122). -/
def outputLength (c : Cfg) (dm : Dims) : Nat := bytesPerBlock c * lineCount c dm * blocksPerLine c dm

/-- `t = j * P + k`, the position of a slot along its line (41_block_packer.md R124). -/
def slotPosition (c : Cfg) (j k : Nat) : Nat := j * pixelsPerBlock c + k

/-- `inb`: the slot is inside the image (41_block_packer.md R124). -/
def slotInBounds (c : Cfg) (dm : Dims) (j k : Nat) : Bool := slotPosition c j k < lineLength c dm

/-- The pixel `(x, y)` of slot `k` of block `(o, j)` (41_block_packer.md R124). -/
def slotPixel (c : Cfg) (o j k : Nat) : Nat × Nat :=
  match c.scan with
  | .rowMajor => (slotPosition c j k, o)
  | .columnMajor => (o, slotPosition c j k)

/-- The value of a pad slot (41_block_packer.md R125). -/
def padValue (p : Params) (c : Cfg) : Nat :=
  match p.padPolicy with
  | .zeroField => 0
  | .blackSample => quantize 0 0 0 (depthOf c) c.invert

/-- FIELD under MSB_FIRST_BLOCK: a negative shift shifts right (41_block_packer.md R126). -/
def fieldMsbFirst (d b q k : Nat) : Word64 :=
  let s : Int := (b : Int) - ((k : Int) + 1) * (d : Int)
  if 0 ≤ s then BitVec.ofNat 64 (q <<< s.toNat) else BitVec.ofNat 64 (q >>> (-s).toNat)

/-- FIELD under SOURCE_OBSERVED: the shift is `d` for slot 0 and 0 for slot 1, and bits past bit 63 are lost
(41_block_packer.md R127). A later slot would shift by a negative amount: START refuses such a pass, and the field is a
free value (log 10). -/
def fieldSourceObserved (d q k : Nat) : Word64 :=
  match k with
  | 0 => BitVec.ofNat 64 (q <<< d)
  | 1 => BitVec.ofNat 64 q
  | k + 2 => Config.negShiftField d q (k + 2)

/-- FIELD(q, k) under the instance's policy (41_block_packer.md R126, R127). -/
def field (p : Params) (c : Cfg) (q k : Nat) : Word64 :=
  match p.shiftPolicy with
  | .msbFirstBlock => fieldMsbFirst (depthOf c) (blockBitsOf c) q k
  | .sourceObserved => fieldSourceObserved (depthOf c) q k

end Sys2Proof.Machine
end

