-- ==== Sys2Proof/Machine/Ops.lean ====
section
/-! DEFINITION. The named operations over the memories and registers (spec 00_scope.md R9): the byte space OUT, the
image space IMG, the free values, the host's reads, error entry and reset. -/

namespace Sys2Proof.Machine

/-! ### Sparse memories -/

/-- The canonical form: keys strictly rising. An unlisted key holds no value, so no entry can repeat what it reads as. -/
abbrev Memory.wf {α : Type} (m : Memory α) : Prop := m.Pairwise (fun a b => a.1 < b.1)

/-- The value listed at a key, if any. -/
def Memory.read {α : Type} : Memory α → Nat → Option α
  | [], _ => none
  | (a, v) :: rest, key => if key = a then some v else Memory.read rest key

/-- Write a value at a key, in order. -/
def Memory.write {α : Type} : Memory α → Nat → α → Memory α
  | [], key, v => [(key, v)]
  | (a, w) :: rest, key, v =>
    if key < a then (key, v) :: (a, w) :: rest
    else if key = a then (key, v) :: rest
    else (a, w) :: Memory.write rest key v

/-- Make a key unlisted. -/
def Memory.erase {α : Type} (m : Memory α) (key : Nat) : Memory α := m.filter (fun c => c.1 ≠ key)

/-- Make each key of a list unlisted. -/
def Memory.eraseAll {α : Type} : Memory α → List Nat → Memory α
  | m, [] => m
  | m, key :: keys => Memory.eraseAll (Memory.erase m key) keys

/-- Write bytes at rising indices from `base` (the loop of MemWrite in 42_serializer.md R161). -/
def Memory.writeBytes : Memory Byte → Nat → List Byte → Memory Byte
  | m, _, [] => m
  | m, base, b :: bs => Memory.writeBytes (Memory.write m base b) (base + 1) bs

/-! ### The serializer -/

/-- SERIALIZE(R, BPB): least significant byte first (42_serializer.md R160, 20_memory.md R54). -/
def serialize (r : Word64) (count : Nat) : List Byte :=
  (List.range count).map (fun i => r.extractLsb' (8 * i) 8)

/-! ### The image space -/

/-- The key of pixel `(x, y)` in IMG. -/
def pixelKey (x y : BitVec 16) : Nat := y.toNat * 65536 + x.toNat

/-- `IMG(x, y)`: what the host wrote there, else the image the instance was made with (20_memory.md R51; log 3). -/
def imgAt (s : State) (x y : BitVec 16) : Word64 := (Memory.read s.img (pixelKey x y)).getD (Config.img x y)

/-- SampleRead(x, y) (20_memory.md R52): the sample, or a draw once the host has changed IMG in this pass (R66). -/
def sampleRead (s : State) (x y : BitVec 16) : Word64 × State :=
  if s.imgDirty then (Config.freeSample s.draws, { s with draws := s.draws + 1 }) else (imgAt s x y, s)

/-- A coordinate as a pixel index; the engine reads only coordinates below 2^16 (20_memory.md R52). -/
def coord (v : Nat) : BitVec 16 := BitVec.ofNat 16 v

/-! ### The output space -/

/-- An index of OUT exists (20_memory.md R53). -/
def outExists (s : State) (index : Nat) : Bool := index < s.params.outCap.toNat

/-- The pass has ended: every byte of OUT the host wrote during it becomes unspecified (20_memory.md R66; log 12). -/
def settleOut (s : State) : State := { s with out := Memory.eraseAll s.out s.outDirty, outDirty := [] }

/-- A draw of an unspecified byte (20_memory.md R61; log 6). -/
def drawByte (s : State) : Byte × State := (Config.freeByte s.draws, { s with draws := s.draws + 1 })

/-- What a host read of OUT returns: the byte the space holds once the host has read DONE for the pass, and a draw
before that or where the byte is unspecified (20_memory.md R61, 10_state.md R40; log 4). -/
def outByteSeen (s : State) (index : Nat) : Byte × State :=
  if s.host.seenDone then
    match Memory.read s.out index with
    | some b => (b, s)
    | none => drawByte s
  else drawByte s

/-! ### Register reads -/

/-- A register read returns its word to the host and does nothing else (20_memory.md R57, 30_encoding.md R71). -/
def returnToHost (s : State) (reg : Reg) : State :=
  { s with host.reads := ⟨reg, regRead s reg⟩ :: s.host.reads }

/-- The host notes that it has read STATUS = DONE (20_memory.md R61; log 14). The core's state does not change. -/
def noteDone (s : State) : State :=
  if s.status.state = .done then { s with host.seenDone := true } else s

/-! ### Errors -/

/-- VALIDATE (60_exceptions.md R202): the first condition that holds gives the code. -/
def validate (s : State) : ErrCode :=
  if depthOf s.cfg = 0 then .depthZero
  else if blockBitsOf s.cfg = 0 then .blockZero
  else if 64 < depthOf s.cfg ∨ 64 < blockBitsOf s.cfg then .range
  else if blockBitsOf s.cfg < depthOf s.cfg then .depthGtBlock
  else if s.params.outCap.toNat < outputLength s.cfg s.dims then .bounds
  else if 0 < outputLength s.cfg s.dims ∧ 3 ≤ pixelsPerBlock s.cfg ∧ s.params.shiftPolicy = .sourceObserved then
    .negShift
  else .none

/-- `raise Error(code)` (60_exceptions.md R205): the one error entry. Raised by START it also clears the length, the
geometry and the counters. Nothing returns from it: only START or reset leaves ERROR (R207). -/
def raiseError (code : ErrCode) (fromStart : Bool) (s : State) : State :=
  { s with
    status := ⟨.error, code⟩
    outLen := if fromStart then ⟨0, 0⟩ else s.outLen
    geom := if fromStart then ⟨0, 0⟩ else s.geom
    eng := if fromStart then ⟨0, seqNone, 0, 0, 0, 0⟩ else { s.eng with r := 0, seq := seqNone } }

/-! ### Reset -/

/-- The reset input (70_reset_and_hazards.md R230, R231): every piece of the core's state takes its value of
10_state.md R40, and every byte of OUT becomes unspecified. The parameters, the image and the host stay (log 15). -/
def resetCore (s : State) : State :=
  { s with
    cfg := State.reset.cfg
    dims := State.reset.dims
    status := State.reset.status
    outLen := State.reset.outLen
    geom := State.reset.geom
    eng := State.reset.eng
    out := []
    imgDirty := false
    outDirty := []
    host.seenDone := false }

end Sys2Proof.Machine
end

