-- ==== Sys2Proof/Machine/ConfigWrites.lean ====
section
/-! DEFINITION. Writes of CFG and DIMS (spec 43_host_commands.md R182, R183). Both are ignored while STATE = BUSY
(10_state.md R37). -/

namespace Sys2Proof.Machine

/-- WR_CFG: any value is stored, legal or not (43_host_commands.md R182, 10_state.md R24). -/
def execWrCfg (depth blockBits : BitVec 7) (scan : Scan) (invert : Bool) (s : State) : Host.Outcome State Fault Refusal :=
  .next (if isBusy s then s else { s with cfg := ⟨depth, blockBits, scan, invert⟩ })

/-- WR_DIMS (43_host_commands.md R183). -/
def execWrDims (width height : BitVec 16) (s : State) : Host.Outcome State Fault Refusal :=
  .next (if isBusy s then s else { s with dims := ⟨width, height⟩ })

end Sys2Proof.Machine
end

