-- ==== Sys2Proof/Machine/Control.lean ====
section
/-! DEFINITION. Writes of CTRL: START and WR_CTRL_NOP (spec 43_host_commands.md R180, R181). -/

namespace Sys2Proof.Machine

/-- The part of START after VALIDATE has passed (43_host_commands.md R180). A new pass begins: the host has not seen it
DONE (20_memory.md R61), and has broken no duty in it (R66). -/
def acceptStart (s : State) : State :=
  let len := outputLength s.cfg s.dims
  { s with
    outLen := ⟨BitVec.ofNat 32 len, BitVec.ofNat 32 (len >>> 32)⟩
    geom := ⟨BitVec.ofNat 7 (pixelsPerBlock s.cfg), BitVec.ofNat 4 (bytesPerBlock s.cfg)⟩
    status := ⟨if len = 0 then .done else .busy, .none⟩
    eng := ⟨0, if len = 0 then seqNone else seqSlot, 0, 0, 0, 0⟩
    imgDirty := false
    outDirty := []
    host.seenDone := false }

/-- What START does (43_host_commands.md R180): nothing while BUSY (70_reset_and_hazards.md R235); else the configuration
is validated, and refused or accepted. -/
def startPass (s : State) : State :=
  if isBusy s then s
  else
    match validate s with
    | .none => acceptStart s
    | code => raiseError code true s

/-- START (43_host_commands.md R180). -/
def execStart (s : State) : Host.Outcome State Fault Refusal := .next (startPass s)

/-- WR_CTRL_NOP: no effect (43_host_commands.md R181). -/
def execWrCtrlNop (s : State) : Host.Outcome State Fault Refusal := .next s

end Sys2Proof.Machine
end

