-- ==== Sys2Proof/Machine/EngineOps.lean ====
section
/-! DEFINITION. The engine's micro-operations ENG_SLOT and ENG_FLUSH (spec 41_block_packer.md R129, 42_serializer.md
R161, R162). -/

namespace Sys2Proof.Machine

/-- The value `q` of the engine's slot: the quantized sample of its pixel, or the pad value (41_block_packer.md R129). -/
def slotRead (s : State) : Nat × State :=
  if slotInBounds s.cfg s.dims s.eng.j.toNat s.eng.k.toNat then
    let xy := slotPixel s.cfg s.eng.o.toNat s.eng.j.toNat s.eng.k.toNat
    let rd := sampleRead s (coord xy.1) (coord xy.2)
    (quantizeSample rd.1 (depthOf s.cfg) s.cfg.invert, rd.2)
  else (padValue s.params s.cfg, s)

/-- The engine after a slot whose field is `f` (41_block_packer.md R129). -/
def engineAfterSlot (e : Engine) (p : Nat) (f : Word64) : Engine :=
  if e.k.toNat = p - 1 then { e with r := e.r ||| f, seq := seqFlush }
  else { e with r := e.r ||| f, k := e.k + 1 }

/-- Process one slot (41_block_packer.md R129). -/
def processSlot (s : State) : State :=
  let qs := slotRead s
  { qs.2 with
    eng := engineAfterSlot s.eng (pixelsPerBlock s.cfg) (field s.params s.cfg qs.1 s.eng.k.toNat) }

/-- ENG_SLOT (41_block_packer.md R129). Where it is not enabled there is no engine step (30_encoding.md R73; log 9). -/
def execEngSlot (s : State) : Host.Outcome State Fault Refusal :=
  .next (if slotEnabled s then processSlot s else s)

/-- Advancing the scan (42_serializer.md R162). -/
def advance (e : Engine) (nb : Nat) : Engine :=
  if e.j.toNat + 1 < nb then { e with j := e.j + 1 } else { e with j := 0, o := e.o + 1 }

/-- The engine once the block is written, before the test for the end (42_serializer.md R161). -/
def engineAfterFlush (s : State) : Engine :=
  advance { s.eng with n := s.eng.n + BitVec.ofNat 36 (bytesPerBlock s.cfg), r := 0, k := 0 }
    (blocksPerLine s.cfg s.dims)

/-- The block would pass OUT_CAP (42_serializer.md R161). -/
def flushOutside (s : State) : Bool := s.params.outCap.toNat < s.eng.n.toNat + bytesPerBlock s.cfg

/-- OUT with the block written (42_serializer.md R160, R161). -/
def outAfterFlush (s : State) : Memory Byte :=
  Memory.writeBytes s.out s.eng.n.toNat (serialize s.eng.r (bytesPerBlock s.cfg))

/-- Write the block and advance (42_serializer.md R161). The pass ends with its last block (R163), or with the defensive
BOUNDS error, which writes no byte (60_exceptions.md R203). -/
def flushBlock (s : State) : State :=
  if flushOutside s then settleOut (raiseError .bounds false s)
  else if (engineAfterFlush s).o.toNat = lineCount s.cfg s.dims then
    settleOut { s with
      out := outAfterFlush s
      eng := { engineAfterFlush s with seq := seqNone }
      status.state := .done }
  else { s with out := outAfterFlush s, eng := { engineAfterFlush s with seq := seqSlot } }

/-- ENG_FLUSH (42_serializer.md R161). Where it is not enabled there is no engine step (30_encoding.md R73; log 9). -/
def execEngFlush (s : State) : Host.Outcome State Fault Refusal :=
  .next (if flushEnabled s then flushBlock s else s)

end Sys2Proof.Machine
end

