-- ==== Sys2Proof/Machine/IgnoredWrites.lean ====
section
/-! DEFINITION. Writes of the read-only and reserved registers: each is ignored, in every state (spec
43_host_commands.md R184 to R188, 20_memory.md R57). -/

namespace Sys2Proof.Machine

/-- WR_STATUS: in particular DONE and ERROR are not cleared (43_host_commands.md R184). -/
def execWrStatus (s : State) : Host.Outcome State Fault Refusal := .next s

/-- WR_OUT_LEN_LO (43_host_commands.md R185). -/
def execWrOutLenLo (s : State) : Host.Outcome State Fault Refusal := .next s

/-- WR_OUT_LEN_HI (43_host_commands.md R186). -/
def execWrOutLenHi (s : State) : Host.Outcome State Fault Refusal := .next s

/-- WR_GEOM (43_host_commands.md R187). -/
def execWrGeom (s : State) : Host.Outcome State Fault Refusal := .next s

/-- WR_RSVD7 (43_host_commands.md R188). -/
def execWrRsvd7 (s : State) : Host.Outcome State Fault Refusal := .next s

end Sys2Proof.Machine
end

