-- ==== Sys2Proof/Machine/Reads.lean ====
section
/-! DEFINITION. The register reads (spec 43_host_commands.md R189 to R196): each returns one word to the host, in any
state, and changes nothing of the core. -/

namespace Sys2Proof.Machine

/-- RD_CTRL: 0 (43_host_commands.md R189). -/
def execRdCtrl (s : State) : Host.Outcome State Fault Refusal := .next (returnToHost s .ctrl)

/-- RD_CFG (43_host_commands.md R190). -/
def execRdCfg (s : State) : Host.Outcome State Fault Refusal := .next (returnToHost s .cfg)

/-- RD_DIMS (43_host_commands.md R191). -/
def execRdDims (s : State) : Host.Outcome State Fault Refusal := .next (returnToHost s .dims)

/-- RD_STATUS (43_host_commands.md R192). A read that returns DONE is the synchronisation point of 20_memory.md R61. -/
def execRdStatus (s : State) : Host.Outcome State Fault Refusal := .next (noteDone (returnToHost s .status))

/-- RD_OUT_LEN_LO (43_host_commands.md R193). -/
def execRdOutLenLo (s : State) : Host.Outcome State Fault Refusal := .next (returnToHost s .outLenLo)

/-- RD_OUT_LEN_HI (43_host_commands.md R194). -/
def execRdOutLenHi (s : State) : Host.Outcome State Fault Refusal := .next (returnToHost s .outLenHi)

/-- RD_GEOM (43_host_commands.md R195). -/
def execRdGeom (s : State) : Host.Outcome State Fault Refusal := .next (returnToHost s .geom)

/-- RD_RSVD7: 0 (43_host_commands.md R196). -/
def execRdRsvd7 (s : State) : Host.Outcome State Fault Refusal := .next (returnToHost s .rsvd7)

end Sys2Proof.Machine
end

