-- ==== Sys2Proof/Machine/Dispatch.lean ====
section
/-! DEFINITION. One arm per instruction (spec 30_encoding.md R72, R73). -/

namespace Sys2Proof.Machine

def exec (i : Instr) (s : State) : Host.Outcome State Fault Refusal :=
  match i with
  | .start => Sys2Proof.Machine.execStart s
  | .wrCtrlNop => Sys2Proof.Machine.execWrCtrlNop s
  | .wrCfg depth blockBits scan invert => Sys2Proof.Machine.execWrCfg depth blockBits scan invert s
  | .wrDims width height => Sys2Proof.Machine.execWrDims width height s
  | .wrStatus => Sys2Proof.Machine.execWrStatus s
  | .wrOutLenLo => Sys2Proof.Machine.execWrOutLenLo s
  | .wrOutLenHi => Sys2Proof.Machine.execWrOutLenHi s
  | .wrGeom => Sys2Proof.Machine.execWrGeom s
  | .wrRsvd7 => Sys2Proof.Machine.execWrRsvd7 s
  | .rdCtrl => Sys2Proof.Machine.execRdCtrl s
  | .rdCfg => Sys2Proof.Machine.execRdCfg s
  | .rdDims => Sys2Proof.Machine.execRdDims s
  | .rdStatus => Sys2Proof.Machine.execRdStatus s
  | .rdOutLenLo => Sys2Proof.Machine.execRdOutLenLo s
  | .rdOutLenHi => Sys2Proof.Machine.execRdOutLenHi s
  | .rdGeom => Sys2Proof.Machine.execRdGeom s
  | .rdRsvd7 => Sys2Proof.Machine.execRdRsvd7 s
  | .engSlot => Sys2Proof.Machine.execEngSlot s
  | .engFlush => Sys2Proof.Machine.execEngFlush s

end Sys2Proof.Machine
end

