-- ==== Sys2Proof/Machine/Environment.lean ====
section
/-! DEFINITION. What the host does to the spaces IMG and OUT outside the register interface (spec 20_memory.md R61, R66;
70_reset_and_hazards.md R233). -/

namespace Sys2Proof.Machine

/-- The host makes IMG(x, y) hold a sample (70_reset_and_hazards.md R233 step 1). Inside the image while BUSY it breaks
its duty, and the later samples of the pass are draws (20_memory.md R66; log 11). -/
def setPixel (x y : BitVec 16) (sample : Word64) (s : State) : State :=
  { s with
    img := Memory.write s.img (pixelKey x y) sample
    imgDirty := s.imgDirty || (isBusy s && decide (x < s.dims.width) && decide (y < s.dims.height)) }

/-- The host writes a byte of OUT that exists. While BUSY it breaks its duty: the byte is unspecified when the pass ends
(20_memory.md R66; log 12). -/
def writeOut (index : Nat) (value : Byte) (s : State) : State :=
  if isBusy s then { s with outDirty := index :: s.outDirty }
  else { s with out := Memory.write s.out index value }

/-- The host reads a byte of OUT that exists (20_memory.md R61). -/
def readOut (index : Nat) (s : State) : State :=
  let bs := outByteSeen s index
  { bs.2 with host.outReads := (index, bs.1) :: bs.2.host.outReads }

end Sys2Proof.Machine
end

