-- ==== Sys2Proof/Machine/Fetch.lean ====
section
/-! DEFINITION. Who moves next, and what it runs: the host's program (spec 30_encoding.md R80), the engine's sequencer
(R73) and the events of the environment, one at a time (20_memory.md R62; log 1). -/

namespace Sys2Proof.Machine

/-- What a turn comes to, over the state it has prepared. -/
inductive Action where
  /-- Run an instruction. -/
  | run (i : Instr)
  /-- The prepared state is the next one. -/
  | settled
  /-- The access does not exist. -/
  | stop (f : Fault)
deriving DecidableEq, Repr

/-- The most recent `rd STATUS`, among reads newest first, returned STATE = 1 (BUSY). With none yet it did not
(30_encoding.md R80; log 8). -/
def lastStatusBusy : List ReadRecord → Bool
  | [] => false
  | rec :: rest => if rec.reg = .status then rec.value.extractLsb' 0 2 = stateBits .busy else lastStatusBusy rest

/-- The step of the host's program at its position (30_encoding.md R80). Past the end there is none (log 8). -/
def hostFetch (s : State) : Option HostOp := s.host.prog[s.host.pc]?

/-- The host goes to its next step. -/
def hostNext (s : State) : State := { s with host.pc := s.host.pc + 1 }

/-- The host goes to a step of its program. -/
def hostGoto (target : Nat) (s : State) : State := { s with host.pc := target }

/-- The host's turn (30_encoding.md R80): a transaction, `jbusy`, or nothing once its program has ended. -/
def hostTurn (s : State) : Action × State :=
  match hostFetch s with
  | some (.txn t) => (.run (decodeHost t), hostNext s)
  | some (.jbusy target) => (.settled, if lastStatusBusy s.host.reads then hostGoto target s else hostNext s)
  | some .halt => (.settled, s)
  | none => (.settled, s)

/-- The engine's micro-operation, selected by `seq` and only while STATE = BUSY (30_encoding.md R73). In phase 3 there is
none: the engine is stuck (log 9). -/
def engineFetch (s : State) : Option Instr :=
  if isBusy s then
    match decodeEngine s.eng.seq with
    | .ok i => some i
    | .error _ => none
  else none

/-- The engine's turn: its micro-operation, or nothing (10_state.md R20, R34). -/
def engineTurn (s : State) : Action × State :=
  match engineFetch s with
  | some i => (.run i, s)
  | none => (.settled, s)

/-- The host can take a step: its program is at a transaction or a `jbusy`. -/
def hostEnabled (s : State) : Bool :=
  match hostFetch s with
  | some (.txn _) => true
  | some (.jbusy _) => true
  | some .halt => false
  | none => false

/-- The engine can take a step. -/
def engineEnabled (s : State) : Bool := (engineFetch s).isSome

/-- One event (20_memory.md R61, R62, R66; 70_reset_and_hazards.md R230). An access of OUT outside OUT_CAP stops
(20_memory.md R53; log 13). -/
def eventAction (e : Event) (s : State) : Action × State :=
  match e with
  | .host => hostTurn s
  | .engine => engineTurn s
  | .reset => (.settled, resetCore s)
  | .setPixel x y sample => (.settled, setPixel x y sample s)
  | .writeOut index value => if outExists s index then (.settled, writeOut index value s) else (.stop (.outIndexOutside index), s)
  | .readOut index => if outExists s index then (.settled, readOut index s) else (.stop (.outIndexOutside index), s)

/-- The turn where both agents can move and the host still takes `count` turns before the engine's next step. -/
def contestedTurn (count : Nat) (s : State) : Action × State :=
  match count with
  | 0 => engineTurn { s with hostTurns := none }
  | left + 1 => hostTurn { s with hostTurns := some left }

/-- The turn when none is scheduled: the agent that can move moves. Where both can, the host takes a free number of turns,
and then the engine takes its step, so that the engine eventually steps (20_memory.md R62, 70_reset_and_hazards.md R240;
logs 1 and 16). -/
def freeAction (s : State) : Action × State :=
  match engineEnabled s, hostEnabled s with
  | true, true =>
    match s.hostTurns with
    | some count => contestedTurn count s
    | none => contestedTurn (Config.freeHostTurns s.draws) { s with draws := s.draws + 1 }
  | true, false => engineTurn s
  | false, true => hostTurn s
  | false, false => (.settled, s)

/-- The next turn. -/
def nextAction (s : State) : Action × State :=
  match s.events with
  | e :: rest => eventAction e { s with events := rest }
  | [] => freeAction s

/-- The state in which an encoded operation is the very next thing to run: a HOST word as the host's program with the
host's turn next, an ENGINE selector as the phase of a BUSY engine with the engine's turn next (log 7). -/
def placeNext (e : Encoded) (s : State) : State :=
  match e with
  | .host t => { s with host.prog := [.txn t], host.pc := 0, events := .host :: s.events }
  | .engine seq => { s with status.state := .busy, eng.seq := seq, events := .engine :: s.events }

end Sys2Proof.Machine
end

