-- ==== Sys2Proof/Machine/Step.lean ====
section
/-! DEFINITION. One step: the next turn, and the instruction it runs, if any. -/

namespace Sys2Proof.Machine

/-- One step of the machine (spec 20_memory.md R62: one host transaction, one engine step, or one event). -/
def step (s : State) : Host.Outcome State Fault Refusal :=
  match nextAction s with
  | (.run i, t) => exec i t
  | (.settled, t) => .next t
  | (.stop f, _) => .fault f

/-- `s` with the instruction of an opcode-table row placed where the next step takes it (log 7). -/
def State.withFetchWord (s : State) (nbits w : Nat) : State :=
  match encodedOfTable nbits w with
  | none => s
  | some e => placeNext e s

end Sys2Proof.Machine
end

