-- ==== Sys2Proof/Machine/Encode.lean ====
section
/-! DEFINITION. The closed form of a pass's output: PACK and ENCODE (spec 41_block_packer.md R128, 42_serializer.md
R164), over the image as it stands. -/

namespace Sys2Proof.Machine

/-- `q_k` of block `(o, j)` (41_block_packer.md R128). -/
def slotValue (s : State) (o j k : Nat) : Nat :=
  if slotInBounds s.cfg s.dims j k then
    quantizeSample (imgAt s (coord (slotPixel s.cfg o j k).1) (coord (slotPixel s.cfg o j k).2)) (depthOf s.cfg)
      s.cfg.invert
  else padValue s.params s.cfg

/-- The OR of the fields of the first `m` slots of block `(o, j)` (10_state.md R36 item 5). -/
def packUpTo (s : State) (o j : Nat) : Nat → Word64
  | 0 => 0
  | m + 1 => packUpTo s o j m ||| field s.params s.cfg (slotValue s o j m) m

/-- PACK(o, j) (41_block_packer.md R128). -/
def packBlock (s : State) (o j : Nat) : Word64 := packUpTo s o j (pixelsPerBlock s.cfg)

/-- ENCODE(IMG, CFG, DIMS): the blocks in scan order, each serialized (42_serializer.md R164, 41_block_packer.md
R123). -/
def encodeImage (s : State) : List Byte :=
  (List.range (lineCount s.cfg s.dims)).flatMap fun o =>
    (List.range (blocksPerLine s.cfg s.dims)).flatMap fun j =>
      serialize (packBlock s o j) (bytesPerBlock s.cfg)

/-- Byte `i` of ENCODE by its block (42_serializer.md R164). -/
def encodeByte (s : State) (i : Nat) : Byte :=
  let b := i / bytesPerBlock s.cfg
  (packBlock s (b / blocksPerLine s.cfg s.dims) (b % blocksPerLine s.cfg s.dims)).extractLsb'
    (8 * (i % bytesPerBlock s.cfg)) 8

/-- The engine steps of an accepted pass: `L * NB * (P + 1)` (42_serializer.md R165). -/
def passSteps (s : State) : Nat :=
  lineCount s.cfg s.dims * blocksPerLine s.cfg s.dims * (pixelsPerBlock s.cfg + 1)

/-- The first `count` bytes of OUT, where all are specified. -/
def outBytes (s : State) (count : Nat) : Option (List Byte) :=
  ((List.range count).map (Memory.read s.out)).mapM id

/-- The Encoded Bitmap: width, height and the ordered bytes, after a pass ended in DONE (42_serializer.md R167). -/
def encodedBitmap (s : State) : Option (BitVec 16 × BitVec 16 × List Byte) :=
  if s.status.state = .done then
    (outBytes s (outLen64 s.outLen).toNat).map (fun bytes => (s.dims.width, s.dims.height, bytes))
  else none

end Sys2Proof.Machine
end

