-- ==== Sys2Proof/Safety.lean ====
section
/-! DEFINITION. What holds of every state a run reaches (spec 10_state.md R36), what a run shows the host
(70_reset_and_hazards.md R242), and the terms the statements use. -/

namespace Sys2Proof.Machine

/-- The slots of the current block already in R: all of them in phase FLUSH, the first `k` before that (10_state.md R36
items 4 and 5). -/
def slotsPacked (s : State) : Nat :=
  if s.eng.seq = seqFlush then pixelsPerBlock s.cfg else s.eng.k.toNat

/-- What holds while STATE = BUSY (10_state.md R36 items 3 to 5, R29, R30; 42_serializer.md R164). The last two say what
the block register and OUT hold as long as the host has kept the image unchanged (20_memory.md R66). -/
structure BusyInv (s : State) : Prop where
  accepted : validate s = .none
  nonempty : 0 < outputLength s.cfg s.dims
  lineInRange : s.eng.o.toNat < lineCount s.cfg s.dims
  blockInRange : s.eng.j.toNat < blocksPerLine s.cfg s.dims
  slotInRange : s.eng.k.toNat < pixelsPerBlock s.cfg
  position : s.eng.n.toNat =
    bytesPerBlock s.cfg * (s.eng.o.toNat * blocksPerLine s.cfg s.dims + s.eng.j.toNat)
  flushAtLastSlot : s.eng.seq = seqFlush → s.eng.k.toNat = pixelsPerBlock s.cfg - 1
  lengthShown : (outLen64 s.outLen).toNat = outputLength s.cfg s.dims
  geometryShown : s.geom.ppb.toNat = pixelsPerBlock s.cfg ∧ s.geom.bpb.toNat = bytesPerBlock s.cfg
  notSeen : s.host.seenDone = false
  blockRegister : s.imgDirty = false → s.eng.r = packUpTo s s.eng.o.toNat s.eng.j.toNat (slotsPacked s)
  written : s.imgDirty = false → ∀ i < s.eng.n.toNat, Memory.read s.out i = some (encodeByte s i)

/-- What holds of every state a run reaches. -/
structure Inv (s : State) : Prop where
  /-- 10_state.md R36 item 1. -/
  phaseIffBusy : s.eng.seq ≠ seqNone ↔ s.status.state = .busy
  /-- 10_state.md R36 item 1. -/
  phaseNotUnused : s.eng.seq ≠ 3
  /-- 10_state.md R36 item 2, R28. -/
  errIffError : s.status.err ≠ .none ↔ s.status.state = .error
  /-- 10_state.md R33: outside a pass the block register is empty. -/
  emptyOutsidePass : s.status.state ≠ .busy → s.eng.r = 0
  /-- 10_state.md R29: only OUT_LEN_HI[2:0] can be nonzero. -/
  lengthHigh : s.outLen.hi.toNat ≤ 7
  /-- 10_state.md R30: the values of GEOM. -/
  geometryRange : s.geom.ppb.toNat ≤ 64 ∧ s.geom.bpb.toNat ≤ 8
  /-- With no pass accepted there is no output: reset and a refused START leave length and geometry 0 (10_state.md R40,
  60_exceptions.md R205). -/
  noOutput : s.status.state = .idle ∨ s.status.state = .error → s.outLen = ⟨0, 0⟩ ∧ s.geom = ⟨0, 0⟩
  /-- The canonical form of OUT, and its indices exist (20_memory.md R53). -/
  outWf : Memory.wf s.out
  outInside : ∀ c ∈ s.out, c.1 < s.params.outCap.toNat
  /-- The canonical form of IMG. -/
  imgWf : Memory.wf s.img
  /-- 20_memory.md R66: what the host wrote during a pass is settled when it ends. -/
  settled : s.status.state ≠ .busy → s.outDirty = []
  /-- 10_state.md R36 items 3 to 5. -/
  busy : s.status.state = .busy → BusyInv s

/-- The host program's run has ended: it is at `halt` or past its end (70_reset_and_hazards.md R242). -/
def runEnded (s : State) : Bool :=
  match hostFetch s with
  | some (.txn _) => false
  | some (.jbusy _) => false
  | some .halt => true
  | none => true

/-- The output a run ends with: `OUT[0 .. OUT_LEN - 1]`, which is empty in IDLE and ERROR. A run that ends while BUSY has
none, nor has one where a byte of it is unspecified (70_reset_and_hazards.md R242). -/
def outputAtEnd (s : State) : Option (List Byte) :=
  if isBusy s then none else outBytes s (outLen64 s.outLen).toNat

/-- What a run shows the host at its end (70_reset_and_hazards.md R242): the values its reads returned, oldest first, the
registers, and the output. -/
structure Observation where
  reads     : List ReadRecord
  registers : List Word32
  output    : Option (List Byte)
deriving DecidableEq, Repr

/-- The observation at a state (70_reset_and_hazards.md R242). -/
def observe (s : State) : Observation where
  reads := s.host.reads.reverse
  registers := [Reg.ctrl, .cfg, .dims, .status, .outLenLo, .outLenHi, .geom, .rsvd7].map (regRead s)
  output := outputAtEnd s

/-- What an engine step acts on: everything but the parameters, the host and the schedule. -/
structure CoreView where
  cfg      : Cfg
  dims     : Dims
  status   : Status
  outLen   : OutLen
  geom     : Geom
  eng      : Engine
  out      : Memory Byte
  img      : Memory Word64
  imgDirty : Bool
  outDirty : List Nat
  draws    : Nat
deriving DecidableEq, Repr

/-- The core's part of a state. -/
def coreView (s : State) : CoreView :=
  ⟨s.cfg, s.dims, s.status, s.outLen, s.geom, s.eng, s.out, s.img, s.imgDirty, s.outDirty, s.draws⟩

/-- The concatenation of the values of the first `m` slots of block `(o, j)`, slot 0 in the most significant place
(41_block_packer.md R128). -/
def concatValues (s : State) (o j : Nat) : Nat → Nat
  | 0 => 0
  | m + 1 => concatValues s o j m * 2 ^ depthOf s.cfg + slotValue s o j m

/-- The number a byte list stands for, least significant byte first (20_memory.md R54). -/
def bytesValue : List Byte → Nat
  | [] => 0
  | b :: bs => b.toNat + 256 * bytesValue bs

/-- OUT holds the whole output of the pass that ended in DONE (20_memory.md R61, 42_serializer.md R165). -/
def PassOutput (s : State) : Prop :=
  s.status.state = .done ∧ (outLen64 s.outLen).toNat = outputLength s.cfg s.dims ∧
    ∀ i < outputLength s.cfg s.dims, Memory.read s.out i = some (encodeByte s i)

/-- The next state of an outcome, if it is one. -/
def nextState? (o : Host.Outcome State Fault Refusal) : Option State :=
  match o with
  | .next s => some s
  | .fault _ => none
  | .refused _ => none

/-- The fault of an outcome, if it is one. -/
def faultOf? (o : Host.Outcome State Fault Refusal) : Option Fault :=
  match o with
  | .next _ => none
  | .fault f => some f
  | .refused _ => none

/-! ### Runs and the engine's progress (70_reset_and_hazards.md R240) -/

/-- An endless run: each state is the next of the one before. -/
def IsRun (r : Nat → State) : Prop := ∀ n, step (r n) = .next (r (n + 1))

/-- The instructions that are host transactions (30_encoding.md R70). -/
def isHostInstr : Instr → Bool
  | .engSlot => false
  | .engFlush => false
  | .start | .wrCtrlNop | .wrCfg _ _ _ _ | .wrDims _ _ | .wrStatus | .wrOutLenLo | .wrOutLenHi | .wrGeom
  | .wrRsvd7 | .rdCtrl | .rdCfg | .rdDims | .rdStatus | .rdOutLenLo | .rdOutLenHi | .rdGeom | .rdRsvd7 => true

/-- The next step of the machine is an engine step. -/
def engineMoves (s : State) : Bool :=
  match (nextAction s).1 with
  | .run i => !isHostInstr i
  | .settled => false
  | .stop _ => false

/-- Weak fairness of the engine: where it can step from some moment on, it steps after that moment. -/
def WeaklyFair (r : Nat → State) : Prop :=
  ∀ n, (∀ m, n ≤ m → engineEnabled (r m) = true) → ∃ m, n ≤ m ∧ engineMoves (r m) = true

/-- How many of the next `k` steps are engine steps. -/
def engineStepCount : Nat → State → Nat
  | 0, _ => 0
  | k + 1, s =>
    (if engineMoves s then 1 else 0) +
      match step s with
      | .next t => engineStepCount k t
      | .fault _ => 0
      | .refused _ => 0

end Sys2Proof.Machine
end

