-- ==== Sys2Proof/Certificates/Slice0/Obligations.lean ====
section
/-! DEFINITION. The statements for the provers. Each docstring names the rule of spec/ it formalises; "log <n>" is a
choice of the model's, and "(derived)" after a rule or a clause says that the spec marks it as its own inference. -/

open Sys2Proof Sys2Proof.Machine

/-! ### Encoding -/

/-- No operand is lost between encoding and decoding (30_encoding.md R72 to R75). -/
def Obligations.DecodeOfEncodeGivesInstruction : Prop :=
  ∀ i : Instr, decode (encode i) = .ok i

/-- Decoding a HOST word and encoding again gives the word with exactly its ignored bits cleared (30_encoding.md R74 to
R76; the zeros are log 17). -/
def Obligations.EncodeOfDecodeKeepsUsedBits : Prop :=
  ∀ t : Txn, encode (decodeHost t) = .host (t &&& (decodeHost t).usedBits)

/-- 30_encoding.md R72: every HOST word selects exactly one row of the map, and decodes to that row's instruction. -/
def Obligations.EveryHostWordSelectsOneRow : Prop :=
  ∀ t : Txn, (∃ row ∈ hostRows, row.selects t) ∧
    ∀ row ∈ hostRows, row.selects t ↔ row.name = mnemonic (decodeHost t)

/-- 30_encoding.md R73: the engine's micro-operation, by phase and only while BUSY. In phases 0 and 3, and outside
BUSY, the engine's turn changes nothing (phase 3: log 9). -/
def Obligations.EngineMicroOpByPhaseWhileBusy : Prop :=
  ∀ s : State,
    (s.status.state = .busy → s.eng.seq = 1 → engineTurn s = (.run .engSlot, s)) ∧
    (s.status.state = .busy → s.eng.seq = 2 → engineTurn s = (.run .engFlush, s)) ∧
    (s.status.state = .busy → (s.eng.seq = 0 ∨ s.eng.seq = 3) → engineTurn s = (.settled, s)) ∧
    (s.status.state ≠ .busy → engineTurn s = (.settled, s))

/-- 30_encoding.md R82 (derived): the worked encodings, from assembler to word to instruction. -/
def Obligations.WorkedEncodingsDecode : Prop :=
  assemble [⟨none, .cfg 4 8 .rowMajor false⟩] = some [.txn 0x900000804] ∧
  assemble [⟨none, .wr (.named .cfg) 0x00000804⟩] = some [.txn 0x900000804] ∧
  decodeHost 0x900000804 = .wrCfg 4 8 .rowMajor false ∧
  assemble [⟨none, .cfg 2 8 .columnMajor false⟩] = some [.txn 0x900010802] ∧
  assemble [⟨none, .wr (.named .cfg) 0x00010802⟩] = some [.txn 0x900010802] ∧
  decodeHost 0x900010802 = .wrCfg 2 8 .columnMajor false ∧
  assemble [⟨none, .cfg 3 8 .rowMajor true⟩] = some [.txn 0x900020803] ∧
  assemble [⟨none, .wr (.named .cfg) 0x00020803⟩] = some [.txn 0x900020803] ∧
  decodeHost 0x900020803 = .wrCfg 3 8 .rowMajor true ∧
  assemble [⟨none, .cfg 64 64 .rowMajor false⟩] = some [.txn 0x900004040] ∧
  assemble [⟨none, .wr (.named .cfg) 0x00004040⟩] = some [.txn 0x900004040] ∧
  decodeHost 0x900004040 = .wrCfg 64 64 .rowMajor false ∧
  assemble [⟨none, .cfg 7 64 .columnMajor true⟩] = some [.txn 0x900034007] ∧
  assemble [⟨none, .wr (.named .cfg) 0x00034007⟩] = some [.txn 0x900034007] ∧
  decodeHost 0x900034007 = .wrCfg 7 64 .columnMajor true ∧
  assemble [⟨none, .dims 2 1⟩] = some [.txn 0xA00010002] ∧
  assemble [⟨none, .wr (.named .dims) 0x00010002⟩] = some [.txn 0xA00010002] ∧
  decodeHost 0xA00010002 = .wrDims 2 1 ∧
  assemble [⟨none, .dims 2 3⟩] = some [.txn 0xA00030002] ∧
  assemble [⟨none, .wr (.named .dims) 0x00030002⟩] = some [.txn 0xA00030002] ∧
  decodeHost 0xA00030002 = .wrDims 2 3 ∧
  assemble [⟨none, .start⟩] = some [.txn 0x800000001] ∧ decodeHost 0x800000001 = .start ∧
  assemble [⟨none, .rd (.named .status)⟩] = some [.txn 0x300000000] ∧ decodeHost 0x300000000 = .rdStatus ∧
  assemble [⟨none, .rd (.named .outLenLo)⟩] = some [.txn 0x400000000] ∧ decodeHost 0x400000000 = .rdOutLenLo ∧
  assemble [⟨none, .rd (.named .geom)⟩] = some [.txn 0x600000000] ∧ decodeHost 0x600000000 = .rdGeom

/-- 30_encoding.md R81: what each pseudo-instruction expands to, at any position of a program, as the transactions its
words decode to. -/
def Obligations.PseudoInstructionsExpand : Prop :=
  ∀ (find : Nat → Nat) (pos : Nat),
    (∃ t, AsmOp.expand find pos .start = [.txn t] ∧ t = txnOf true 0 1 ∧ decodeHost t = .start) ∧
    (∃ t, AsmOp.expand find pos .nop = [.txn t] ∧ t = txnOf true 0 0 ∧ decodeHost t = .wrCtrlNop) ∧
    (∀ (d b : Nat) (scan : Scan) (inv : Bool), d < 128 → b < 128 →
      ∃ t, AsmOp.expand find pos (.cfg d b scan inv) = [.txn t] ∧
        decodeHost t = .wrCfg (BitVec.ofNat 7 d) (BitVec.ofNat 7 b) scan inv) ∧
    (∀ w h : Nat, w < 65536 → h < 65536 →
      ∃ t, AsmOp.expand find pos (.dims w h) = [.txn t] ∧
        decodeHost t = .wrDims (BitVec.ofNat 16 w) (BitVec.ofNat 16 h)) ∧
    (∃ t, AsmOp.expand find pos .poll = [.txn t, .jbusy pos] ∧ decodeHost t = .rdStatus) ∧
    (∃ t u, AsmOp.expand find pos .readlen = [.txn t, .txn u] ∧ decodeHost t = .rdOutLenLo ∧
      decodeHost u = .rdOutLenHi)

/-! ### Registers -/

/-- 43_host_commands.md R182: a write of CFG stores the four fields of its DATA and changes nothing else; while BUSY it
changes nothing. -/
def Obligations.WriteCfgStoresFieldsUnlessBusy : Prop :=
  ∀ (s : State) (data : Word32),
    (s.status.state ≠ .busy →
      exec (decodeHost (txnOf true 1 data)) s = .next { s with
        cfg := ⟨data.extractLsb' 0 7, data.extractLsb' 8 7,
          if data.getLsbD 16 then .columnMajor else .rowMajor, data.getLsbD 17⟩ }) ∧
    (s.status.state = .busy → exec (decodeHost (txnOf true 1 data)) s = .next s)

/-- A CFG write is read back as written, its reserved bits 0, legal or not (10_state.md R24, R32; 43_host_commands.md
R182, R190). -/
def Obligations.CfgReadsBackAsWritten : Prop :=
  ∀ (s : State) (data : Word32), s.status.state ≠ .busy →
    ∃ t u, exec (decodeHost (txnOf true 1 data)) s = .next t ∧ exec .rdCfg t = .next u ∧
      u.host.reads = ⟨.cfg, data &&& 0x00037F7F⟩ :: s.host.reads ∧ u.cfg = t.cfg

/-- 43_host_commands.md R183: a write of DIMS stores both halves of its DATA and changes nothing else, so that a read
returns the word written; while BUSY it changes nothing. -/
def Obligations.WriteDimsStoresFieldsUnlessBusy : Prop :=
  ∀ (s : State) (data : Word32),
    (s.status.state ≠ .busy →
      exec (decodeHost (txnOf true 2 data)) s =
        .next { s with dims := ⟨data.extractLsb' 0 16, data.extractLsb' 16 16⟩ } ∧
      regRead { s with dims := ⟨data.extractLsb' 0 16, data.extractLsb' 16 16⟩ } .dims = data) ∧
    (s.status.state = .busy → exec (decodeHost (txnOf true 2 data)) s = .next s)

/-- 43_host_commands.md R181, R184 to R188: these writes change nothing, whatever their DATA and whatever the state. -/
def Obligations.IgnoredWritesChangeNothing : Prop :=
  ∀ (s : State) (data : Word32),
    (data.getLsbD 0 = false → decodeHost (txnOf true 0 data) = .wrCtrlNop) ∧ exec .wrCtrlNop s = .next s ∧
    decodeHost (txnOf true 3 data) = .wrStatus ∧ exec .wrStatus s = .next s ∧
    decodeHost (txnOf true 4 data) = .wrOutLenLo ∧ exec .wrOutLenLo s = .next s ∧
    decodeHost (txnOf true 5 data) = .wrOutLenHi ∧ exec .wrOutLenHi s = .next s ∧
    decodeHost (txnOf true 6 data) = .wrGeom ∧ exec .wrGeom s = .next s ∧
    decodeHost (txnOf true 7 data) = .wrRsvd7 ∧ exec .wrRsvd7 s = .next s

/-- 43_host_commands.md R189 to R191 and R193 to R196: each read returns its register's word to the host and changes
nothing else. -/
def Obligations.ReadsReturnRegisterWords : Prop :=
  ∀ (s : State) (data : Word32),
    let answers (n : BitVec 3) (reg : Reg) (word : Word32) : Prop :=
      exec (decodeHost (txnOf false n data)) s =
        .next { s with host := { s.host with reads := ⟨reg, word⟩ :: s.host.reads } }
    answers 0 .ctrl 0 ∧
    answers 1 .cfg (s.cfg.depth.setWidth 32 ||| (s.cfg.blockBits.setWidth 32 <<< 8) |||
      ((if s.cfg.scan = .columnMajor then 1 else 0) <<< 16) ||| ((if s.cfg.invert then 1 else 0) <<< 17)) ∧
    answers 2 .dims (s.dims.width.setWidth 32 ||| (s.dims.height.setWidth 32 <<< 16)) ∧
    answers 4 .outLenLo s.outLen.lo ∧
    answers 5 .outLenHi s.outLen.hi ∧
    answers 6 .geom (s.geom.ppb.setWidth 32 ||| (s.geom.bpb.setWidth 32 <<< 8)) ∧
    answers 7 .rsvd7 0

/-- 43_host_commands.md R192: a read of STATUS returns STATE and ERR and clears nothing. The host's own note that it has
seen DONE (20_memory.md R61) is the model's field (log 14). -/
def Obligations.StatusReadReturnsStateAndError : Prop :=
  ∀ (s : State) (data : Word32),
    exec (decodeHost (txnOf false 3 data)) s = .next { s with host := { s.host with
      reads := ⟨.status, (stateBits s.status.state).setWidth 32 ||| ((errBits s.status.err).setWidth 32 <<< 4)⟩ ::
        s.host.reads
      seenDone := s.host.seenDone || decide (s.status.state = .done) } }

/-- 10_state.md R40: what every piece of state holds after reset. A byte of OUT holds no value the model knows. -/
def Obligations.ResetValues : Prop :=
  State.reset.cfg = ⟨4, 8, .rowMajor, false⟩ ∧ State.reset.dims = ⟨0, 0⟩ ∧ State.reset.status = ⟨.idle, .none⟩ ∧
  State.reset.outLen = ⟨0, 0⟩ ∧ State.reset.geom = ⟨0, 0⟩ ∧ State.reset.eng = ⟨0, 0, 0, 0, 0, 0⟩ ∧
  regRead State.reset .ctrl = 0 ∧ regRead State.reset .cfg = 0x00000804 ∧ regRead State.reset .dims = 0 ∧
  regRead State.reset .status = 0 ∧ regRead State.reset .outLenLo = 0 ∧ regRead State.reset .outLenHi = 0 ∧
  regRead State.reset .geom = 0 ∧ regRead State.reset .rsvd7 = 0 ∧
  ∀ i, Memory.read State.reset.out i = none

/-- 10_state.md R32: reserved bits read as 0 and ignore writes. -/
def Obligations.ReservedBitsReadZeroAndIgnoreWrites : Prop :=
  (∀ s : State, regRead s .ctrl = 0 ∧ regRead s .cfg &&& 0xFFFC8080 = 0 ∧ regRead s .status &&& 0xFFFFFF0C = 0 ∧
    regRead s .geom &&& 0xFFFFF080 = 0) ∧
  (∀ data : Word32, decodeHost (txnOf true 0 data) = decodeHost (txnOf true 0 (data &&& 1)) ∧
    decodeHost (txnOf true 1 data) = decodeHost (txnOf true 1 (data &&& 0x00037F7F)) ∧
    decodeHost (txnOf true 3 data) = decodeHost (txnOf true 3 0) ∧
    decodeHost (txnOf true 6 data) = decodeHost (txnOf true 6 0))

/-! ### START and the errors -/

/-- START is ignored while BUSY; it raises the error VALIDATE gives; else it shows the length and the geometry, clears
the error and begins the pass, or ends it at once where the length is 0. It leaves CFG, DIMS, OUT and the image alone
(43_host_commands.md R180, 60_exceptions.md R202, R205). That a refused START leaves the model's own fields, the
host's note of DONE among them, is log 14. -/
def Obligations.StartFollowsItsRule : Prop :=
  ∀ s : State,
    (s.status.state = .busy → exec .start s = .next s) ∧
    (s.status.state ≠ .busy → validate s ≠ .none →
      exec .start s = .next { s with
        status := ⟨.error, validate s⟩, outLen := ⟨0, 0⟩, geom := ⟨0, 0⟩, eng := ⟨0, 0, 0, 0, 0, 0⟩ }) ∧
    (s.status.state ≠ .busy → validate s = .none →
      let p := (s.cfg.blockBits.toNat + s.cfg.depth.toNat - 1) / s.cfg.depth.toNat
      let bpb := (s.cfg.blockBits.toNat + 7) / 8
      let l := if s.cfg.scan = .rowMajor then s.dims.height.toNat else s.dims.width.toNat
      let nb := ((if s.cfg.scan = .rowMajor then s.dims.width.toNat else s.dims.height.toNat) + p - 1) / p
      let len := bpb * l * nb
      ∃ t, exec .start s = .next t ∧
        t.outLen.lo.toNat = len % 2 ^ 32 ∧ t.outLen.hi.toNat = len / 2 ^ 32 ∧
        t.geom.ppb.toNat = p ∧ t.geom.bpb.toNat = bpb ∧
        t.status = ⟨if len = 0 then .done else .busy, .none⟩ ∧
        t.eng = ⟨0, if len = 0 then 0 else 1, 0, 0, 0, 0⟩ ∧
        t.params = s.params ∧ t.cfg = s.cfg ∧ t.dims = s.dims ∧ t.out = s.out ∧ t.img = s.img ∧
        t.host.prog = s.host.prog ∧ t.host.pc = s.host.pc ∧ t.host.reads = s.host.reads ∧
        t.host.outReads = s.host.outReads ∧ t.events = s.events ∧ t.hostTurns = s.hostTurns ∧ t.draws = s.draws)

/-- 60_exceptions.md R202: the conditions of VALIDATE, in their priority, each with the code it gives. -/
def Obligations.ValidateReportsFirstError : Prop :=
  ∀ s : State,
    let d := s.cfg.depth.toNat
    let b := s.cfg.blockBits.toNat
    let p := (b + d - 1) / d
    let l := if s.cfg.scan = .rowMajor then s.dims.height.toNat else s.dims.width.toNat
    let nb := ((if s.cfg.scan = .rowMajor then s.dims.width.toNat else s.dims.height.toNat) + p - 1) / p
    let len := (b + 7) / 8 * l * nb
    let negShift := s.params.shiftPolicy = .sourceObserved ∧ 3 ≤ p ∧ 0 < len
    (d = 0 → validate s = .depthZero) ∧
    (d ≠ 0 → b = 0 → validate s = .blockZero) ∧
    (d ≠ 0 → b ≠ 0 → (64 < d ∨ 64 < b) → validate s = .range) ∧
    (d ≠ 0 → b ≠ 0 → d ≤ 64 → b ≤ 64 → b < d → validate s = .depthGtBlock) ∧
    (d ≠ 0 → b ≤ 64 → d ≤ b → s.params.outCap.toNat < len → validate s = .bounds) ∧
    (d ≠ 0 → b ≤ 64 → d ≤ b → len ≤ s.params.outCap.toNat → negShift → validate s = .negShift) ∧
    (d ≠ 0 → b ≤ 64 → d ≤ b → len ≤ s.params.outCap.toNat → ¬ negShift → validate s = .none)

/-- 41_block_packer.md R122: after an accepted START, OUT_LEN is the size law with nothing lost, 0 for an empty image
(derived), and at most 8 x 65535 x 65535, which the largest image reaches (derived). -/
def Obligations.SizeLaw : Prop :=
  (∀ s : State, s.status.state ≠ .busy → validate s = .none →
    ∃ t, exec .start s = .next t ∧
      (s.cfg.scan = .rowMajor → (outLen64 t.outLen).toNat =
        ceilDiv s.cfg.blockBits.toNat 8 * s.dims.height.toNat *
          ceilDiv s.dims.width.toNat (ceilDiv s.cfg.blockBits.toNat s.cfg.depth.toNat)) ∧
      (s.cfg.scan = .columnMajor → (outLen64 t.outLen).toNat =
        ceilDiv s.cfg.blockBits.toNat 8 * s.dims.width.toNat *
          ceilDiv s.dims.height.toNat (ceilDiv s.cfg.blockBits.toNat s.cfg.depth.toNat)) ∧
      ((s.dims.width = 0 ∨ s.dims.height = 0) → (outLen64 t.outLen).toNat = 0) ∧
      (outLen64 t.outLen).toNat ≤ 34358689800) ∧
  outputLength ⟨64, 64, .rowMajor, false⟩ ⟨65535, 65535⟩ = 34358689800

/-- A pass over an empty image ends inside START, with OUT untouched (43_host_commands.md R180; 42_serializer.md R163,
derived). -/
def Obligations.EmptyImageIsDoneAtOnce : Prop :=
  ∀ s : State, s.status.state ≠ .busy → validate s = .none → (s.dims.width = 0 ∨ s.dims.height = 0) →
    ∃ t, exec .start s = .next t ∧ t.status = ⟨.done, .none⟩ ∧ t.outLen = ⟨0, 0⟩ ∧ t.eng = ⟨0, 0, 0, 0, 0, 0⟩ ∧
      ∀ i, Memory.read t.out i = Memory.read s.out i

/-- 60_exceptions.md R207: ERROR is left only by a START or by reset; every other step leaves STATUS as it is. -/
def Obligations.ErrorIsLeftOnlyByStartOrReset : Prop :=
  ∀ s t : State, s.status.state = .error → step s = .next t →
    t.status = s.status ∨ (∃ u, nextAction s = (.run .start, u)) ∨ s.events.head? = some .reset

/-- 10_state.md R27: how STATE moves. An instruction moves it only by START outside BUSY, or by ENG_FLUSH from BUSY, to
ERROR only by the bounds check. Preparing a turn moves nothing, and apart from instructions only reset does. -/
def Obligations.StateMovesOnlyAsStated : Prop :=
  (∀ (i : Instr) (s t : State), exec i s = .next t → t.status.state ≠ s.status.state →
    (i = .start ∧ s.status.state ≠ .busy ∧
      (t.status.state = .busy ∨ t.status.state = .done ∨ t.status.state = .error)) ∨
    (i = .engFlush ∧ s.status.state = .busy ∧ (engineAfterFlush s).o.toNat = lineCount s.cfg s.dims ∧
      t.status.state = .done) ∨
    (i = .engFlush ∧ s.status.state = .busy ∧ s.params.outCap.toNat < s.eng.n.toNat + bytesPerBlock s.cfg ∧
      t.status.state = .error)) ∧
  (∀ (s t : State) (i : Instr), nextAction s = (.run i, t) → t.status = s.status) ∧
  (∀ s t : State, nextAction s = (.settled, t) →
    t.status = s.status ∨ (s.events.head? = some .reset ∧ t.status.state = .idle))

/-- 70_reset_and_hazards.md R230, R231: reset sets every piece of the core's state at once, whatever STATE was, and
leaves every byte of OUT unspecified. That the parameters, the image and the host's program stay is log 15. -/
def Obligations.ResetSetsEveryPiece : Prop :=
  ∀ (s : State) (rest : List Event), s.events = .reset :: rest →
    ∃ t, step s = .next t ∧ t.cfg = ⟨4, 8, .rowMajor, false⟩ ∧ t.dims = ⟨0, 0⟩ ∧ t.status = ⟨.idle, .none⟩ ∧
      t.outLen = ⟨0, 0⟩ ∧ t.geom = ⟨0, 0⟩ ∧ t.eng = ⟨0, 0, 0, 0, 0, 0⟩ ∧ (∀ i, Memory.read t.out i = none) ∧
      t.img = s.img ∧ t.params = s.params ∧ t.host.prog = s.host.prog ∧ t.host.pc = s.host.pc ∧ t.events = rest

/-! ### The quantizer -/

/-- 40_quantizer.md R104: the mask never changes the result, so QUANTIZE is the truncated average, inverted or not,
times `2^d - 1`, divided by 65535; and the intensity never leaves 16 bits (R101, R102). -/
def Obligations.QuantizerMaskChangesNothing : Prop :=
  ∀ (r g b : BitVec 16) (d : Nat) (inv : Bool),
    quantize r g b d inv =
      (if inv then 65535 - (r.toNat + g.toNat + b.toNat) / 3 else (r.toNat + g.toNat + b.toNat) / 3) *
        (2 ^ d - 1) / 65535 ∧
    (r.toNat + g.toNat + b.toNat) / 3 ≤ 65535

/-- 40_quantizer.md R105 (derived): the range of the result, its monotony in the intensity, and when it is full or
zero. -/
def Obligations.QuantizerRangeAndMonotony : Prop :=
  ∀ (r g b : BitVec 16) (d : Nat) (inv : Bool), 1 ≤ d → d ≤ 64 →
    let c := invertIntensity inv (average r g b)
    let m := 2 ^ d - 1
    quantize r g b d inv ≤ m ∧
    (quantize r g b d inv = m ↔ c = 65535) ∧
    (quantize r g b d inv = 0 ↔ c * m < 65535) ∧
    (16 ≤ d → (c * m < 65535 ↔ c = 0)) ∧
    (∀ (r' g' b' : BitVec 16) (inv' : Bool), c ≤ invertIntensity inv' (average r' g' b') →
      quantize r g b d inv ≤ quantize r' g' b' d inv')

/-- 40_quantizer.md R106 (derived): the closed forms at eight depths, and the three values at depth 17. -/
def Obligations.QuantizerClosedForms : Prop :=
  (∀ (r g b : BitVec 16) (inv : Bool),
    let c := invertIntensity inv (average r g b)
    quantize r g b 1 inv = (if c = 65535 then 1 else 0) ∧
    quantize r g b 2 inv = c / 21845 ∧
    quantize r g b 4 inv = c / 4369 ∧
    quantize r g b 8 inv = c / 257 ∧
    quantize r g b 16 inv = c ∧
    quantize r g b 32 inv = c * 2 ^ 16 + c ∧
    quantize r g b 48 inv = (c * 2 ^ 16 + c) * 2 ^ 16 + c ∧
    quantize r g b 64 inv = ((c * 2 ^ 16 + c) * 2 ^ 16 + c) * 2 ^ 16 + c) ∧
  quantize 1 1 1 17 false = 2 ∧ quantize 32768 32768 32768 17 false = 65536 ∧
  quantize 65535 65535 65535 17 false = 131071

/-- 40_quantizer.md R107 (derived): inversion against the channel-complemented sample, with its exact bound. -/
def Obligations.InversionAgainstComplement : Prop :=
  ∀ (r g b : BitVec 16) (d : Nat), 1 ≤ d → d ≤ 64 →
    let sum := r.toNat + g.toNat + b.toNat
    let q1 := quantize r g b d true
    let q2 := quantize (65535 - r) (65535 - g) (65535 - b) d false
    let c1 := invertIntensity true (average r g b)
    let c2 := average (65535 - r) (65535 - g) (65535 - b)
    c1 = 65535 - sum / 3 ∧ c2 = 65535 - ceilDiv sum 3 ∧
    c1 = c2 + (if sum % 3 = 0 then 0 else 1) ∧
    q2 ≤ q1 ∧ q1 - q2 ≤ ceilDiv (2 ^ d - 1) 65535 ∧
    (d ≤ 16 → q1 - q2 ≤ 1) ∧ (sum % 3 = 0 → q1 = q2)

/-! ### The packer and the serializer -/

/-- 41_block_packer.md R120: the block geometry of a legal configuration, its ranges, and GEOM after START. -/
def Obligations.BlockGeometry : Prop :=
  ∀ s : State, s.status.state ≠ .busy → validate s = .none →
    ∃ t, exec .start s = .next t ∧
      t.geom.ppb.toNat = ceilDiv s.cfg.blockBits.toNat s.cfg.depth.toNat ∧
      t.geom.bpb.toNat = ceilDiv s.cfg.blockBits.toNat 8 ∧
      1 ≤ t.geom.ppb.toNat ∧ t.geom.ppb.toNat ≤ 64 ∧ 1 ≤ t.geom.bpb.toNat ∧ t.geom.bpb.toNat ≤ 8 ∧
      (¬ s.cfg.depth.toNat ∣ s.cfg.blockBits.toNat →
        s.cfg.blockBits.toNat < t.geom.ppb.toNat * s.cfg.depth.toNat)

/-- 20_memory.md R68 (derived): the slots inside the image are the image's pixels, each exactly once, so a pass reads
each sample once. -/
def Obligations.EachPixelHasExactlyOneSlot : Prop :=
  ∀ (c : Cfg) (dm : Dims), 1 ≤ depthOf c → depthOf c ≤ blockBitsOf c →
    (∀ x y, x < dm.width.toNat → y < dm.height.toNat →
      ∃ o j k, o < lineCount c dm ∧ j < blocksPerLine c dm ∧ k < pixelsPerBlock c ∧ slotInBounds c dm j k = true ∧
        slotPixel c o j k = (x, y) ∧
        ∀ o' j' k', k' < pixelsPerBlock c → slotPixel c o' j' k' = (x, y) → o' = o ∧ j' = j ∧ k' = k) ∧
    (∀ o j k, o < lineCount c dm → slotInBounds c dm j k = true →
      (slotPixel c o j k).1 < dm.width.toNat ∧ (slotPixel c o j k).2 < dm.height.toNat)

/-- 41_block_packer.md R126: where MSB_FIRST_BLOCK places a value, and when the last slot is cut. -/
def Obligations.MsbFirstFieldPlacement : Prop :=
  ∀ d b q k : Nat, 1 ≤ d → d ≤ b → b ≤ 64 → q < 2 ^ d → k < ceilDiv b d →
    (fieldMsbFirst d b q k).toNat =
      (if (k + 1) * d ≤ b then q * 2 ^ (b - (k + 1) * d) else q / 2 ^ ((k + 1) * d - b)) ∧
    (k + 2 ≤ ceilDiv b d → (k + 1) * d < b) ∧
    (k + 1 = ceilDiv b d → b ≤ (k + 1) * d ∧ ((k + 1) * d = b ↔ d ∣ b)) ∧
    (k + 1 = ceilDiv b d → (fieldMsbFirst d b q k).toNat < 2 ^ (b - k * d))

/-- The fields of a block are disjoint under both policies, slot 0 has the most significant bits, and under
MSB_FIRST_BLOCK the block never passes bit B - 1 and its OR is its sum (41_block_packer.md R130, derived). -/
def Obligations.PackedFieldsAreDisjoint : Prop :=
  (∀ d b q q' k k' : Nat, 1 ≤ d → d ≤ b → b ≤ 64 → q < 2 ^ d → q' < 2 ^ d → k < k' → k' < ceilDiv b d →
    fieldMsbFirst d b q k &&& fieldMsbFirst d b q' k' = 0 ∧ (fieldMsbFirst d b q k).toNat < 2 ^ b ∧
    (fieldMsbFirst d b q' k').toNat < 2 ^ b) ∧
  (∀ d b q : Nat, 1 ≤ d → d ≤ b → b ≤ 64 → q < 2 ^ d → (fieldMsbFirst d b q 0).toNat = q * 2 ^ (b - d)) ∧
  (∀ d b q q' : Nat, 1 ≤ d → d ≤ b → b ≤ 64 → ceilDiv b d = 2 → q < 2 ^ d → q' < 2 ^ d →
    fieldSourceObserved d q 0 &&& fieldSourceObserved d q' 1 = 0) ∧
  (∀ (s : State) (o j m : Nat), s.params.shiftPolicy = .msbFirstBlock → 1 ≤ depthOf s.cfg →
    depthOf s.cfg ≤ blockBitsOf s.cfg → blockBitsOf s.cfg ≤ 64 → m < pixelsPerBlock s.cfg →
    (packUpTo s o j (m + 1)).toNat =
      (packUpTo s o j m).toNat + (field s.params s.cfg (slotValue s o j m) m).toNat ∧
    (packUpTo s o j (m + 1)).toNat < 2 ^ blockBitsOf s.cfg)

/-- Under MSB_FIRST_BLOCK a block is the top B bits of the concatenation of its slots' values (41_block_packer.md
R128, in its sentence "Under `MSB_FIRST_BLOCK` this equals the top `B` bits", derived). -/
def Obligations.BlockIsTopBitsOfConcatenation : Prop :=
  ∀ (s : State) (o j : Nat), s.params.shiftPolicy = .msbFirstBlock → 1 ≤ depthOf s.cfg →
    depthOf s.cfg ≤ blockBitsOf s.cfg → blockBitsOf s.cfg ≤ 64 →
    (packBlock s o j).toNat =
      concatValues s o j (pixelsPerBlock s.cfg) / 2 ^ (pixelsPerBlock s.cfg * depthOf s.cfg - blockBitsOf s.cfg)

/-- FIELD under each policy: MSB_FIRST_BLOCK's placement, and SOURCE_OBSERVED's, `q << d` for slot 0 and `q` for slot
1, bits past bit 63 lost, so nothing is left of slot 0 at `d = 64` (41_block_packer.md R126, R127; a slot `k >= 2` is
log 10). R131 (derived): the layout where `d` divides `B`; the policies agree where `P = 2` and `B = 2 d`, and
elsewhere with `P <= 2` give different bytes for `q_0 = 1` with the other slot 0, though not for every input. -/
def Obligations.PoliciesAgreeOnlyOnTwoWholeFields : Prop :=
  (∀ (p : Params) (c : Cfg) (q k : Nat), p.shiftPolicy = .msbFirstBlock →
    field p c q k = fieldMsbFirst c.depth.toNat c.blockBits.toNat q k) ∧
  (∀ (p : Params) (c : Cfg) (q : Nat), p.shiftPolicy = .sourceObserved →
    (∀ k, field p c q k = fieldSourceObserved c.depth.toNat q k) ∧
    (field p c q 0).toNat = q * 2 ^ c.depth.toNat % 2 ^ 64 ∧
    (c.depth.toNat = 64 → field p c q 0 = 0) ∧
    (field p c q 1).toNat = q % 2 ^ 64) ∧
  (∀ d b q k : Nat, 1 ≤ d → d ∣ b → 1 ≤ b → b ≤ 64 → q < 2 ^ d → k < ceilDiv b d →
    ceilDiv b d = b / d ∧ (fieldMsbFirst d b q k).toNat = q * 2 ^ (b - (k + 1) * d) ∧
    (k + 1) * d ≤ b) ∧
  (∀ d q k : Nat, 1 ≤ d → 2 * d ≤ 64 → q < 2 ^ d → k < 2 →
    ceilDiv (2 * d) d = 2 ∧ fieldMsbFirst d (2 * d) q k = fieldSourceObserved d q k) ∧
  (∀ d b : Nat, 1 ≤ d → d ≤ b → b ≤ 64 → ceilDiv b d ≤ 2 → b ≠ 2 * d →
    let msb := if ceilDiv b d = 2 then fieldMsbFirst d b 1 0 ||| fieldMsbFirst d b 0 1 else fieldMsbFirst d b 1 0
    let src := if ceilDiv b d = 2 then fieldSourceObserved d 1 0 ||| fieldSourceObserved d 0 1
      else fieldSourceObserved d 1 0
    msb ≠ src ∧ serialize msb (ceilDiv b 8) ≠ serialize src (ceilDiv b 8)) ∧
  serialize (fieldMsbFirst 5 8 31 0 ||| fieldMsbFirst 5 8 31 1) 1 = [0xFF] ∧
  serialize (fieldSourceObserved 5 31 0 ||| fieldSourceObserved 5 31 1) 1 = [0xFF]

/-- Block (o, j) depends only on the samples of its own slots (41_block_packer.md R132, derived). -/
def Obligations.BlocksAreIndependent : Prop :=
  ∀ (s s' : State) (o j : Nat), s'.params = s.params → s'.cfg = s.cfg → s'.dims = s.dims →
    (∀ k < pixelsPerBlock s.cfg, slotInBounds s.cfg s.dims j k = true →
      imgAt s' (coord (slotPixel s.cfg o j k).1) (coord (slotPixel s.cfg o j k).2) =
        imgAt s (coord (slotPixel s.cfg o j k).1) (coord (slotPixel s.cfg o j k).2)) →
    packBlock s' o j = packBlock s o j

/-- SERIALIZE gives the bytes of R least significant first, and drops those above (42_serializer.md R160, 20_memory.md
R54). -/
def Obligations.SerializeIsLittleEndian : Prop :=
  ∀ (r : Word64) (count : Nat), count ≤ 8 →
    (serialize r count).length = count ∧
    (∀ i < count, ∃ b, (serialize r count)[i]? = some b ∧ b.toNat = r.toNat / 2 ^ (8 * i) % 256) ∧
    bytesValue (serialize r count) = r.toNat % 2 ^ (8 * count)

/-- 42_serializer.md R164: ENCODE has OUT_LEN bytes, and byte `i` is the byte of its block. -/
def Obligations.EncodeBytesByBlock : Prop :=
  ∀ s : State, (encodeImage s).length = outputLength s.cfg s.dims ∧
    ∀ i < outputLength s.cfg s.dims,
      (encodeImage s)[i]? = some (encodeByte s i) ∧
      (serialize (packBlock s (i / bytesPerBlock s.cfg / blocksPerLine s.cfg s.dims)
        (i / bytesPerBlock s.cfg % blocksPerLine s.cfg s.dims)) (bytesPerBlock s.cfg))[i % bytesPerBlock s.cfg]? =
          some (encodeByte s i)

/-! ### The engine -/

/-- ENG_SLOT, over an image the host has kept unchanged in the pass (41_block_packer.md R129). It changes the engine's
R, `k` and `seq` only. Where SOURCE_OBSERVED meets a slot `k >= 2`, as no run does, the field is the free value of log
10. An image the host has changed is BrokenDutiesGiveDraws. -/
def Obligations.SlotPacksItsPixel : Prop :=
  ∀ s : State, s.status.state = .busy → s.eng.seq = 1 → s.imgDirty = false →
    let d := s.cfg.depth.toNat
    let p := (s.cfg.blockBits.toNat + d - 1) / d
    let t := s.eng.j.toNat * p + s.eng.k.toNat
    let o := s.eng.o.toNat
    let x := if s.cfg.scan = .rowMajor then t else o
    let y := if s.cfg.scan = .rowMajor then o else t
    let inb := if s.cfg.scan = .rowMajor then t < s.dims.width.toNat else t < s.dims.height.toNat
    let smp := imgAt s (BitVec.ofNat 16 x) (BitVec.ofNat 16 y)
    let q := if inb then
        quantize (smp.extractLsb' 0 16) (smp.extractLsb' 16 16) (smp.extractLsb' 32 16) d s.cfg.invert
      else padValue s.params s.cfg
    let r := s.eng.r ||| field s.params s.cfg q s.eng.k.toNat
    (s.eng.k.toNat = p - 1 → exec .engSlot s = .next { s with eng := { s.eng with r := r, seq := 2 } }) ∧
    (s.eng.k.toNat ≠ p - 1 → exec .engSlot s = .next { s with eng := { s.eng with r := r, k := s.eng.k + 1 } })

/-- 41_block_packer.md R125: a pad slot reads no sample, whatever the image and whether or not the host has kept it
unchanged; its value is 0, or that of a black sample, and the two differ only where INVERT = 1. -/
def Obligations.PadSlotReadsNoSample : Prop :=
  (∀ s : State, s.status.state = .busy → s.eng.seq = 1 →
    slotInBounds s.cfg s.dims s.eng.j.toNat s.eng.k.toNat = false →
    exec .engSlot s = .next { s with
      eng := engineAfterSlot s.eng (pixelsPerBlock s.cfg)
        (field s.params s.cfg (padValue s.params s.cfg) s.eng.k.toNat) }) ∧
  (∀ (p : Params) (c : Cfg), p.padPolicy = .zeroField → padValue p c = 0) ∧
  (∀ (p : Params) (c : Cfg), p.padPolicy = .blackSample →
    padValue p c = quantize 0 0 0 (depthOf c) c.invert ∧
    padValue p c = (if c.invert then 2 ^ depthOf c - 1 else 0))

/-- ENG_SLOT depends on no sample but its own pixel's, and of that one not on alpha: two images that agree on its colour
channels, or any two images for a pad slot, give the same step. The host has kept the image in the pass (40_quantizer.md
R108, 20_memory.md R52). -/
def Obligations.SlotReadsOnlyItsPixelsColours : Prop :=
  ∀ (s : State) (m : Memory Word64), s.status.state = .busy → s.eng.seq = 1 → s.imgDirty = false →
    (slotInBounds s.cfg s.dims s.eng.j.toNat s.eng.k.toNat = true →
      let xy := slotPixel s.cfg s.eng.o.toNat s.eng.j.toNat s.eng.k.toNat
      (imgAt { s with img := m } (coord xy.1) (coord xy.2)).extractLsb' 0 48 =
        (imgAt s (coord xy.1) (coord xy.2)).extractLsb' 0 48) →
    ∃ t, exec .engSlot s = .next t ∧ exec .engSlot { s with img := m } = .next { t with img := m }

/-- ENG_FLUSH writes the block's bytes least significant first at `n` and no other byte, advances the scan, and ends
the pass where the line index reaches `L`; where the block would pass OUT_CAP it raises BOUNDS and writes nothing
(42_serializer.md R161, R162). A byte the host wrote in OUT during the pass is unspecified once the pass ends
(20_memory.md R66; how it is settled is log 12). -/
def Obligations.FlushWritesBlockAndAdvances : Prop :=
  ∀ s : State, s.status.state = .busy → s.eng.seq = 2 →
    let bpb := (s.cfg.blockBits.toNat + 7) / 8
    let stepsOn := s.eng.j.toNat + 1 < blocksPerLine s.cfg s.dims
    let j' : BitVec 16 := if stepsOn then s.eng.j + 1 else 0
    let o' : BitVec 16 := if stepsOn then s.eng.o else s.eng.o + 1
    let n' := s.eng.n + BitVec.ofNat 36 bpb
    let byteAfter (a : Nat) : Option Byte :=
      if s.eng.n.toNat ≤ a ∧ a < s.eng.n.toNat + bpb then some (s.eng.r.extractLsb' (8 * (a - s.eng.n.toNat)) 8)
      else Memory.read s.out a
    let settledTo (t : State) (byteOf : Nat → Option Byte) : Prop :=
      ∀ a, Memory.read t.out a = if a ∈ s.outDirty then none else byteOf a
    (s.params.outCap.toNat < s.eng.n.toNat + bpb →
      ∃ t, exec .engFlush s = .next t ∧ settledTo t (Memory.read s.out) ∧ t = { s with
        out := t.out
        outDirty := []
        status := ⟨.error, .bounds⟩
        eng := { s.eng with r := 0, seq := 0 } }) ∧
    (s.eng.n.toNat + bpb ≤ s.params.outCap.toNat → o'.toNat ≠ lineCount s.cfg s.dims →
      ∃ t, exec .engFlush s = .next t ∧ (∀ a, Memory.read t.out a = byteAfter a) ∧ t = { s with
        out := t.out
        eng := ⟨0, 1, o', j', 0, n'⟩ }) ∧
    (s.eng.n.toNat + bpb ≤ s.params.outCap.toNat → o'.toNat = lineCount s.cfg s.dims →
      ∃ t, exec .engFlush s = .next t ∧ settledTo t byteAfter ∧ t = { s with
        out := t.out
        outDirty := []
        status := { s.status with state := .done }
        eng := ⟨0, 0, o', j', 0, n'⟩ })

/-- 60_exceptions.md R203 (derived): in every state a run reaches the bounds check does not fire; if it fired, no byte
of the failing block would be written and OUT_LEN, GEOM and the earlier bytes would stay. -/
def Obligations.BoundsCheckNeverFires : Prop :=
  (∀ s : State, Inv s → s.status.state = .busy →
    s.eng.n.toNat + bytesPerBlock s.cfg ≤ outputLength s.cfg s.dims ∧
    outputLength s.cfg s.dims ≤ s.params.outCap.toNat) ∧
  (∀ s : State, s.status.state = .busy → s.eng.seq = 2 → s.outDirty = [] →
    s.params.outCap.toNat < s.eng.n.toNat + bytesPerBlock s.cfg →
    ∃ t, exec .engFlush s = .next t ∧ t.status = ⟨.error, .bounds⟩ ∧ t.outLen = s.outLen ∧ t.geom = s.geom ∧
      ∀ i, Memory.read t.out i = Memory.read s.out i)

/-- Where a micro-operation is not enabled the engine takes no step (41_block_packer.md R129, 42_serializer.md R161;
that running it there changes nothing is log 9). -/
def Obligations.DisabledMicroOpChangesNothing : Prop :=
  ∀ s : State,
    ((s.status.state ≠ .busy ∨ s.eng.seq ≠ 1) → exec .engSlot s = .next s) ∧
    ((s.status.state ≠ .busy ∨ s.eng.seq ≠ 2) → exec .engFlush s = .next s)

/-! ### The whole machine -/

/-- A host turn runs the instruction its transaction's word decodes to, the host's position moved on. -/
def Obligations.StepRunsDecodedTransaction : Prop :=
  ∀ (s : State) (rest : List Event) (t : Txn), s.events = .host :: rest →
    s.host.prog[s.host.pc]? = some (.txn t) →
    step s = exec (decodeHost t) { s with events := rest, host := { s.host with pc := s.host.pc + 1 } }

/-- An engine turn runs the micro-operation its phase decodes to. -/
def Obligations.StepRunsDecodedMicroOp : Prop :=
  ∀ (s : State) (rest : List Event) (i : Instr), s.events = .engine :: rest → s.status.state = .busy →
    decodeEngine s.eng.seq = .ok i → step s = exec i { s with events := rest }

/-- With nothing scheduled, the agent that can move moves; where neither can, nothing happens; where both can, the host
takes the turns drawn for it and then the engine takes its step, and the number drawn is free (20_memory.md R62; logs 1
and 16). -/
def Obligations.OpenTurnIsFree : Prop :=
  ∀ s : State, s.events = [] →
    (engineEnabled s = true → hostEnabled s = false → step s = step { s with events := [.engine] }) ∧
    (engineEnabled s = false → hostEnabled s = true → step s = step { s with events := [.host] }) ∧
    (engineEnabled s = false → hostEnabled s = false → step s = .next s) ∧
    (engineEnabled s = true → hostEnabled s = true →
      (s.hostTurns = some 0 → step s = step { s with events := [.engine], hostTurns := none }) ∧
      (∀ left, s.hostTurns = some (left + 1) →
        step s = step { s with events := [.host], hostTurns := some left }) ∧
      (s.hostTurns = none →
        step s = step { s with hostTurns := some (Config.freeHostTurns s.draws), draws := s.draws + 1 }))

/-- The host's program (30_encoding.md R80). `wr` and `rd` assemble to their words, for every register by name and by
number and every immediate; a program's lines stand in order, each at the position that the lines before it take,
which is where a `jbusy` to its label goes. `jbusy` goes there where the most recent read of STATUS returned STATE =
1, and on where it returned another or there was none (log 8); `halt` ends the program. Which texts are ill formed is
log 21. -/
def Obligations.HostControlForms : Prop :=
  (∀ (find : Nat → Nat) (pos n imm : Nat), n < 8 → imm < 2 ^ 32 →
    (∃ t, AsmOp.expand find pos (.wr (.number n) imm) = [.txn t] ∧ t.toNat = 2 ^ 35 + n * 2 ^ 32 + imm) ∧
    (∃ t, AsmOp.expand find pos (.rd (.number n)) = [.txn t] ∧ t.toNat = n * 2 ^ 32) ∧
    ∀ r, [Reg.ctrl, .cfg, .dims, .status, .outLenLo, .outLenHi, .geom, .rsvd7][n]? = some r →
      AsmOp.expand find pos (.wr (.named r) imm) = AsmOp.expand find pos (.wr (.number n) imm) ∧
      AsmOp.expand find pos (.rd (.named r)) = AsmOp.expand find pos (.rd (.number n))) ∧
  (∀ lines : List AsmLine,
    let stepsOf (ls : List AsmLine) : Nat := (ls.map fun l => if l.op = .poll ∨ l.op = .readlen then 2 else 1).sum
    (asmWellFormed lines = false → assemble lines = none) ∧
    (asmWellFormed lines = true → ∃ prog find, assemble lines = some prog ∧ prog.length = stepsOf lines ∧
      ∀ before l after, lines = before ++ l :: after →
        (∃ rest, prog.drop (stepsOf before) = l.op.expand find (stepsOf before) ++ rest) ∧
        (∀ label, l.label = some label → find label = stepsOf before) ∧
        (∀ label, l.op = .jbusy label → ∃ before' l' after', lines = before' ++ l' :: after' ∧
          l'.label = some label ∧ prog[stepsOf before]? = some (.jbusy (stepsOf before'))))) ∧
  ∀ (s : State) (rest : List Event), s.events = .host :: rest →
    (∀ (target : Nat) (newer older : List ReadRecord) (word : Word32),
      s.host.prog[s.host.pc]? = some (.jbusy target) → s.host.reads = newer ++ ⟨.status, word⟩ :: older →
      (∀ rec ∈ newer, rec.reg ≠ .status) →
      step s = .next { s with events := rest, host := { s.host with
        pc := if word.toNat % 4 = 1 then target else s.host.pc + 1 } }) ∧
    (∀ target : Nat, s.host.prog[s.host.pc]? = some (.jbusy target) → (∀ rec ∈ s.host.reads, rec.reg ≠ .status) →
      step s = .next { s with events := rest, host := { s.host with pc := s.host.pc + 1 } }) ∧
    (s.host.prog[s.host.pc]? = some .halt → step s = .next { s with events := rest })

/-- The invariant of every run holds after reset (10_state.md R36, derived, and R40). What it says of the model's own
fields is logs 4, 12 and 14. -/
def Obligations.ResetMeetsInvariant : Prop := Inv State.reset

/-- Every step keeps the invariant: the phases, the error code, the counters' ranges and position, the block register,
the output written so far, the register ranges and the canonical form of both memories (10_state.md R36, derived).
What it says of the model's own fields is logs 4, 12 and 14. -/
def Obligations.StepKeepsInvariant : Prop :=
  ∀ s t : State, Inv s → step s = .next t → Inv t

/-- No step changes the parameters, and only the host's own act changes the image (10_state.md R39; 20_memory.md R50). -/
def Obligations.ParametersAndImageAreFixed : Prop :=
  ∀ s t : State, step s = .next t →
    t.params = s.params ∧ ((∀ x y w, s.events.head? ≠ some (.setPixel x y w)) → t.img = s.img)

/-- 10_state.md R37: CFG and DIMS do not change while BUSY, but by reset. -/
def Obligations.ConfigurationFixedWhileBusy : Prop :=
  ∀ s t : State, s.status.state = .busy → step s = .next t → s.events.head? ≠ some .reset →
    t.cfg = s.cfg ∧ t.dims = s.dims

/-- While BUSY no host transaction touches the core: each completes, and changes at most what the host has read
(43_host_commands.md R180 to R196; 70_reset_and_hazards.md R234, R235). -/
def Obligations.HostCannotDisturbPass : Prop :=
  ∀ (i : Instr) (s : State), s.status.state = .busy → isHostInstr i = true →
    ∃ t, exec i s = .next t ∧ t = { s with host := { s.host with reads := t.host.reads } }

/-- OUT_LEN changes only by a START outside BUSY, or by reset (70_reset_and_hazards.md R238, derived). -/
def Obligations.LengthWrittenOnlyByStart : Prop :=
  ∀ s t : State, step s = .next t → t.outLen ≠ s.outLen →
    ((∃ u, nextAction s = (.run .start, u)) ∧ s.status.state ≠ .busy) ∨ s.events.head? = some .reset

/-- Outside a pass OUT stays as it is, but for the host's own writes and reset: START, refused or accepted, and every
register transaction leave it (20_memory.md R61; 60_exceptions.md R206, derived). -/
def Obligations.OutputStableOutsidePass : Prop :=
  ∀ s t : State, s.status.state ≠ .busy → step s = .next t →
    t.out = s.out ∨ s.events.head? = some .reset ∨ ∃ i b, s.events.head? = some (.writeOut i b)

/-- 20_memory.md R66: once the host changes IMG in a pass, every later sample of the pass is a draw; a byte of OUT it
writes in a pass is unspecified when the pass ends. What counts as a change is log 11, and how the bytes are settled
is log 12. -/
def Obligations.BrokenDutiesGiveDraws : Prop :=
  (∀ (s : State) (rest : List Event) (x y : BitVec 16) (w : Word64), s.status.state = .busy →
    s.events = .setPixel x y w :: rest → x < s.dims.width → y < s.dims.height →
    ∃ t, step s = .next t ∧ t.imgDirty = true ∧ t.status = s.status) ∧
  (∀ s t : State, step s = .next t → s.status.state = .busy → t.status.state = .busy → s.imgDirty = true →
    t.imgDirty = true) ∧
  (∀ s : State, s.status.state = .busy → s.eng.seq = 1 → s.imgDirty = true →
    slotInBounds s.cfg s.dims s.eng.j.toNat s.eng.k.toNat = true →
    exec .engSlot s = .next { s with
      draws := s.draws + 1
      eng := engineAfterSlot s.eng (pixelsPerBlock s.cfg)
        (field s.params s.cfg (quantizeSample (Config.freeSample s.draws) (depthOf s.cfg) s.cfg.invert)
          s.eng.k.toNat) }) ∧
  (∀ (s : State) (rest : List Event) (i : Nat) (b : Byte), s.status.state = .busy →
    s.events = .writeOut i b :: rest → i < s.params.outCap.toNat →
    ∃ t, step s = .next t ∧ i ∈ t.outDirty ∧ t.status = s.status) ∧
  (∀ s t : State, step s = .next t → s.status.state = .busy → t.status.state = .busy →
    ∀ i ∈ s.outDirty, i ∈ t.outDirty) ∧
  (∀ s t : State, step s = .next t → s.status.state = .busy → t.status.state ≠ .busy →
    ∀ i ∈ s.outDirty, Memory.read t.out i = none)

/-- A host access of OUT at an index at or above OUT_CAP stops with a fault, and one below does not (20_memory.md R53;
log 13). -/
def Obligations.OutAccessOutsideFaults : Prop :=
  ∀ (s : State) (rest : List Event) (i : Nat),
    (s.params.outCap.toNat ≤ i → s.events = .readOut i :: rest → step s = .fault (.outIndexOutside i)) ∧
    (∀ b : Byte, s.params.outCap.toNat ≤ i → s.events = .writeOut i b :: rest →
      step s = .fault (.outIndexOutside i)) ∧
    (i < s.params.outCap.toNat → s.events = .readOut i :: rest → ∃ t, step s = .next t) ∧
    (∀ b : Byte, i < s.params.outCap.toNat → s.events = .writeOut i b :: rest → ∃ t, step s = .next t)

/-- Outside a pass the host's write of a byte of OUT stores it and does nothing else (20_memory.md R57). -/
def Obligations.HostWriteOfOutStoresByte : Prop :=
  ∀ (s : State) (rest : List Event) (i : Nat) (b : Byte), s.status.state ≠ .busy → i < s.params.outCap.toNat →
    s.events = .writeOut i b :: rest →
    ∃ t, step s = .next t ∧ t = { s with out := t.out, events := rest } ∧
      ∀ a, Memory.read t.out a = if a = i then some b else Memory.read s.out a

/-- The host provides the image pixel by pixel: a pixel it writes holds its sample, every other pixel stays, and outside
a pass nothing else changes (70_reset_and_hazards.md R233; 20_memory.md R51). -/
def Obligations.HostProvidesImage : Prop :=
  ∀ (s : State) (rest : List Event) (x y : BitVec 16) (w : Word64), s.status.state ≠ .busy →
    s.events = .setPixel x y w :: rest →
    ∃ t, step s = .next t ∧ t = { s with img := t.img, events := rest } ∧ imgAt t x y = w ∧
      ∀ x' y', (x' ≠ x ∨ y' ≠ y) → imgAt t x' y' = imgAt s x' y'

/-- Once the host has read STATUS = DONE, a host read of OUT returns the byte the space holds, which after a pass is
ENCODE's, and a draw where the space holds no value (10_state.md R40, 20_memory.md R66; log 4). What it has read
counts until a START or reset (20_memory.md R61; a refused START is log 14). Before it has, any host read of OUT is a
draw. -/
def Obligations.OutputVisibleAfterDone : Prop :=
  (∀ (s : State) (rest : List Event) (i : Nat), PassOutput s → i < outputLength s.cfg s.dims →
    i < s.params.outCap.toNat → s.events = .readOut i :: rest →
    ∃ t u, exec .rdStatus s = .next t ∧ step t = .next u ∧
      u.host.outReads = (i, encodeByte s i) :: s.host.outReads ∧ u.out = s.out) ∧
  (∀ (s : State) (rest : List Event) (i : Nat), PassOutput s → s.host.seenDone = true →
    i < outputLength s.cfg s.dims → i < s.params.outCap.toNat → s.events = .readOut i :: rest →
    ∃ t, step s = .next t ∧ t.host.outReads = (i, encodeByte s i) :: s.host.outReads ∧ t.out = s.out) ∧
  (∀ (s : State) (rest : List Event) (i : Nat) (b : Byte), s.host.seenDone = true → i < s.params.outCap.toNat →
    Memory.read s.out i = some b → s.events = .readOut i :: rest →
    step s = .next { s with
      events := rest
      host := { s.host with outReads := (i, b) :: s.host.outReads } }) ∧
  (∀ (s : State) (rest : List Event) (i : Nat), s.host.seenDone = true → i < s.params.outCap.toNat →
    Memory.read s.out i = none → s.events = .readOut i :: rest →
    step s = .next { s with
      events := rest
      draws := s.draws + 1
      host := { s.host with outReads := (i, Config.freeByte s.draws) :: s.host.outReads } }) ∧
  (∀ s t : State, step s = .next t → s.host.seenDone = true →
    t.host.seenDone = true ∨ (∃ u, nextAction s = (.run .start, u)) ∨ s.events.head? = some .reset) ∧
  (∀ (s : State) (rest : List Event) (i : Nat), s.host.seenDone = false → i < s.params.outCap.toNat →
    s.events = .readOut i :: rest →
    ∃ t, step s = .next t ∧ t.host.outReads = (i, Config.freeByte s.draws) :: s.host.outReads ∧
      t.draws = s.draws + 1)

/-- The Encoded Bitmap after a pass ended in DONE is the width, the height and the bytes of ENCODE (42_serializer.md
R167), and a run that ends there shows those bytes as its output. A run that ends in IDLE or ERROR shows the empty output, and
one that ends while BUSY shows none (70_reset_and_hazards.md R242). -/
def Obligations.EncodedBitmapIsEncode : Prop :=
  (∀ s : State, PassOutput s →
    encodedBitmap s = some (s.dims.width, s.dims.height, encodeImage s) ∧
    (observe s).output = some (encodeImage s)) ∧
  (∀ s : State, Inv s → (s.status.state = .idle ∨ s.status.state = .error) → (observe s).output = some []) ∧
  (∀ s : State, s.status.state = .busy → (observe s).output = none)

/-- A pass that START accepts, run on engine turns while the host keeps its duties, is BUSY for exactly `L * NB * (P +
1)` engine turns and then DONE, with OUT the bytes of ENCODE below OUT_LEN and unchanged at and above it
(42_serializer.md R165, derived). -/
def Obligations.AcceptedPassWritesEncode : Prop :=
  ∀ (s : State) (rest : List Event), Inv s → s.status.state ≠ .busy → validate s = .none →
    0 < outputLength s.cfg s.dims →
    ∃ s1, exec .start s = .next s1 ∧
      (∀ m < passSteps s, ∃ u, Sys2Proof.core.run m
          { s1 with events := List.replicate (passSteps s) .engine ++ rest } = .next u ∧ u.status.state = .busy) ∧
      ∃ t, Sys2Proof.core.run (passSteps s)
          { s1 with events := List.replicate (passSteps s) .engine ++ rest } = .next t ∧
        t.status = ⟨.done, .none⟩ ∧ t.events = rest ∧
        (∀ i < outputLength s.cfg s.dims, Memory.read t.out i = some (encodeByte s i)) ∧
        (∀ i, outputLength s.cfg s.dims ≤ i → Memory.read t.out i = Memory.read s.out i)

/-- Host turns between engine turns do not change what the engine does. While the host has kept the image, and as long
as the engine turns leave the pass BUSY, any mixture of host and engine turns leaves the core where its engine turns
alone leave it; and so does one engine turn more, which may end the pass (42_serializer.md R166, derived; 20_memory.md
R62). -/
def Obligations.InterleavingDoesNotMatter : Prop :=
  ∀ (s u : State) (turns : List Event), (∀ e ∈ turns, e = .host ∨ e = .engine) → s.status.state = .busy →
    s.imgDirty = false →
    Sys2Proof.core.run (turns.count .engine) { s with events := List.replicate (turns.count .engine) .engine } =
      .next u →
    u.status.state = .busy →
    (∃ t, Sys2Proof.core.run turns.length { s with events := turns } = .next t ∧ coreView t = coreView u) ∧
    (∃ t v, Sys2Proof.core.run (turns.length + 1) { s with events := turns ++ [.engine] } = .next t ∧
      step { u with events := [.engine] } = .next v ∧ coreView t = coreView v)

/-- Progress (70_reset_and_hazards.md R240). Every endless run is weakly fair to the engine. So an accepted pass, whatever
the host's program and its turns, is BUSY until it is DONE, after exactly `L * NB * (P + 1)` engine steps; and a host
that polls STATUS during a pass reads BUSY finitely often, then DONE, and goes on. The fairness is built in: log 16. -/
def Obligations.EngineProgressIsWeaklyFair : Prop :=
  (∀ r : Nat → State, IsRun r → WeaklyFair r) ∧
  (∀ s : State, Inv s → s.status.state ≠ .busy → validate s = .none → 0 < outputLength s.cfg s.dims →
    (∀ e ∈ s.events, e = .host ∨ e = .engine) →
    ∃ s1 n t, exec .start s = .next s1 ∧ Sys2Proof.core.run n s1 = .next t ∧ t.status = ⟨.done, .none⟩ ∧
      engineStepCount n s1 = passSteps s ∧
      ∀ m < n, ∃ u, Sys2Proof.core.run m s1 = .next u ∧ u.status.state = .busy) ∧
  (∀ (s : State) (w : Txn), Inv s → s.status.state = .busy → (∀ e ∈ s.events, e = .host ∨ e = .engine) →
    s.host.prog[s.host.pc]? = some (.txn w) → decodeHost w = .rdStatus →
    s.host.prog[s.host.pc + 1]? = some (.jbusy s.host.pc) →
    ∃ n polls t, Sys2Proof.core.run n s = .next t ∧ t.status = ⟨.done, .none⟩ ∧ t.host.seenDone = true ∧
      t.host.pc = s.host.pc + 2 ∧
      t.host.reads = ⟨.status, 2⟩ :: (List.replicate polls ⟨.status, 1⟩ ++ s.host.reads))
end

