-- ==== Sys2Proof/Laws/Memory.lean ====
section
/-! SUPPORT. The laws of the sparse memories: reading after writing or erasing, and the canonical form, which every
memory operation keeps. -/

namespace Sys2Proof.Machine

variable {α : Type}

@[simp] theorem Memory.read_nil (key : Nat) : Memory.read ([] : Memory α) key = none := rfl

@[simp] theorem Memory.read_cons (a : Nat) (v : α) (rest : Memory α) (key : Nat) :
    Memory.read ((a, v) :: rest) key = if key = a then some v else Memory.read rest key := rfl

/-- Reading where one has written gives the value written. -/
@[simp] theorem Memory.read_write_same (m : Memory α) (key : Nat) (v : α) :
    Memory.read (Memory.write m key v) key = some v := by
  induction m with
  | nil => simp [Memory.write]
  | cons c rest ih =>
    obtain ⟨a, w⟩ := c
    unfold Memory.write
    split
    · simp
    · split
      · simp
      · next h => simp [h, ih]

/-- Writing leaves every other key alone. -/
theorem Memory.read_write_other (m : Memory α) {key other : Nat} (v : α) (h : other ≠ key) :
    Memory.read (Memory.write m key v) other = Memory.read m other := by
  induction m with
  | nil => simp [Memory.write, h]
  | cons c rest ih =>
    obtain ⟨a, w⟩ := c
    unfold Memory.write
    split
    · simp [h]
    · split
      · next heq => subst heq; simp [h]
      · simp [ih]

theorem Memory.read_write (m : Memory α) (key other : Nat) (v : α) :
    Memory.read (Memory.write m key v) other = if other = key then some v else Memory.read m other := by
  split
  · next h => subst h; simp
  · next h => exact Memory.read_write_other m v h

/-- What a write can list: the new cell, and the cells there were. -/
theorem Memory.mem_write {m : Memory α} {key : Nat} {v : α} {c : Nat × α} (h : c ∈ Memory.write m key v) :
    c = (key, v) ∨ c ∈ m := by
  induction m with
  | nil => simpa [Memory.write] using h
  | cons d rest ih =>
    obtain ⟨a, w⟩ := d
    unfold Memory.write at h
    split at h
    · rcases List.mem_cons.1 h with h | h
      · exact .inl h
      · exact .inr h
    · split at h
      · rcases List.mem_cons.1 h with h | h
        · exact .inl h
        · exact .inr (List.mem_cons_of_mem _ h)
      · rcases List.mem_cons.1 h with h | h
        · exact .inr (h ▸ List.mem_cons_self)
        · exact (ih h).imp_right (List.mem_cons_of_mem _)

/-- A write keeps the canonical form. -/
theorem Memory.wf_write {m : Memory α} (h : Memory.wf m) (key : Nat) (v : α) : Memory.wf (Memory.write m key v) := by
  induction m with
  | nil => simp [Memory.write]
  | cons c rest ih =>
    obtain ⟨a, w⟩ := c
    obtain ⟨hhead, hrest⟩ := List.pairwise_cons.1 h
    unfold Memory.write
    split
    · next hlt =>
      refine List.pairwise_cons.2 ⟨fun d hd => ?_, h⟩
      rcases List.mem_cons.1 hd with rfl | hd
      · exact hlt
      · exact Nat.lt_trans hlt (hhead d hd)
    · next hnlt =>
      split
      · next heq => subst heq; exact List.pairwise_cons.2 ⟨hhead, hrest⟩
      · next hne =>
        refine List.pairwise_cons.2 ⟨fun d hd => ?_, ih hrest⟩
        rcases Memory.mem_write hd with rfl | hd
        · simp only; omega
        · exact hhead d hd

/-- Erasing keeps the canonical form. -/
theorem Memory.wf_erase {m : Memory α} (h : Memory.wf m) (key : Nat) : Memory.wf (Memory.erase m key) :=
  h.filter _

/-- What erasing can leave listed. -/
theorem Memory.mem_erase {m : Memory α} {key : Nat} {c : Nat × α} (h : c ∈ Memory.erase m key) : c ∈ m :=
  (List.mem_filter.1 h).1

theorem Memory.read_erase (m : Memory α) (key other : Nat) :
    Memory.read (Memory.erase m key) other = if other = key then none else Memory.read m other := by
  induction m with
  | nil => simp [Memory.erase]
  | cons c rest ih =>
    obtain ⟨a, w⟩ := c
    unfold Memory.erase at ih ⊢
    by_cases ha : a = key
    · subst ha
      rw [List.filter_cons_of_neg (by simp), ih]
      by_cases ho : other = a <;> simp [ho]
    · rw [List.filter_cons_of_pos (by simpa using ha)]
      by_cases ho : other = a
      · subst ho; simp [ha]
      · rw [Memory.read_cons, if_neg ho, ih, Memory.read_cons, if_neg ho]

/-- Erasing many keys keeps the canonical form. -/
theorem Memory.wf_eraseAll {m : Memory α} (h : Memory.wf m) (keys : List Nat) : Memory.wf (Memory.eraseAll m keys) := by
  induction keys generalizing m with
  | nil => exact h
  | cons key keys ih => exact ih (Memory.wf_erase h key)

theorem Memory.mem_eraseAll {m : Memory α} {keys : List Nat} {c : Nat × α} (h : c ∈ Memory.eraseAll m keys) : c ∈ m := by
  induction keys generalizing m with
  | nil => exact h
  | cons key keys ih => exact Memory.mem_erase (ih h)

/-- Reading after erasing many keys. -/
theorem Memory.read_eraseAll (m : Memory α) (keys : List Nat) (other : Nat) :
    Memory.read (Memory.eraseAll m keys) other = if other ∈ keys then none else Memory.read m other := by
  induction keys generalizing m with
  | nil => simp [Memory.eraseAll]
  | cons key keys ih =>
    rw [Memory.eraseAll, ih, Memory.read_erase]
    by_cases h1 : other ∈ keys <;> by_cases h2 : other = key <;> simp [h1, h2]

/-- Writing bytes keeps the canonical form. -/
theorem Memory.wf_writeBytes {m : Memory Byte} (h : Memory.wf m) (base : Nat) (bytes : List Byte) :
    Memory.wf (Memory.writeBytes m base bytes) := by
  induction bytes generalizing m base with
  | nil => exact h
  | cons b bs ih => exact ih (Memory.wf_write h base b) (base + 1)

/-- What writing bytes can list: an index of the range written, or a cell there was. -/
theorem Memory.mem_writeBytes {m : Memory Byte} {base : Nat} {bytes : List Byte} {c : Nat × Byte}
    (h : c ∈ Memory.writeBytes m base bytes) : (base ≤ c.1 ∧ c.1 < base + bytes.length) ∨ c ∈ m := by
  induction bytes generalizing m base with
  | nil => exact .inr h
  | cons b bs ih =>
    simp only [List.length_cons]
    rcases ih h with ⟨h1, h2⟩ | hm
    · exact .inl (by omega)
    · rcases Memory.mem_write hm with rfl | hm
      · exact .inl (by simp)
      · exact .inr hm

/-- Reading after writing bytes: the byte written inside the range, what there was outside it. -/
theorem Memory.read_writeBytes (m : Memory Byte) (base : Nat) (bytes : List Byte) (i : Nat) :
    Memory.read (Memory.writeBytes m base bytes) i =
      if base ≤ i ∧ i < base + bytes.length then bytes[i - base]? else Memory.read m i := by
  induction bytes generalizing m base with
  | nil =>
    rw [if_neg (by simp)]
    rfl
  | cons b bs ih =>
    rw [Memory.writeBytes, ih, Memory.read_write]
    by_cases h1 : base + 1 ≤ i ∧ i < base + 1 + bs.length
    · rw [if_pos h1, if_pos (by simp; omega)]
      obtain ⟨n, hn⟩ : ∃ n, i - base = n + 1 := ⟨i - base - 1, by omega⟩
      rw [hn, List.getElem?_cons_succ]
      congr 1
      omega
    · rw [if_neg h1]
      by_cases h2 : i = base
      · subst h2; simp
      · rw [if_neg h2, if_neg (by simp; omega)]

end Sys2Proof.Machine
end

