-- ==== Sys2Proof/Laws/State.lean ====
section
/-! SUPPORT. For each named update of State, each field after it: what it becomes, or that it stays. So no later proof
unfolds a record update. -/

namespace Sys2Proof.Machine

/-! ### returnToHost -/

@[simp] theorem returnToHost_params (s : State) (reg : Reg) : (returnToHost s reg).params = s.params := rfl
@[simp] theorem returnToHost_cfg (s : State) (reg : Reg) : (returnToHost s reg).cfg = s.cfg := rfl
@[simp] theorem returnToHost_dims (s : State) (reg : Reg) : (returnToHost s reg).dims = s.dims := rfl
@[simp] theorem returnToHost_status (s : State) (reg : Reg) : (returnToHost s reg).status = s.status := rfl
@[simp] theorem returnToHost_outLen (s : State) (reg : Reg) : (returnToHost s reg).outLen = s.outLen := rfl
@[simp] theorem returnToHost_geom (s : State) (reg : Reg) : (returnToHost s reg).geom = s.geom := rfl
@[simp] theorem returnToHost_eng (s : State) (reg : Reg) : (returnToHost s reg).eng = s.eng := rfl
@[simp] theorem returnToHost_out (s : State) (reg : Reg) : (returnToHost s reg).out = s.out := rfl
@[simp] theorem returnToHost_img (s : State) (reg : Reg) : (returnToHost s reg).img = s.img := rfl
@[simp] theorem returnToHost_imgDirty (s : State) (reg : Reg) : (returnToHost s reg).imgDirty = s.imgDirty := rfl
@[simp] theorem returnToHost_outDirty (s : State) (reg : Reg) : (returnToHost s reg).outDirty = s.outDirty := rfl
@[simp] theorem returnToHost_host (s : State) (reg : Reg) :
    (returnToHost s reg).host = { s.host with reads := ⟨reg, regRead s reg⟩ :: s.host.reads } := rfl
@[simp] theorem returnToHost_events (s : State) (reg : Reg) : (returnToHost s reg).events = s.events := rfl
@[simp] theorem returnToHost_draws (s : State) (reg : Reg) : (returnToHost s reg).draws = s.draws := rfl
@[simp] theorem returnToHost_hostTurns (s : State) (reg : Reg) : (returnToHost s reg).hostTurns = s.hostTurns := rfl

/-! ### hostNext -/

@[simp] theorem hostNext_params (s : State) : (hostNext s).params = s.params := rfl
@[simp] theorem hostNext_cfg (s : State) : (hostNext s).cfg = s.cfg := rfl
@[simp] theorem hostNext_dims (s : State) : (hostNext s).dims = s.dims := rfl
@[simp] theorem hostNext_status (s : State) : (hostNext s).status = s.status := rfl
@[simp] theorem hostNext_outLen (s : State) : (hostNext s).outLen = s.outLen := rfl
@[simp] theorem hostNext_geom (s : State) : (hostNext s).geom = s.geom := rfl
@[simp] theorem hostNext_eng (s : State) : (hostNext s).eng = s.eng := rfl
@[simp] theorem hostNext_out (s : State) : (hostNext s).out = s.out := rfl
@[simp] theorem hostNext_img (s : State) : (hostNext s).img = s.img := rfl
@[simp] theorem hostNext_imgDirty (s : State) : (hostNext s).imgDirty = s.imgDirty := rfl
@[simp] theorem hostNext_outDirty (s : State) : (hostNext s).outDirty = s.outDirty := rfl
@[simp] theorem hostNext_host (s : State) : (hostNext s).host = { s.host with pc := s.host.pc + 1 } := rfl
@[simp] theorem hostNext_events (s : State) : (hostNext s).events = s.events := rfl
@[simp] theorem hostNext_draws (s : State) : (hostNext s).draws = s.draws := rfl
@[simp] theorem hostNext_hostTurns (s : State) : (hostNext s).hostTurns = s.hostTurns := rfl

/-! ### hostGoto -/

@[simp] theorem hostGoto_params (target : Nat) (s : State) : (hostGoto target s).params = s.params := rfl
@[simp] theorem hostGoto_cfg (target : Nat) (s : State) : (hostGoto target s).cfg = s.cfg := rfl
@[simp] theorem hostGoto_dims (target : Nat) (s : State) : (hostGoto target s).dims = s.dims := rfl
@[simp] theorem hostGoto_status (target : Nat) (s : State) : (hostGoto target s).status = s.status := rfl
@[simp] theorem hostGoto_outLen (target : Nat) (s : State) : (hostGoto target s).outLen = s.outLen := rfl
@[simp] theorem hostGoto_geom (target : Nat) (s : State) : (hostGoto target s).geom = s.geom := rfl
@[simp] theorem hostGoto_eng (target : Nat) (s : State) : (hostGoto target s).eng = s.eng := rfl
@[simp] theorem hostGoto_out (target : Nat) (s : State) : (hostGoto target s).out = s.out := rfl
@[simp] theorem hostGoto_img (target : Nat) (s : State) : (hostGoto target s).img = s.img := rfl
@[simp] theorem hostGoto_imgDirty (target : Nat) (s : State) : (hostGoto target s).imgDirty = s.imgDirty := rfl
@[simp] theorem hostGoto_outDirty (target : Nat) (s : State) : (hostGoto target s).outDirty = s.outDirty := rfl
@[simp] theorem hostGoto_host (target : Nat) (s : State) :
    (hostGoto target s).host = { s.host with pc := target } := rfl
@[simp] theorem hostGoto_events (target : Nat) (s : State) : (hostGoto target s).events = s.events := rfl
@[simp] theorem hostGoto_draws (target : Nat) (s : State) : (hostGoto target s).draws = s.draws := rfl
@[simp] theorem hostGoto_hostTurns (target : Nat) (s : State) : (hostGoto target s).hostTurns = s.hostTurns := rfl

/-! ### setPixel -/

@[simp] theorem setPixel_params (x y : BitVec 16) (w : Word64) (s : State) :
    (setPixel x y w s).params = s.params := rfl
@[simp] theorem setPixel_cfg (x y : BitVec 16) (w : Word64) (s : State) : (setPixel x y w s).cfg = s.cfg := rfl
@[simp] theorem setPixel_dims (x y : BitVec 16) (w : Word64) (s : State) : (setPixel x y w s).dims = s.dims := rfl
@[simp] theorem setPixel_status (x y : BitVec 16) (w : Word64) (s : State) :
    (setPixel x y w s).status = s.status := rfl
@[simp] theorem setPixel_outLen (x y : BitVec 16) (w : Word64) (s : State) :
    (setPixel x y w s).outLen = s.outLen := rfl
@[simp] theorem setPixel_geom (x y : BitVec 16) (w : Word64) (s : State) : (setPixel x y w s).geom = s.geom := rfl
@[simp] theorem setPixel_eng (x y : BitVec 16) (w : Word64) (s : State) : (setPixel x y w s).eng = s.eng := rfl
@[simp] theorem setPixel_out (x y : BitVec 16) (w : Word64) (s : State) : (setPixel x y w s).out = s.out := rfl
@[simp] theorem setPixel_img (x y : BitVec 16) (w : Word64) (s : State) :
    (setPixel x y w s).img = Memory.write s.img (pixelKey x y) w := rfl
@[simp] theorem setPixel_imgDirty (x y : BitVec 16) (w : Word64) (s : State) :
    (setPixel x y w s).imgDirty =
      (s.imgDirty || (isBusy s && decide (x < s.dims.width) && decide (y < s.dims.height))) := rfl
@[simp] theorem setPixel_outDirty (x y : BitVec 16) (w : Word64) (s : State) :
    (setPixel x y w s).outDirty = s.outDirty := rfl
@[simp] theorem setPixel_host (x y : BitVec 16) (w : Word64) (s : State) : (setPixel x y w s).host = s.host := rfl
@[simp] theorem setPixel_events (x y : BitVec 16) (w : Word64) (s : State) :
    (setPixel x y w s).events = s.events := rfl
@[simp] theorem setPixel_draws (x y : BitVec 16) (w : Word64) (s : State) : (setPixel x y w s).draws = s.draws := rfl
@[simp] theorem setPixel_hostTurns (x y : BitVec 16) (w : Word64) (s : State) :
    (setPixel x y w s).hostTurns = s.hostTurns := rfl

/-! ### settleOut -/

@[simp] theorem settleOut_params (s : State) : (settleOut s).params = s.params := rfl
@[simp] theorem settleOut_cfg (s : State) : (settleOut s).cfg = s.cfg := rfl
@[simp] theorem settleOut_dims (s : State) : (settleOut s).dims = s.dims := rfl
@[simp] theorem settleOut_status (s : State) : (settleOut s).status = s.status := rfl
@[simp] theorem settleOut_outLen (s : State) : (settleOut s).outLen = s.outLen := rfl
@[simp] theorem settleOut_geom (s : State) : (settleOut s).geom = s.geom := rfl
@[simp] theorem settleOut_eng (s : State) : (settleOut s).eng = s.eng := rfl
@[simp] theorem settleOut_out (s : State) : (settleOut s).out = Memory.eraseAll s.out s.outDirty := rfl
@[simp] theorem settleOut_img (s : State) : (settleOut s).img = s.img := rfl
@[simp] theorem settleOut_imgDirty (s : State) : (settleOut s).imgDirty = s.imgDirty := rfl
@[simp] theorem settleOut_outDirty (s : State) : (settleOut s).outDirty = [] := rfl
@[simp] theorem settleOut_host (s : State) : (settleOut s).host = s.host := rfl
@[simp] theorem settleOut_events (s : State) : (settleOut s).events = s.events := rfl
@[simp] theorem settleOut_draws (s : State) : (settleOut s).draws = s.draws := rfl
@[simp] theorem settleOut_hostTurns (s : State) : (settleOut s).hostTurns = s.hostTurns := rfl

/-! ### raiseError -/

@[simp] theorem raiseError_params (code : ErrCode) (b : Bool) (s : State) :
    (raiseError code b s).params = s.params := rfl
@[simp] theorem raiseError_cfg (code : ErrCode) (b : Bool) (s : State) : (raiseError code b s).cfg = s.cfg := rfl
@[simp] theorem raiseError_dims (code : ErrCode) (b : Bool) (s : State) : (raiseError code b s).dims = s.dims := rfl
@[simp] theorem raiseError_status (code : ErrCode) (b : Bool) (s : State) :
    (raiseError code b s).status = ⟨.error, code⟩ := rfl
@[simp] theorem raiseError_outLen (code : ErrCode) (b : Bool) (s : State) :
    (raiseError code b s).outLen = if b then ⟨0, 0⟩ else s.outLen := rfl
@[simp] theorem raiseError_geom (code : ErrCode) (b : Bool) (s : State) :
    (raiseError code b s).geom = if b then ⟨0, 0⟩ else s.geom := rfl
@[simp] theorem raiseError_eng (code : ErrCode) (b : Bool) (s : State) :
    (raiseError code b s).eng = if b then ⟨0, seqNone, 0, 0, 0, 0⟩ else { s.eng with r := 0, seq := seqNone } := rfl
@[simp] theorem raiseError_out (code : ErrCode) (b : Bool) (s : State) : (raiseError code b s).out = s.out := rfl
@[simp] theorem raiseError_img (code : ErrCode) (b : Bool) (s : State) : (raiseError code b s).img = s.img := rfl
@[simp] theorem raiseError_imgDirty (code : ErrCode) (b : Bool) (s : State) :
    (raiseError code b s).imgDirty = s.imgDirty := rfl
@[simp] theorem raiseError_outDirty (code : ErrCode) (b : Bool) (s : State) :
    (raiseError code b s).outDirty = s.outDirty := rfl
@[simp] theorem raiseError_host (code : ErrCode) (b : Bool) (s : State) : (raiseError code b s).host = s.host := rfl
@[simp] theorem raiseError_events (code : ErrCode) (b : Bool) (s : State) :
    (raiseError code b s).events = s.events := rfl
@[simp] theorem raiseError_draws (code : ErrCode) (b : Bool) (s : State) : (raiseError code b s).draws = s.draws := rfl
@[simp] theorem raiseError_hostTurns (code : ErrCode) (b : Bool) (s : State) :
    (raiseError code b s).hostTurns = s.hostTurns := rfl

/-! ### resetCore -/

@[simp] theorem resetCore_params (s : State) : (resetCore s).params = s.params := rfl
@[simp] theorem resetCore_cfg (s : State) : (resetCore s).cfg = ⟨4, 8, .rowMajor, false⟩ := rfl
@[simp] theorem resetCore_dims (s : State) : (resetCore s).dims = ⟨0, 0⟩ := rfl
@[simp] theorem resetCore_status (s : State) : (resetCore s).status = ⟨.idle, .none⟩ := rfl
@[simp] theorem resetCore_outLen (s : State) : (resetCore s).outLen = ⟨0, 0⟩ := rfl
@[simp] theorem resetCore_geom (s : State) : (resetCore s).geom = ⟨0, 0⟩ := rfl
@[simp] theorem resetCore_eng (s : State) : (resetCore s).eng = ⟨0, 0, 0, 0, 0, 0⟩ := rfl
@[simp] theorem resetCore_out (s : State) : (resetCore s).out = [] := rfl
@[simp] theorem resetCore_img (s : State) : (resetCore s).img = s.img := rfl
@[simp] theorem resetCore_imgDirty (s : State) : (resetCore s).imgDirty = false := rfl
@[simp] theorem resetCore_outDirty (s : State) : (resetCore s).outDirty = [] := rfl
@[simp] theorem resetCore_host (s : State) : (resetCore s).host = { s.host with seenDone := false } := rfl
@[simp] theorem resetCore_events (s : State) : (resetCore s).events = s.events := rfl
@[simp] theorem resetCore_draws (s : State) : (resetCore s).draws = s.draws := rfl
@[simp] theorem resetCore_hostTurns (s : State) : (resetCore s).hostTurns = s.hostTurns := rfl

/-! ### acceptStart -/

@[simp] theorem acceptStart_params (s : State) : (acceptStart s).params = s.params := rfl
@[simp] theorem acceptStart_cfg (s : State) : (acceptStart s).cfg = s.cfg := rfl
@[simp] theorem acceptStart_dims (s : State) : (acceptStart s).dims = s.dims := rfl
@[simp] theorem acceptStart_status (s : State) :
    (acceptStart s).status = ⟨if outputLength s.cfg s.dims = 0 then .done else .busy, .none⟩ := rfl
@[simp] theorem acceptStart_outLen (s : State) :
    (acceptStart s).outLen =
      ⟨BitVec.ofNat 32 (outputLength s.cfg s.dims), BitVec.ofNat 32 (outputLength s.cfg s.dims >>> 32)⟩ := rfl
@[simp] theorem acceptStart_geom (s : State) :
    (acceptStart s).geom = ⟨BitVec.ofNat 7 (pixelsPerBlock s.cfg), BitVec.ofNat 4 (bytesPerBlock s.cfg)⟩ := rfl
@[simp] theorem acceptStart_eng (s : State) :
    (acceptStart s).eng = ⟨0, if outputLength s.cfg s.dims = 0 then seqNone else seqSlot, 0, 0, 0, 0⟩ := rfl
@[simp] theorem acceptStart_out (s : State) : (acceptStart s).out = s.out := rfl
@[simp] theorem acceptStart_img (s : State) : (acceptStart s).img = s.img := rfl
@[simp] theorem acceptStart_imgDirty (s : State) : (acceptStart s).imgDirty = false := rfl
@[simp] theorem acceptStart_outDirty (s : State) : (acceptStart s).outDirty = [] := rfl
@[simp] theorem acceptStart_host (s : State) : (acceptStart s).host = { s.host with seenDone := false } := rfl
@[simp] theorem acceptStart_events (s : State) : (acceptStart s).events = s.events := rfl
@[simp] theorem acceptStart_draws (s : State) : (acceptStart s).draws = s.draws := rfl
@[simp] theorem acceptStart_hostTurns (s : State) : (acceptStart s).hostTurns = s.hostTurns := rfl

end Sys2Proof.Machine
end

