-- ==== Sys2Proof/Laws/Ops.lean ====
section
/-! SUPPORT. One lemma per shared operation that says once everything it can do, and the ways one step can go. -/

namespace Sys2Proof.Machine

/-! ### The image and the free values -/

/-- SampleRead with the image unchanged in the pass: the sample, and nothing else happens. -/
theorem sampleRead_clean {s : State} (h : s.imgDirty = false) (x y : BitVec 16) :
    sampleRead s x y = (imgAt s x y, s) := by
  simp [sampleRead, h]

/-- SampleRead after the host has changed the image in the pass: a draw. -/
theorem sampleRead_dirty {s : State} (h : s.imgDirty = true) (x y : BitVec 16) :
    sampleRead s x y = (Config.freeSample s.draws, { s with draws := s.draws + 1 }) := by
  simp [sampleRead, h]

/-- SampleRead changes no more than the count of draws. -/
theorem sampleRead_state (s : State) (x y : BitVec 16) : ∃ d, (sampleRead s x y).2 = { s with draws := d } := by
  unfold sampleRead
  split
  · exact ⟨s.draws + 1, rfl⟩
  · exact ⟨s.draws, rfl⟩

/-- Reading a slot's value changes no more than the count of draws. -/
theorem slotRead_state (s : State) : ∃ d, (slotRead s).2 = { s with draws := d } := by
  unfold slotRead
  split
  · exact sampleRead_state s _ _
  · exact ⟨s.draws, rfl⟩

/-- With the image unchanged in the pass, the value read is the slot's value of the closed form, and nothing else
happens. -/
theorem slotRead_clean {s : State} (h : s.imgDirty = false) :
    slotRead s = (slotValue s s.eng.o.toNat s.eng.j.toNat s.eng.k.toNat, s) := by
  unfold slotRead slotValue
  split
  · simp [sampleRead_clean h]
  · rfl

/-! ### Reads of the host -/

/-- Noting DONE changes no more than what the host has seen. -/
theorem noteDone_eq (s : State) :
    noteDone s = { s with host.seenDone := s.host.seenDone || decide (s.status.state = .done) } := by
  unfold noteDone
  split
  · next h => simp [h]
  · next h => simp [h]

/-- A host read of OUT before DONE was seen is a draw. -/
theorem outByteSeen_unseen {s : State} (h : s.host.seenDone = false) (i : Nat) : outByteSeen s i = drawByte s := by
  simp [outByteSeen, h]

/-- Once DONE was seen, a host read of a byte that holds a value returns it, and nothing else happens. -/
theorem outByteSeen_some {s : State} {i : Nat} {b : Byte} (h : s.host.seenDone = true)
    (hb : Memory.read s.out i = some b) : outByteSeen s i = (b, s) := by
  simp [outByteSeen, h, hb]

/-- Once DONE was seen, a host read of a byte that holds no value is a draw. -/
theorem outByteSeen_none {s : State} {i : Nat} (h : s.host.seenDone = true) (hb : Memory.read s.out i = none) :
    outByteSeen s i = drawByte s := by
  simp [outByteSeen, h, hb]

/-! ### The assembler -/

/-- A line becomes as many steps of the program as its size says. -/
@[simp] theorem expand_length (find : Nat → Nat) (pos : Nat) (op : AsmOp) :
    (op.expand find pos).length = op.size := by
  cases op <;> rfl

/-- The size of a line: two for `poll` and `readlen`, else one (30_encoding.md R81). -/
theorem AsmOp_size_eq (op : AsmOp) : op.size = if op = .poll ∨ op = .readlen then 2 else 1 := by
  cases op <;> rfl

/-! ### START -/

/-- What START can do: nothing while BUSY, refuse with the code of VALIDATE, or accept. -/
theorem startPass_cases (s : State) :
    (s.status.state = .busy ∧ startPass s = s) ∨
    (s.status.state ≠ .busy ∧ validate s ≠ .none ∧ startPass s = raiseError (validate s) true s) ∨
    (s.status.state ≠ .busy ∧ validate s = .none ∧ startPass s = acceptStart s) := by
  unfold startPass isBusy
  by_cases hb : s.status.state = .busy
  · simp [hb]
  · cases hv : validate s <;> simp [hb]

/-- When VALIDATE passes: the legal configurations (10_state.md R24), a length that fits, and no negative shift. -/
theorem validate_none {s : State} (h : validate s = .none) :
    1 ≤ depthOf s.cfg ∧ depthOf s.cfg ≤ blockBitsOf s.cfg ∧ blockBitsOf s.cfg ≤ 64 ∧
    outputLength s.cfg s.dims ≤ s.params.outCap.toNat ∧
    (s.params.shiftPolicy = .sourceObserved → 0 < outputLength s.cfg s.dims → pixelsPerBlock s.cfg < 3) := by
  unfold validate at h
  split at h
  · cases h
  split at h
  · cases h
  split at h
  · cases h
  split at h
  · cases h
  split at h
  · cases h
  split at h
  · cases h
  next h6 =>
  refine ⟨by omega, by omega, by omega, by omega, fun hp hl => ?_⟩
  by_contra hc
  exact h6 ⟨hl, by omega, hp⟩

/-! ### The engine -/

/-- The slot just processed: everything but the engine and the count of draws stays. -/
theorem processSlot_eq (s : State) :
    ∃ d, processSlot s = { s with
      draws := d
      eng := engineAfterSlot s.eng (pixelsPerBlock s.cfg) (field s.params s.cfg (slotRead s).1 s.eng.k.toNat) } := by
  obtain ⟨d, hd⟩ := slotRead_state s
  exact ⟨d, by simp only [processSlot, hd]⟩

/-- What ENG_FLUSH can do: the defensive BOUNDS error, the last block, or a block before it. -/
theorem flushBlock_cases (s : State) :
    (flushOutside s = true ∧ flushBlock s = settleOut (raiseError .bounds false s)) ∨
    (flushOutside s = false ∧ (engineAfterFlush s).o.toNat = lineCount s.cfg s.dims ∧
      flushBlock s = settleOut { s with
        out := outAfterFlush s
        eng := { engineAfterFlush s with seq := seqNone }
        status.state := .done }) ∨
    (flushOutside s = false ∧ (engineAfterFlush s).o.toNat ≠ lineCount s.cfg s.dims ∧
      flushBlock s = { s with out := outAfterFlush s, eng := { engineAfterFlush s with seq := seqSlot } }) := by
  unfold flushBlock
  cases hf : flushOutside s
  · by_cases hl : (engineAfterFlush s).o.toNat = lineCount s.cfg s.dims <;> simp [hl]
  · simp

/-- A serialized block has as many bytes as asked for. -/
@[simp] theorem serialize_length (r : Word64) (count : Nat) : (serialize r count).length = count := by
  simp [serialize]

/-- Byte `i` of a serialized block. -/
theorem serialize_getElem? (r : Word64) {count i : Nat} (h : i < count) :
    (serialize r count)[i]? = some (r.extractLsb' (8 * i) 8) := by
  simp [serialize, h]

/-! ### One step -/

/-- Every instruction answers a next state. -/
theorem exec_next (i : Instr) (s : State) : ∃ t, exec i s = .next t := by
  cases i <;> exact ⟨_, rfl⟩

/-- What the host's turn can come to. -/
theorem hostTurn_cases (s : State) :
    (∃ t, hostFetch s = some (.txn t) ∧ hostTurn s = (.run (decodeHost t), hostNext s)) ∨
    (∃ target, hostFetch s = some (.jbusy target) ∧ lastStatusBusy s.host.reads = true ∧
      hostTurn s = (.settled, hostGoto target s)) ∨
    (∃ target, hostFetch s = some (.jbusy target) ∧ lastStatusBusy s.host.reads = false ∧
      hostTurn s = (.settled, hostNext s)) ∨
    ((hostFetch s = some .halt ∨ hostFetch s = none) ∧ hostTurn s = (.settled, s)) := by
  unfold hostTurn
  split
  · next t h => exact .inl ⟨t, h, rfl⟩
  · next target h =>
    cases hb : lastStatusBusy s.host.reads
    · exact .inr (.inr (.inl ⟨target, h, rfl, by simp⟩))
    · exact .inr (.inl ⟨target, h, rfl, by simp⟩)
  · next h => exact .inr (.inr (.inr ⟨.inl h, rfl⟩))
  · next h => exact .inr (.inr (.inr ⟨.inr h, rfl⟩))

/-- When the engine has a micro-operation, and which. -/
theorem engineFetch_eq_some {s : State} {i : Instr} (h : engineFetch s = some i) :
    s.status.state = .busy ∧ ((s.eng.seq = seqSlot ∧ i = .engSlot) ∨ (s.eng.seq = seqFlush ∧ i = .engFlush)) := by
  unfold engineFetch isBusy at h
  split at h
  · next hb =>
    refine ⟨by simpa using hb, ?_⟩
    generalize s.eng.seq = q at h ⊢
    revert h
    revert q
    have : ∀ q : Seq, (match decodeEngine q with | .ok i => some i | .error _ => none) = some i →
        (q = seqSlot ∧ i = .engSlot) ∨ (q = seqFlush ∧ i = .engFlush) := by
      intro q hq
      match q, hq with
      | 0, hq => cases hq
      | 1, hq => cases hq; exact .inl ⟨rfl, rfl⟩
      | 2, hq => cases hq; exact .inr ⟨rfl, rfl⟩
      | 3, hq => cases hq
    exact this
  · cases h

/-- What the engine's turn can come to. -/
theorem engineTurn_cases (s : State) :
    (∃ i, engineFetch s = some i ∧ engineTurn s = (.run i, s)) ∨
    (engineFetch s = none ∧ engineTurn s = (.settled, s)) := by
  unfold engineTurn
  cases h : engineFetch s with
  | none => exact .inr ⟨rfl, rfl⟩
  | some i => exact .inl ⟨i, rfl, rfl⟩

/-- What a contested turn can come to: the host's, with one turn fewer left to it, or the engine's. -/
theorem contestedTurn_cases (count : Nat) (s : State) :
    (count = 0 ∧ contestedTurn count s = engineTurn { s with hostTurns := none }) ∨
    (∃ left, count = left + 1 ∧ contestedTurn count s = hostTurn { s with hostTurns := some left }) := by
  cases count with
  | zero => exact .inl ⟨rfl, rfl⟩
  | succ left => exact .inr ⟨left, rfl, rfl⟩

/-- What a turn with nothing scheduled can come to: the turn of one agent that can move, with the host's turns and the
draws counted, or nothing where neither can. -/
theorem freeAction_cases (s : State) :
    (engineEnabled s = true ∧ ∃ d w, freeAction s = engineTurn { s with draws := d, hostTurns := w }) ∨
    (hostEnabled s = true ∧ ∃ d w, freeAction s = hostTurn { s with draws := d, hostTurns := w }) ∨
    (engineEnabled s = false ∧ hostEnabled s = false ∧ freeAction s = (.settled, s)) := by
  unfold freeAction
  split
  · next he hh =>
    split
    · next count _ =>
      obtain ⟨_, h⟩ | ⟨left, _, h⟩ := contestedTurn_cases count s
      · exact .inl ⟨he, s.draws, none, h⟩
      · exact .inr (.inl ⟨hh, s.draws, some left, h⟩)
    · obtain ⟨_, h⟩ | ⟨left, _, h⟩ := contestedTurn_cases (Config.freeHostTurns s.draws) { s with draws := s.draws + 1 }
      · exact .inl ⟨he, s.draws + 1, none, h⟩
      · exact .inr (.inl ⟨hh, s.draws + 1, some left, h⟩)
  · next he _ => exact .inl ⟨he, s.draws, s.hostTurns, rfl⟩
  · next _ hh => exact .inr (.inl ⟨hh, s.draws, s.hostTurns, rfl⟩)
  · next he hh => exact .inr (.inr ⟨he, hh, rfl⟩)

/-- Where both agents can move and the host's turns are drawn, the turn is a contested one (70_reset_and_hazards.md
R240). -/
theorem freeAction_contested {s : State} {count : Nat} (he : engineEnabled s = true) (hh : hostEnabled s = true)
    (hw : s.hostTurns = some count) : freeAction s = contestedTurn count s := by
  simp [freeAction, he, hh, hw]

/-- The engine can step exactly where its fetch gives a micro-operation. -/
theorem engineEnabled_iff (s : State) : engineEnabled s = true ↔ ∃ i, engineFetch s = some i :=
  Option.isSome_iff_exists

/-- Where the engine can step, its turn is an engine step. -/
theorem engineTurn_of_enabled {s : State} (h : engineEnabled s = true) :
    ∃ i, engineTurn s = (.run i, s) ∧ isHostInstr i = false := by
  obtain ⟨i, hi⟩ := (engineEnabled_iff s).mp h
  refine ⟨i, by simp [engineTurn, hi], ?_⟩
  obtain ⟨_, ⟨_, rfl⟩ | ⟨_, rfl⟩⟩ := engineFetch_eq_some hi <;> rfl

/-- What one step can do, where it answers a next state: run an instruction over a prepared state, or come to the
prepared state itself. -/
theorem step_next_cases {s t : State} (h : step s = .next t) :
    (∃ i u, nextAction s = (.run i, u) ∧ exec i u = .next t) ∨ nextAction s = (.settled, t) := by
  unfold step at h
  split at h
  · next i u hu => exact .inl ⟨i, u, hu, h⟩
  · next u hu => cases h; exact .inr hu
  · cases h

/-! ### What does not depend on the schedule -/

/-- A state with another host and another schedule: the core is the same. -/
theorem packUpTo_reschedule (s : State) (h : HostAgent) (es : List Event) (w : Option Nat) (d o j : Nat) :
    ∀ m, packUpTo { s with host := h, events := es, hostTurns := w, draws := d } o j m = packUpTo s o j m
  | 0 => rfl
  | m + 1 => congrArg (· ||| field s.params s.cfg (slotValue s o j m) m) (packUpTo_reschedule s h es w d o j m)

/-- The invariant reads neither the schedule nor the draws, and of the host only its note of DONE. -/
theorem Inv_reschedule {s : State} (hs : Inv s) (h : HostAgent) (es : List Event) (w : Option Nat) (d : Nat)
    (hn : h.seenDone = s.host.seenDone) :
    Inv { s with host := h, events := es, hostTurns := w, draws := d } where
  phaseIffBusy := hs.phaseIffBusy
  phaseNotUnused := hs.phaseNotUnused
  errIffError := hs.errIffError
  emptyOutsidePass := hs.emptyOutsidePass
  lengthHigh := hs.lengthHigh
  geometryRange := hs.geometryRange
  noOutput := hs.noOutput
  outWf := hs.outWf
  outInside := hs.outInside
  imgWf := hs.imgWf
  settled := hs.settled
  busy hb := {
    hs.busy hb with
    notSeen := hn.trans (hs.busy hb).notSeen
    blockRegister := fun hi => ((hs.busy hb).blockRegister hi).trans (packUpTo_reschedule s h es w d _ _ _).symm
    written := fun hi i hlt => ((hs.busy hb).written hi i hlt).trans
      (congrArg (fun r : Word64 => some (r.extractLsb' (8 * (i % bytesPerBlock s.cfg)) 8))
        (packUpTo_reschedule s h es w d _ _ _).symm) }

end Sys2Proof.Machine
end

