-- ==== Sys2Proof/Laws/PerInstr.lean ====
section
/-! SUPPORT. Per instruction: its encoding lies in its own row of the opcode map (spec 30_encoding.md R72, R73). -/

namespace Sys2Proof.Laws

/-- Masking a HOST word with the mask of a whole register's row clears its DATA. -/
theorem txnOf_and_mask (we : Bool) (reg : BitVec 3) (data : Word32) :
    txnOf we reg data &&& 0xF00000000 = txnOf we reg 0 := by
  apply BitVec.eq_of_getLsbD_eq
  intro i hi
  simp only [txnOf, BitVec.getLsbD_and, BitVec.getLsbD_append]
  interval_cases i <;> simp

/-- The word of an instruction selects the row of the instruction's name: a HOST row by match and mask, an ENGINE row by
its selector. -/
def EncodedInOwnRow.Statement (i : Instr) : Prop :=
  match encode i with
  | .host t => ∃ row ∈ hostRows, row.name = mnemonic i ∧ row.selects t
  | .engine seq => (mnemonic i = "ENG_SLOT" ∧ seq &&& 3 = 1) ∨ (mnemonic i = "ENG_FLUSH" ∧ seq &&& 3 = 2)

theorem EncodedInOwnRow.start : EncodedInOwnRow.Statement .start :=
  ⟨⟨"START", 0x800000001, 0xF00000001⟩, by decide, rfl, by unfold HostRow.selects; decide⟩

theorem EncodedInOwnRow.wrCtrlNop : EncodedInOwnRow.Statement .wrCtrlNop :=
  ⟨⟨"WR_CTRL_NOP", 0x800000000, 0xF00000001⟩, by decide, rfl, by unfold HostRow.selects; decide⟩

theorem EncodedInOwnRow.wrCfg (d b : BitVec 7) (scan : Scan) (inv : Bool) : EncodedInOwnRow.Statement (.wrCfg d b scan inv) :=
  ⟨⟨"WR_CFG", 0x900000000, 0xF00000000⟩, by decide, rfl, (txnOf_and_mask _ _ _).trans (by decide)⟩

theorem EncodedInOwnRow.wrDims (w h : BitVec 16) : EncodedInOwnRow.Statement (.wrDims w h) :=
  ⟨⟨"WR_DIMS", 0xA00000000, 0xF00000000⟩, by decide, rfl, (txnOf_and_mask _ _ _).trans (by decide)⟩

theorem EncodedInOwnRow.wrStatus : EncodedInOwnRow.Statement .wrStatus :=
  ⟨⟨"WR_STATUS", 0xB00000000, 0xF00000000⟩, by decide, rfl, by unfold HostRow.selects; decide⟩

theorem EncodedInOwnRow.wrOutLenLo : EncodedInOwnRow.Statement .wrOutLenLo :=
  ⟨⟨"WR_OUT_LEN_LO", 0xC00000000, 0xF00000000⟩, by decide, rfl, by unfold HostRow.selects; decide⟩

theorem EncodedInOwnRow.wrOutLenHi : EncodedInOwnRow.Statement .wrOutLenHi :=
  ⟨⟨"WR_OUT_LEN_HI", 0xD00000000, 0xF00000000⟩, by decide, rfl, by unfold HostRow.selects; decide⟩

theorem EncodedInOwnRow.wrGeom : EncodedInOwnRow.Statement .wrGeom :=
  ⟨⟨"WR_GEOM", 0xE00000000, 0xF00000000⟩, by decide, rfl, by unfold HostRow.selects; decide⟩

theorem EncodedInOwnRow.wrRsvd7 : EncodedInOwnRow.Statement .wrRsvd7 :=
  ⟨⟨"WR_RSVD7", 0xF00000000, 0xF00000000⟩, by decide, rfl, by unfold HostRow.selects; decide⟩

theorem EncodedInOwnRow.rdCtrl : EncodedInOwnRow.Statement .rdCtrl :=
  ⟨⟨"RD_CTRL", 0x000000000, 0xF00000000⟩, by decide, rfl, by unfold HostRow.selects; decide⟩

theorem EncodedInOwnRow.rdCfg : EncodedInOwnRow.Statement .rdCfg :=
  ⟨⟨"RD_CFG", 0x100000000, 0xF00000000⟩, by decide, rfl, by unfold HostRow.selects; decide⟩

theorem EncodedInOwnRow.rdDims : EncodedInOwnRow.Statement .rdDims :=
  ⟨⟨"RD_DIMS", 0x200000000, 0xF00000000⟩, by decide, rfl, by unfold HostRow.selects; decide⟩

theorem EncodedInOwnRow.rdStatus : EncodedInOwnRow.Statement .rdStatus :=
  ⟨⟨"RD_STATUS", 0x300000000, 0xF00000000⟩, by decide, rfl, by unfold HostRow.selects; decide⟩

theorem EncodedInOwnRow.rdOutLenLo : EncodedInOwnRow.Statement .rdOutLenLo :=
  ⟨⟨"RD_OUT_LEN_LO", 0x400000000, 0xF00000000⟩, by decide, rfl, by unfold HostRow.selects; decide⟩

theorem EncodedInOwnRow.rdOutLenHi : EncodedInOwnRow.Statement .rdOutLenHi :=
  ⟨⟨"RD_OUT_LEN_HI", 0x500000000, 0xF00000000⟩, by decide, rfl, by unfold HostRow.selects; decide⟩

theorem EncodedInOwnRow.rdGeom : EncodedInOwnRow.Statement .rdGeom :=
  ⟨⟨"RD_GEOM", 0x600000000, 0xF00000000⟩, by decide, rfl, by unfold HostRow.selects; decide⟩

theorem EncodedInOwnRow.rdRsvd7 : EncodedInOwnRow.Statement .rdRsvd7 :=
  ⟨⟨"RD_RSVD7", 0x700000000, 0xF00000000⟩, by decide, rfl, by unfold HostRow.selects; decide⟩

theorem EncodedInOwnRow.engSlot : EncodedInOwnRow.Statement .engSlot :=
  .inl ⟨rfl, by decide⟩

theorem EncodedInOwnRow.engFlush : EncodedInOwnRow.Statement .engFlush :=
  .inr ⟨rfl, by decide⟩

end Sys2Proof.Laws
end

