-- ==== Sys2Proof/Tests/Slice0.lean ====
section
/-! SUPPORT. The model's own tests. Expected values come from the spec: its tables, its worked examples and the vectors of
95_test_vectors.md, named at each test. The witnesses at the end meet the hypotheses of the statements. -/

namespace Sys2Proof.Tests

open Sys2Proof.Machine

/-! ### Decoding: each row's word written out as WE, REG (30_encoding.md R71, R72) and DATA -/

theorem test_decode_start : decodeHost (1#1 ++ 0b000#3 ++ 0x00000001#32) = .start := by decide
theorem test_decode_wrCtrlNop : decodeHost (1#1 ++ 0b000#3 ++ 0xFFFFFFFE#32) = .wrCtrlNop := by decide
theorem test_decode_wrCfg : decodeHost (1#1 ++ 0b001#3 ++ 0xFFFF7F7F#32) = .wrCfg 127 127 .columnMajor true := by decide
theorem test_decode_wrDims : decodeHost (1#1 ++ 0b010#3 ++ 0x00030002#32) = .wrDims 2 3 := by decide
theorem test_decode_wrStatus : decodeHost (1#1 ++ 0b011#3 ++ 0x000000FF#32) = .wrStatus := by decide
theorem test_decode_wrOutLenLo : decodeHost (1#1 ++ 0b100#3 ++ 0x00000005#32) = .wrOutLenLo := by decide
theorem test_decode_wrOutLenHi : decodeHost (1#1 ++ 0b101#3 ++ 0x00000001#32) = .wrOutLenHi := by decide
theorem test_decode_wrGeom : decodeHost (1#1 ++ 0b110#3 ++ 0x12345678#32) = .wrGeom := by decide
theorem test_decode_wrRsvd7 : decodeHost (1#1 ++ 0b111#3 ++ 0xFFFFFFFF#32) = .wrRsvd7 := by decide
theorem test_decode_rdCtrl : decodeHost (0#1 ++ 0b000#3 ++ 0x00000000#32) = .rdCtrl := by decide
theorem test_decode_rdCfg : decodeHost (0#1 ++ 0b001#3 ++ 0x00000000#32) = .rdCfg := by decide
theorem test_decode_rdDims : decodeHost (0#1 ++ 0b010#3 ++ 0x00000000#32) = .rdDims := by decide
theorem test_decode_rdStatus : decodeHost (0#1 ++ 0b011#3 ++ 0x00000000#32) = .rdStatus := by decide
theorem test_decode_rdOutLenLo : decodeHost (0#1 ++ 0b100#3 ++ 0x00000000#32) = .rdOutLenLo := by decide
theorem test_decode_rdOutLenHi : decodeHost (0#1 ++ 0b101#3 ++ 0xFFFFFFFF#32) = .rdOutLenHi := by decide
theorem test_decode_rdGeom : decodeHost (0#1 ++ 0b110#3 ++ 0x00000000#32) = .rdGeom := by decide
theorem test_decode_rdRsvd7 : decodeHost (0#1 ++ 0b111#3 ++ 0x00000000#32) = .rdRsvd7 := by decide

theorem test_decode_engSlot : decodeEngine 0b01#2 = .ok .engSlot := by decide
theorem test_decode_engFlush : decodeEngine 0b10#2 = .ok .engFlush := by decide
theorem test_decode_phase_none : decodeEngine 0b00#2 = .error .phaseNone := by decide
theorem test_decode_phase_unused : decodeEngine 0b11#2 = .error .phaseUnused := by decide

/-- 95_test_vectors.md P1, P2, P4: whole words. -/
theorem test_decode_program_words :
    decodeHost 0x900010802 = .wrCfg 2 8 .columnMajor false ∧ decodeHost 0x900020803 = .wrCfg 3 8 .rowMajor true ∧
    decodeHost 0xA00010004 = .wrDims 4 1 ∧ decodeHost 0x8FFFFFFFE = .wrCtrlNop := by decide

theorem test_table_word_host : decodeTableWord 40 0x900000804 = some (.wrCfg 4 8 .rowMajor false) := by decide
theorem test_table_word_engine : decodeTableWord 8 2 = some .engFlush := by decide
theorem test_table_word_too_wide : decodeTableWord 40 (2 ^ 36) = none ∧ decodeTableWord 8 5 = none := by decide

/-- No two rows of the map select one word (30_encoding.md R72). -/
theorem test_rows_disjoint :
    hostRows.Pairwise (fun a b => a.pattern &&& (a.mask &&& b.mask) ≠ b.pattern &&& (a.mask &&& b.mask)) := by decide

/-! ### Well-formedness: each check refuses an ill-formed term -/

theorem test_refuses_register_8 : asmWellFormed [⟨none, .rd (.number 8)⟩] = false := by decide
theorem test_refuses_register_8_written : asmWellFormed [⟨none, .wr (.number 8) 0⟩] = false := by decide
theorem test_refuses_wide_immediate : asmWellFormed [⟨none, .wr (.named .cfg) (2 ^ 32)⟩] = false := by decide
theorem test_refuses_wide_depth : asmWellFormed [⟨none, .cfg 128 8 .rowMajor false⟩] = false := by decide
theorem test_refuses_wide_block : asmWellFormed [⟨none, .cfg 4 128 .rowMajor false⟩] = false := by decide
theorem test_refuses_wide_width : asmWellFormed [⟨none, .dims 65536 1⟩] = false := by decide
theorem test_refuses_wide_height : asmWellFormed [⟨none, .dims 1 65536⟩] = false := by decide
theorem test_refuses_label_twice : asmWellFormed [⟨some 1, .nop⟩, ⟨some 1, .halt⟩] = false := by decide
theorem test_refuses_missing_label : asmWellFormed [⟨some 1, .jbusy 2⟩] = false := by decide

/-- Program P1 of 95_test_vectors.md, as its listing gives the words. -/
theorem test_assemble_P1 :
    assemble [⟨none, .wr (.named .cfg) 0x804⟩, ⟨none, .wr (.named .dims) 0x10002⟩, ⟨none, .start⟩,
      ⟨some 1, .rd (.named .status)⟩, ⟨none, .jbusy 1⟩, ⟨none, .readlen⟩, ⟨none, .rd (.number 6)⟩, ⟨none, .halt⟩] =
    some [.txn 0x900000804, .txn 0xA00010002, .txn 0x800000001, .txn 0x300000000, .jbusy 3, .txn 0x400000000,
      .txn 0x500000000, .txn 0x600000000, .halt] := by decide

/-! ### Small states -/

/-- A grey sample `g(c)` (95_test_vectors.md, conventions). -/
def grey (c : BitVec 16) : Word64 := 0xFFFF#16 ++ c ++ c ++ c

/-- IDLE, with the 2 x 1 white image of Scenario A (95_test_vectors.md S1) and 100 bytes of OUT. -/
def idleState : State := { State.reset with
  params := ⟨.msbFirstBlock, .zeroField, 100⟩
  dims := ⟨2, 1⟩
  img := [(0, grey 65535), (1, grey 65535)] }

/-- The same just after START. -/
def busyState : State := { idleState with
  status := ⟨.busy, .none⟩, outLen := ⟨1, 0⟩, geom := ⟨2, 1⟩, eng := ⟨0, 1, 0, 0, 0, 0⟩ }

/-- The same before its ENG_FLUSH. -/
def flushState : State := { busyState with eng := ⟨0xFF, 2, 0, 0, 1, 0⟩ }

/-- The same after it. -/
def doneState : State := { busyState with
  status := ⟨.done, .none⟩, eng := ⟨0, 0, 1, 0, 0, 1⟩, out := [(0, 0xFF)] }

/-- After a refused START (95_test_vectors.md E7). -/
def errorState : State := { idleState with cfg := ⟨9, 8, .rowMajor, false⟩, status := ⟨.error, .depthGtBlock⟩ }

/-- A configuration in an otherwise idle state. -/
def withCfg (depth blockBits : BitVec 7) (width height : BitVec 16) : State :=
  { idleState with cfg := ⟨depth, blockBits, .rowMajor, false⟩, dims := ⟨width, height⟩ }

/-- A view of the state after an instruction. -/
def after {α : Type} (i : Instr) (s : State) (view : State → α) : Option α := (nextState? (exec i s)).map view

/-- The host's turn with one transaction in its program, from a state. -/
def hostAt (op : HostOp) (s : State) : State :=
  { s with host := { s.host with prog := [op] }, events := [.host] }

/-! ### One step of each instruction -/

/-- 43_host_commands.md R180, worked example. -/
theorem test_start_accepted : after .start idleState
    (fun t => (regRead t .outLenLo, regRead t .outLenHi, regRead t .geom, regRead t .status, t.eng.seq)) =
    some (1, 0, 0x102, 1, 1) := by decide

/-- 95_test_vectors.md E8: BOUNDS. -/
theorem test_start_bounds : after .start { withCfg 4 8 3 1 with params := ⟨.msbFirstBlock, .zeroField, 1⟩ }
    (fun t => (regRead t .status, regRead t .outLenLo, regRead t .geom)) = some (0x53, 0, 0) := by decide

theorem test_wrCtrlNop : after .wrCtrlNop idleState (fun t => t == idleState) = some true := by decide

/-- 95_test_vectors.md H7. -/
theorem test_wrCfg : after (decodeHost 0x9FFFFFFFF) idleState (fun t => regRead t .cfg) = some 0x00037F7F := by decide

/-- 95_test_vectors.md H10. -/
theorem test_wrCfg_busy : after (decodeHost 0x900020803) busyState (fun t => regRead t .cfg) = some 0x804 := by decide

/-- 43_host_commands.md R183, worked example. -/
theorem test_wrDims : after (decodeHost 0xA00030002) idleState (fun t => (t.dims.width, t.dims.height)) =
    some (2, 3) := by decide
theorem test_wrDims_busy : after (decodeHost 0xA00030007) busyState (fun t => regRead t .dims) = some 0x00010002 := by
  decide

/-- 43_host_commands.md R184, worked example. -/
theorem test_wrStatus : after .wrStatus errorState (fun t => regRead t .status) = some 0x43 := by decide
theorem test_wrOutLenLo : after .wrOutLenLo doneState (fun t => regRead t .outLenLo) = some 1 := by decide
theorem test_wrOutLenHi : after .wrOutLenHi doneState (fun t => regRead t .outLenHi) = some 0 := by decide
theorem test_wrGeom : after .wrGeom doneState (fun t => regRead t .geom) = some 0x102 := by decide
theorem test_wrRsvd7 : after .wrRsvd7 doneState (fun t => t == doneState) = some true := by decide

theorem test_rdCtrl : after .rdCtrl busyState (fun t => t.host.reads) = some [⟨.ctrl, 0⟩] := by decide
theorem test_rdCfg : after .rdCfg State.reset (fun t => t.host.reads) = some [⟨.cfg, 0x804⟩] := by decide
theorem test_rdDims : after .rdDims idleState (fun t => t.host.reads) = some [⟨.dims, 0x10002⟩] := by decide

/-- 43_host_commands.md R192, worked example. -/
theorem test_rdStatus_error : after .rdStatus errorState (fun t => t.host.reads) = some [⟨.status, 0x43⟩] := by decide

/-- 95_test_vectors.md H13: a read does not clear DONE. -/
theorem test_rdStatus_done : after .rdStatus doneState (fun t => (t.host.reads, t.status.state, t.host.seenDone)) =
    some ([⟨.status, 2⟩], .done, true) := by decide
theorem test_rdOutLenLo : after .rdOutLenLo doneState (fun t => t.host.reads) = some [⟨.outLenLo, 1⟩] := by decide

/-- 43_host_commands.md R194, worked example. -/
theorem test_rdOutLenHi : after .rdOutLenHi { doneState with outLen := ⟨0xFFF00008, 7⟩ } (fun t => t.host.reads) =
    some [⟨.outLenHi, 7⟩] := by decide

/-- 43_host_commands.md R195, worked example. -/
theorem test_rdGeom : after .rdGeom { doneState with geom := ⟨3, 1⟩ } (fun t => t.host.reads) =
    some [⟨.geom, 0x103⟩] := by decide
theorem test_rdRsvd7 : after .rdRsvd7 busyState (fun t => t.host.reads) = some [⟨.rsvd7, 0⟩] := by decide

/-- 41_block_packer.md R129, worked example: slot 0 and slot 1 of Scenario A. -/
theorem test_engSlot : after .engSlot busyState (fun t => (t.eng.r, t.eng.k, t.eng.seq)) = some (0xF0, 1, 1) := by decide
theorem test_engSlot_last :
    after .engSlot { busyState with eng := ⟨0xF0, 1, 0, 0, 1, 0⟩ } (fun t => (t.eng.r, t.eng.k, t.eng.seq)) =
    some (0xFF, 1, 2) := by decide

/-- 42_serializer.md R161, worked example. -/
theorem test_engFlush : after .engFlush flushState (fun t => (t.out, t.eng, t.status.state)) =
    some ([(0, 0xFF)], ⟨0, 0, 1, 0, 0, 1⟩, .done) := by decide

/-- 95_test_vectors.md K2: the two bytes of R = 0xABC, least significant first. -/
theorem test_engFlush_two_bytes :
    after .engFlush { flushState with cfg := ⟨4, 12, .rowMajor, false⟩, dims := ⟨6, 1⟩, eng := ⟨0xABC, 2, 0, 0, 2, 0⟩ }
      (fun t => (t.out, t.eng, t.status.state)) =
    some ([(0, 0xBC), (1, 0x0A)], ⟨0, 1, 0, 1, 0, 2⟩, .busy) := by decide

/-! ### Datapath vectors -/

/-- 95_test_vectors.md Q10, Q14, Q18, Q32. -/
theorem test_quantize : quantize 1000 2000 3001 8 false = 7 ∧
    quantize 0xABCD 0xABCD 0xABCD 64 false = 12379739850550389709 ∧
    quantize 40000 40000 40000 49 false = 343602626640000 ∧ quantize 1 0 0 32 true = 0xFFFFFFFF := by decide

/-- 95_test_vectors.md K3: the fields 7, 0, 5 at d = 3, B = 8. -/
theorem test_field_truncated : fieldMsbFirst 3 8 7 0 = 0xE0 ∧ fieldMsbFirst 3 8 0 1 = 0 ∧ fieldMsbFirst 3 8 5 2 = 2 := by
  decide

/-- 95_test_vectors.md K19, K21: SOURCE_OBSERVED. -/
theorem test_field_source : fieldSourceObserved 5 1 0 ||| fieldSourceObserved 5 2 1 = 0x22 ∧
    fieldSourceObserved 8 255 0 = 0xFF00 ∧ fieldSourceObserved 64 1 0 = 0 := by decide

/-- 95_test_vectors.md K23: the pad value under BLACK_SAMPLE with INVERT = 1. -/
theorem test_pad_black : padValue ⟨.msbFirstBlock, .blackSample, 1⟩ ⟨4, 8, .rowMajor, true⟩ = 15 := by decide

/-- 95_test_vectors.md Z1, Z2, Z4, Z5. -/
theorem test_size_law : outputLength ⟨3, 8, .rowMajor, false⟩ ⟨10, 7⟩ = 28 ∧
    outputLength ⟨3, 8, .columnMajor, false⟩ ⟨10, 7⟩ = 30 ∧
    outputLength ⟨64, 64, .rowMajor, false⟩ ⟨65535, 65535⟩ = 0x7FFF00008 ∧
    outputLength ⟨1, 64, .columnMajor, false⟩ ⟨65535, 65535⟩ = 536862720 := by decide

/-- 95_test_vectors.md E1 to E7, E10, E11: the code of each. -/
theorem test_validate : validate (withCfg 0 8 1 1) = .depthZero ∧ validate (withCfg 4 0 1 1) = .blockZero ∧
    validate (withCfg 0 0 1 1) = .depthZero ∧ validate (withCfg 65 64 1 1) = .range ∧
    validate (withCfg 8 65 1 1) = .range ∧ validate (withCfg 70 65 1 1) = .range ∧
    validate (withCfg 9 8 1 1) = .depthGtBlock ∧
    validate { withCfg 2 8 1 1 with params := ⟨.sourceObserved, .zeroField, 100⟩ } = .negShift ∧
    validate { withCfg 2 8 0 1 with params := ⟨.sourceObserved, .zeroField, 100⟩ } = .none := by decide

/-- 95_test_vectors.md K12: ENCODE of the column-major image. -/
theorem test_encode_K12 : encodeImage { withCfg 2 8 2 3 with
      cfg := ⟨2, 8, .columnMajor, false⟩
      img := [(0, grey 0), (1, grey 21845), (65536, grey 43690), (65537, grey 65535), (131072, grey 65535),
        (131073, grey 21845)] } = [0x2C, 0x74] := by decide

/-! ### Where the next step runs an opcode-table word -/

theorem test_fetch_host : step (State.reset.withFetchWord 40 0x900010802) =
    exec (.wrCfg 2 8 .columnMajor false)
      { State.reset.withFetchWord 40 0x900010802 with events := [], host := ⟨[.txn 0x900010802], 1, [], false, []⟩ } := rfl

theorem test_fetch_engine : step (State.reset.withFetchWord 8 1) =
    exec .engSlot { State.reset.withFetchWord 8 1 with events := [] } := rfl

/-! ### Witnesses: concrete states and operands that meet the statements' hypotheses -/

theorem witness_engineMicroOp : (busyState.status.state = .busy ∧ busyState.eng.seq = 1) ∧
    (flushState.status.state = .busy ∧ flushState.eng.seq = 2) ∧
    (∃ s : State, s.status.state = .busy ∧ s.eng.seq = 3) ∧ (∃ s : State, s.status.state = .busy ∧ s.eng.seq = 0) ∧
    idleState.status.state ≠ .busy :=
  ⟨by decide, by decide, ⟨(busyState : State).withFetchWord 8 3, by decide⟩, ⟨busyState.withFetchWord 8 0, by decide⟩,
    by decide⟩

theorem witness_pseudo : (127 < 128 ∧ 0 < 128) ∧ 65535 < 65536 := by decide

theorem witness_configWrites : idleState.status.state ≠ .busy ∧ doneState.status.state ≠ .busy ∧
    errorState.status.state ≠ .busy ∧ busyState.status.state = .busy := by decide

theorem witness_ignoredWrites : (0xFFFFFFFE : Word32).getLsbD 0 = false := by decide

theorem witness_start : busyState.status.state = .busy ∧
    (errorState.status.state ≠ .busy ∧ validate errorState ≠ .none) ∧
    (idleState.status.state ≠ .busy ∧ validate idleState = .none ∧ outputLength idleState.cfg idleState.dims = 1) ∧
    (validate (withCfg 4 8 0 5) = .none ∧ outputLength (withCfg 4 8 0 5).cfg (withCfg 4 8 0 5).dims = 0) := by decide

/-- Each clause of VALIDATE at the edge of its range (E8 and E9 of 95_test_vectors.md for the capacity). -/
theorem witness_validate : validate (withCfg 0 8 1 1) = .depthZero ∧ validate (withCfg 1 0 1 1) = .blockZero ∧
    validate (withCfg 65 1 1 1) = .range ∧ validate (withCfg 1 65 1 1) = .range ∧
    validate (withCfg 64 63 1 1) = .depthGtBlock ∧ validate (withCfg 64 64 1 1) = .none ∧
    validate { withCfg 4 8 3 1 with params := ⟨.msbFirstBlock, .zeroField, 1⟩ } = .bounds ∧
    validate { withCfg 4 8 3 1 with params := ⟨.msbFirstBlock, .zeroField, 2⟩ } = .none ∧
    validate { withCfg 3 8 3 1 with params := ⟨.sourceObserved, .zeroField, 1⟩ } = .negShift ∧
    validate { withCfg 4 8 2 1 with params := ⟨.sourceObserved, .zeroField, 1⟩ } = .none := by decide

theorem witness_sizeLaw : validate { idleState with cfg := ⟨4, 8, .columnMajor, false⟩ } = .none ∧
    idleState.status.state ≠ .busy ∧ idleState.cfg.scan = .rowMajor ∧ (withCfg 4 8 0 5).dims.width = 0 ∧
    validate (withCfg 4 8 5 0) = .none ∧ (withCfg 4 8 5 0).dims.height = 0 := by decide

/-- An empty width, and an empty height. -/
theorem witness_emptyImage :
    ((withCfg 4 8 0 5).status.state ≠ .busy ∧ validate (withCfg 4 8 0 5) = .none ∧ (withCfg 4 8 0 5).dims.width = 0) ∧
    ((withCfg 4 8 5 0).status.state ≠ .busy ∧ validate (withCfg 4 8 5 0) = .none ∧
      (withCfg 4 8 5 0).dims.height = 0) := by decide

theorem witness_errorLeft : ∃ t, errorState.status.state = .error ∧ step (hostAt (.txn 0x800000001) errorState) = .next t :=
  ⟨_, rfl, rfl⟩

/-- A step from ERROR that is neither START nor reset. -/
theorem witness_errorKept : ∃ t, (hostAt (.txn 0x300000000) errorState).status.state = .error ∧
    step (hostAt (.txn 0x300000000) errorState) = .next t ∧ t.status = errorState.status :=
  ⟨_, rfl, rfl, rfl⟩

theorem witness_stateMoves :
    (∃ t, exec .start idleState = .next t ∧ t.status.state ≠ idleState.status.state) ∧
    (∃ t, exec .engFlush flushState = .next t ∧ t.status.state = .done) ∧
    (∃ t, exec .engFlush { flushState with params := ⟨.msbFirstBlock, .zeroField, 0⟩ } = .next t ∧
      t.status.state = .error) ∧
    nextAction { busyState with events := [.engine] } = (.run .engSlot, busyState) ∧
    (∃ t, nextAction { busyState with events := [.reset] } = (.settled, t) ∧ t.status.state = .idle) :=
  ⟨⟨_, rfl, by decide⟩, ⟨_, rfl, by decide⟩, ⟨_, rfl, by decide⟩, by decide, ⟨_, rfl, rfl⟩⟩

theorem witness_reset : ({ busyState with events := [.reset, .host] } : State).events = [.reset, .host] := rfl

theorem witness_quantizer : (1 ≤ 1 ∧ 1 ≤ 64 ∧ 16 ≤ 64) ∧
    invertIntensity false (average 1 1 1) ≤ invertIntensity true (average 0 0 0) := by decide

/-- A depth that does not divide the block width, and one that does. -/
theorem witness_geometry : validate (withCfg 3 8 1 1) = .none ∧ ¬ (withCfg 3 8 1 1).cfg.depth.toNat ∣ 8 ∧
    (withCfg 3 8 1 1).status.state ≠ .busy ∧ validate (withCfg 4 8 1 1) = .none := by decide

theorem witness_pixelSlot : 1 ≤ depthOf (withCfg 3 8 4 2).cfg ∧
    depthOf (withCfg 3 8 4 2).cfg ≤ blockBitsOf (withCfg 3 8 4 2).cfg ∧
    (3 < (withCfg 3 8 4 2).dims.width.toNat ∧ 1 < (withCfg 3 8 4 2).dims.height.toNat) ∧
    slotInBounds (withCfg 3 8 4 2).cfg (withCfg 3 8 4 2).dims 1 0 = true := by decide

/-- The last slot with a cut field, an earlier slot, and the largest depth. -/
theorem witness_fields : (1 ≤ 3 ∧ 3 ≤ 8 ∧ 8 ≤ 64 ∧ 7 < 2 ^ 3 ∧ 2 < ceilDiv 8 3 ∧ 2 + 1 = ceilDiv 8 3) ∧
    (0 < ceilDiv 8 3 ∧ 0 + 2 ≤ ceilDiv 8 3) ∧ (64 ≤ 64 ∧ 0 < ceilDiv 64 64) := by decide

theorem witness_disjoint : (0 < 1 ∧ 1 < ceilDiv 8 5 ∧ 31 < 2 ^ 5) ∧ ceilDiv 8 5 = 2 ∧
    ((withCfg 3 8 4 2).params.shiftPolicy = .msbFirstBlock ∧ 2 < pixelsPerBlock (withCfg 3 8 4 2).cfg ∧
      1 ≤ depthOf (withCfg 3 8 4 2).cfg ∧ blockBitsOf (withCfg 3 8 4 2).cfg ≤ 64) := by decide

theorem witness_policies : (4 ∣ 16 ∧ 3 < ceilDiv 16 4) ∧ (2 * 32 ≤ 64 ∧ 1 < 2) ∧ (ceilDiv 8 5 ≤ 2 ∧ 8 ≠ 2 * 5) ∧
    (ceilDiv 64 64 ≤ 2 ∧ 64 ≠ 2 * 64) ∧ State.reset.params.shiftPolicy = .msbFirstBlock ∧
    (⟨.sourceObserved, .zeroField, 0⟩ : Params).shiftPolicy = .sourceObserved ∧
    (⟨64, 64, .rowMajor, false⟩ : Cfg).depth.toNat = 64 := by decide

/-- Two images that differ at a pixel outside the block. -/
theorem witness_independence : ∀ k < pixelsPerBlock (withCfg 4 8 3 1).cfg,
    slotInBounds (withCfg 4 8 3 1).cfg (withCfg 4 8 3 1).dims 0 k = true →
    imgAt { withCfg 4 8 3 1 with img := [(0, grey 65535), (1, grey 65535), (2, grey 7)] }
      (coord (slotPixel (withCfg 4 8 3 1).cfg 0 0 k).1) (coord (slotPixel (withCfg 4 8 3 1).cfg 0 0 k).2) =
    imgAt (withCfg 4 8 3 1) (coord (slotPixel (withCfg 4 8 3 1).cfg 0 0 k).1)
      (coord (slotPixel (withCfg 4 8 3 1).cfg 0 0 k).2) := by
  intro k hk _
  have h : k = 0 ∨ k = 1 := by
    have : pixelsPerBlock (withCfg 4 8 3 1).cfg = 2 := by decide
    omega
  rcases h with rfl | rfl <;> decide

theorem witness_serialize : 8 ≤ 8 ∧ 7 < 8 := by decide

theorem witness_encode : 0 < outputLength idleState.cfg idleState.dims := by decide

/-- A slot before the last and the last one, and a pad slot, each with the image unchanged. -/
theorem witness_slot :
    (busyState.status.state = .busy ∧ busyState.eng.seq = 1 ∧ busyState.imgDirty = false ∧
      busyState.eng.k.toNat ≠ (8 + 4 - 1) / 4 - 1) ∧
    (({ busyState with eng := ⟨0xF0, 1, 0, 0, 1, 0⟩ } : State).eng.k.toNat = (8 + 4 - 1) / 4 - 1) ∧
    slotInBounds ⟨4, 8, .rowMajor, false⟩ ⟨1, 1⟩ 0 1 = false ∧ slotInBounds ⟨4, 8, .rowMajor, false⟩ ⟨2, 1⟩ 0 1 = true := by
  decide

/-- Two images that differ only in alpha. -/
theorem witness_alpha : busyState.status.state = .busy ∧ busyState.eng.seq = 1 ∧ busyState.imgDirty = false ∧
    (imgAt { busyState with img := [(0, grey 65535 &&& 0xFFFFFFFFFFFF)] } 0 0).extractLsb' 0 48 =
      (imgAt busyState 0 0).extractLsb' 0 48 ∧
    imgAt { busyState with img := [(0, grey 65535 &&& 0xFFFFFFFFFFFF)] } 0 0 ≠ imgAt busyState 0 0 := by decide

/-- The block that just fits, one that does not, and a block that is not the last. -/
theorem witness_flush : flushState.status.state = .busy ∧ flushState.eng.seq = 2 ∧
    ({ flushState with params := ⟨.msbFirstBlock, .zeroField, 0⟩ } : State).params.outCap.toNat <
      flushState.eng.n.toNat + (8 + 7) / 8 ∧
    flushState.eng.n.toNat + (8 + 7) / 8 ≤
      ({ flushState with params := ⟨.msbFirstBlock, .zeroField, 1⟩ } : State).params.outCap.toNat ∧
    ¬ (flushState.eng.j.toNat + 1 < blocksPerLine flushState.cfg flushState.dims) ∧
    (flushState.eng.o + 1).toNat = lineCount flushState.cfg flushState.dims ∧
    flushState.eng.j.toNat + 1 < blocksPerLine flushState.cfg ⟨3, 1⟩ ∧
    flushState.eng.o.toNat ≠ lineCount flushState.cfg ⟨3, 1⟩ := by decide

theorem witness_disabled : idleState.status.state ≠ .busy ∧ flushState.eng.seq ≠ 1 ∧ busyState.eng.seq ≠ 2 := by decide

/-- The invariant holds in the middle of a pass. -/
theorem witness_busyInv : Inv busyState ∧ busyState.status.state = .busy where
  left := {
    phaseIffBusy := by decide
    phaseNotUnused := by decide
    errIffError := by decide
    emptyOutsidePass := by decide
    lengthHigh := by decide
    geometryRange := by decide
    noOutput := by decide
    outWf := by decide
    outInside := by decide
    imgWf := by decide
    settled := by decide
    busy := fun _ => {
      accepted := by decide
      nonempty := by decide
      lineInRange := by decide
      blockInRange := by decide
      slotInRange := by decide
      position := by decide
      flushAtLastSlot := by decide
      lengthShown := by decide
      geometryShown := by decide
      notSeen := by decide
      blockRegister := by decide
      written := fun _ i h => absurd h (Nat.not_lt_zero i) } }
  right := rfl

/-- It holds outside a pass too, where START is accepted. -/
theorem witness_idleInv : Inv idleState ∧ idleState.status.state ≠ .busy ∧ validate idleState = .none ∧
    0 < outputLength idleState.cfg idleState.dims :=
  ⟨⟨by decide, by decide, by decide, by decide, by decide, by decide, by decide, by decide, by decide, by decide,
    by decide, fun h => absurd h (by decide)⟩, by decide, by decide, by decide⟩

theorem witness_boundsFires : flushState.status.state = .busy ∧ flushState.eng.seq = 2 ∧ flushState.outDirty = [] ∧
    ({ flushState with params := ⟨.msbFirstBlock, .zeroField, 0⟩ } : State).params.outCap.toNat <
      flushState.eng.n.toNat + bytesPerBlock flushState.cfg := by decide

theorem witness_stepRuns : (hostAt (.txn 0x300000000) busyState).events = [.host] ∧
    (hostAt (.txn 0x300000000) busyState).host.prog[(hostAt (.txn 0x300000000) busyState).host.pc]? =
      some (.txn 0x300000000) ∧
    ({ busyState with events := [.engine] } : State).events = [.engine] ∧
    decodeEngine busyState.eng.seq = .ok .engSlot := by decide

/-- The four cases of a turn with nothing scheduled. -/
theorem witness_openTurn : busyState.events = [] ∧
    (engineEnabled busyState = true ∧ hostEnabled busyState = false) ∧
    (engineEnabled { hostAt (.txn 0) idleState with events := [] } = false ∧
      hostEnabled { hostAt (.txn 0) idleState with events := [] } = true) ∧
    (engineEnabled idleState = false ∧ hostEnabled idleState = false) ∧
    (engineEnabled { hostAt (.txn 0) busyState with events := [] } = true ∧
      hostEnabled { hostAt (.txn 0) busyState with events := [] } = true) ∧
    busyState.hostTurns = none ∧ ({ busyState with hostTurns := some 3 } : State).hostTurns = some (2 + 1) ∧
    ({ busyState with hostTurns := some 0 } : State).hostTurns = some 0 := by decide

/-- The start of a pass with a host that polls STATUS, after one scheduled turn of each agent. -/
def pollState : State := { busyState with
  host := { busyState.host with prog := [.txn 0x300000000, .jbusy 0, .halt] }
  events := [.host, .engine] }

/-- 70_reset_and_hazards.md R240: the polling host, an accepted START with turns scheduled, and an endless run. -/
theorem witness_progress : Inv pollState ∧ pollState.status.state = .busy ∧
    (∀ e ∈ pollState.events, e = .host ∨ e = .engine) ∧
    pollState.host.prog[pollState.host.pc]? = some (.txn 0x300000000) ∧ decodeHost 0x300000000 = .rdStatus ∧
    pollState.host.prog[pollState.host.pc + 1]? = some (.jbusy pollState.host.pc) ∧
    Inv { idleState with events := [.host, .engine] } ∧ IsRun (fun _ => idleState) :=
  ⟨Inv_reschedule witness_busyInv.1 _ _ _ _ rfl, rfl, by decide, rfl, rfl, rfl,
    Inv_reschedule witness_idleInv.1 _ _ _ _ rfl, fun _ => rfl⟩

/-- 70_reset_and_hazards.md R240: with its turns used up, the host gives way to the engine; before that it moves. -/
theorem test_contested_turn :
    engineMoves { pollState with events := [], hostTurns := some 0 } = true ∧
    engineMoves { pollState with events := [], hostTurns := some 1 } = false := by decide

/-- 70_reset_and_hazards.md R242: the output of a run that ends in IDLE, in ERROR, BUSY, and in DONE. -/
theorem test_observed_output : (observe idleState).output = some [] ∧ (observe errorState).output = some [] ∧
    (observe busyState).output = none ∧ (observe doneState).output = some [0xFF] := by decide

/-- `jbusy` after a read that returned BUSY, with no read of STATUS yet, and `halt`. -/
theorem witness_hostControl : (hostAt (.jbusy 7) busyState).events = [.host] ∧
    (hostAt (.jbusy 7) busyState).host.prog[0]? = some (.jbusy 7) ∧
    ([⟨.geom, 0⟩, ⟨.status, 1⟩] : List ReadRecord) = [⟨.geom, 0⟩] ++ ⟨.status, 1⟩ :: [] ∧
    (∀ r ∈ ([⟨.geom, 0⟩] : List ReadRecord), r.reg ≠ .status) ∧
    (∀ r ∈ (hostAt (.jbusy 7) busyState).host.reads, r.reg ≠ .status) ∧
    (hostAt .halt busyState).host.prog[0]? = some .halt ∧
    asmWellFormed ([⟨none, .poll⟩] ++ ⟨some 1, .nop⟩ :: [⟨none, .jbusy 1⟩]) = true ∧
    assemble [⟨none, .poll⟩, ⟨some 1, .nop⟩, ⟨none, .jbusy 1⟩] =
      some [.txn 0x300000000, .jbusy 0, .txn 0x800000000, .jbusy 2] ∧
    asmWellFormed [⟨none, .jbusy 1⟩] = false ∧ (7 < 8 ∧ 0xFFFFFFFF < 2 ^ 32) := by decide

/-- A step from BUSY by the engine, and one by the host. -/
theorem witness_steps :
    (∃ t, step { busyState with events := [.engine] } = .next t) ∧
    (∃ t, step (hostAt (.txn 0x900020803) busyState) = .next t) ∧
    ({ busyState with events := [.engine] } : State).events.head? ≠ some .reset ∧
    ∀ x y w, ({ busyState with events := [.engine] } : State).events.head? ≠ some (.setPixel x y w) :=
  ⟨⟨_, rfl⟩, ⟨_, rfl⟩, by decide, fun _ _ _ h => by cases h⟩

theorem witness_hostInstr : busyState.status.state = .busy ∧ isHostInstr (.wrCfg 1 1 .rowMajor true) = true := by decide

theorem witness_lengthWritten : ∃ t, step (hostAt (.txn 0x800000001) idleState) = .next t ∧
    t.outLen ≠ (hostAt (.txn 0x800000001) idleState).outLen :=
  ⟨_, rfl, by decide⟩

theorem witness_outputStable : ∃ t, doneState.status.state ≠ .busy ∧ step (hostAt (.txn 0x800000001) doneState) = .next t ∧
    t.out = doneState.out :=
  ⟨_, by decide, rfl, rfl⟩

/-- The six clauses: the acts, the steps within the pass, and the step that ends it. -/
theorem witness_brokenDuties :
    (({ busyState with events := [.setPixel 1 0 5] } : State).events = [.setPixel 1 0 5] ∧
      (1 : BitVec 16) < busyState.dims.width ∧ (0 : BitVec 16) < busyState.dims.height) ∧
    (∃ t, step { busyState with imgDirty := true, outDirty := [3], events := [.engine] } = .next t ∧
      t.status.state = .busy) ∧
    (({ busyState with imgDirty := true } : State).imgDirty = true ∧ busyState.status.state = .busy ∧
      busyState.eng.seq = 1 ∧
      slotInBounds busyState.cfg busyState.dims busyState.eng.j.toNat busyState.eng.k.toNat = true) ∧
    (99 < busyState.params.outCap.toNat ∧
      ({ busyState with events := [.writeOut 99 1] } : State).events = [.writeOut 99 1]) ∧
    (∃ t, step { flushState with outDirty := [0], events := [.engine] } = .next t ∧ t.status.state ≠ .busy ∧
      0 ∈ ({ flushState with outDirty := [0], events := [.engine] } : State).outDirty) :=
  ⟨by decide, ⟨_, rfl, rfl⟩, by decide, by decide, ⟨_, rfl, by decide, by decide⟩⟩

/-- The first index outside OUT and the last inside it. -/
theorem witness_outAccess : idleState.params.outCap.toNat ≤ 100 ∧ 99 < idleState.params.outCap.toNat ∧
    ({ idleState with events := [.readOut 100] } : State).events = [.readOut 100] ∧
    ({ idleState with events := [.writeOut 99 1] } : State).events = [.writeOut 99 1] := by decide

theorem witness_setPixel : idleState.status.state ≠ .busy ∧
    ({ idleState with events := [.setPixel 65535 65535 9] } : State).events = [.setPixel 65535 65535 9] := by decide

/-- A pass that ended in DONE with its output in OUT. -/
theorem witness_passOutput : PassOutput doneState ∧ 0 < outputLength doneState.cfg doneState.dims ∧
    0 < doneState.params.outCap.toNat ∧ ({ doneState with events := [.readOut 0] } : State).events = [.readOut 0] ∧
    PassOutput { doneState with events := [.readOut 0] } ∧ idleState.host.seenDone = false ∧
    PassOutput { doneState with events := [.readOut 0], host := ⟨[], 0, [], true, []⟩ } ∧
    Memory.read doneState.out 0 = some 0xFF ∧ Memory.read doneState.out 1 = none ∧ 1 < doneState.params.outCap.toNat ∧
    (∃ t, step { doneState with events := [.readOut 1], host := ⟨[], 0, [], true, []⟩ } = .next t) := by
  have h : ∀ i < outputLength doneState.cfg doneState.dims,
      Memory.read doneState.out i = some (encodeByte doneState i) := by
    intro i hi
    have h1 : outputLength doneState.cfg doneState.dims = 1 := by decide
    obtain rfl : i = 0 := by omega
    decide
  exact ⟨⟨rfl, by decide, h⟩, by decide, by decide, rfl, ⟨rfl, by decide, h⟩, rfl, ⟨rfl, by decide, h⟩, by decide,
    by decide, by decide, ⟨_, rfl⟩⟩

/-- A pass of which one engine turn is run, with and without a host turn before it. -/
theorem witness_interleaving : ∃ u, (∀ e ∈ [Event.host, .engine], e = .host ∨ e = .engine) ∧
    busyState.status.state = .busy ∧ busyState.imgDirty = false ∧
    Sys2Proof.core.run ([Event.host, .engine].count .engine)
      { busyState with events := List.replicate ([Event.host, .engine].count .engine) .engine } = .next u ∧
    u.status.state = .busy :=
  ⟨_, by decide, rfl, rfl, rfl, rfl⟩

end Sys2Proof.Tests
end

section
/-! SUPPORT. What one step can do, said once: the state a turn prepares (`PreparedFrom`), the next state where a turn
runs no instruction (`TurnEffect`), and the next state where an instruction runs (`ExecEffect`). Every statement about
`step` is a case analysis over these. -/

namespace Sys2Proof.Machine

/-! ### The prepared state -/

/-- `t` differs from `s` at most in the position of the host's program, the schedule and the count of draws. -/
def PreparedFrom (s t : State) : Prop :=
  ∃ pc es w d, t = { s with host.pc := pc, events := es, hostTurns := w, draws := d }

/-- Preparing may start from the same state on another schedule. -/
theorem PreparedFrom.of_rescheduled {s t : State} {es : List Event} {w : Option Nat} {d : Nat}
    (h : PreparedFrom { s with events := es, hostTurns := w, draws := d } t) : PreparedFrom s t := by
  obtain ⟨pc, es, w, d, rfl⟩ := h
  exact ⟨pc, es, w, d, rfl⟩

theorem PreparedFrom.refl (s : State) : PreparedFrom s s := ⟨s.host.pc, s.events, s.hostTurns, s.draws, rfl⟩

theorem PreparedFrom.status_eq {s t : State} (h : PreparedFrom s t) : t.status = s.status := by
  obtain ⟨_, _, _, _, rfl⟩ := h
  rfl

/-- The host's turn moves at most the position in its program. -/
theorem hostTurn_prepares {s t : State} {a : Action} (h : hostTurn s = (a, t)) : PreparedFrom s t := by
  obtain ⟨_, _, hc⟩ | ⟨target, _, _, hc⟩ | ⟨_, _, _, hc⟩ | ⟨_, hc⟩ := hostTurn_cases s <;> cases hc.symm.trans h
  · exact ⟨s.host.pc + 1, s.events, s.hostTurns, s.draws, rfl⟩
  · exact ⟨target, s.events, s.hostTurns, s.draws, rfl⟩
  · exact ⟨s.host.pc + 1, s.events, s.hostTurns, s.draws, rfl⟩
  · exact PreparedFrom.refl s

/-- The engine's turn prepares nothing. -/
theorem engineTurn_prepares {s t : State} {a : Action} (h : engineTurn s = (a, t)) : PreparedFrom s t := by
  obtain ⟨_, _, hc⟩ | ⟨_, hc⟩ := engineTurn_cases s <;> cases hc.symm.trans h <;> exact PreparedFrom.refl s

/-- A turn with nothing scheduled prepares one agent's turn. -/
theorem freeAction_prepares {s t : State} {a : Action} (h : freeAction s = (a, t)) : PreparedFrom s t := by
  obtain ⟨_, d, w, hc⟩ | ⟨_, d, w, hc⟩ | ⟨_, _, hc⟩ := freeAction_cases s
  · exact (engineTurn_prepares (hc.symm.trans h)).of_rescheduled
  · exact (hostTurn_prepares (hc.symm.trans h)).of_rescheduled
  · cases hc.symm.trans h
    exact PreparedFrom.refl s

/-! ### A turn that runs no instruction -/

/-- A host read of OUT changes no more than the draws and what the host has read from OUT. -/
theorem readOut_state (i : Nat) (s : State) :
    ∃ d cells, readOut i s = { s with draws := d, host.outReads := cells } := by
  have hseen : ∃ d, (outByteSeen s i).2 = { s with draws := d } := by
    unfold outByteSeen
    split
    · split
      · exact ⟨s.draws, rfl⟩
      · exact ⟨s.draws + 1, rfl⟩
    · exact ⟨s.draws + 1, rfl⟩
  obtain ⟨d, hd⟩ := hseen
  exact ⟨d, (i, (outByteSeen s i).1) :: s.host.outReads, by simp only [readOut, hd]⟩

/-- What a turn of `s` that runs no instruction can lead to: the prepared state, or one act of the environment. -/
inductive TurnEffect (s : State) : State → Prop where
  | prepared {t : State} (h : PreparedFrom s t) : TurnEffect s t
  | reset {rest : List Event} (he : s.events = .reset :: rest) : TurnEffect s (resetCore { s with events := rest })
  | pixelSet {rest : List Event} {x y : BitVec 16} {w : Word64} (he : s.events = .setPixel x y w :: rest) :
      TurnEffect s (setPixel x y w { s with events := rest })
  | byteMarked {rest : List Event} {i : Nat} {v : Byte} (he : s.events = .writeOut i v :: rest)
      (hb : s.status.state = .busy) : TurnEffect s { s with events := rest, outDirty := i :: s.outDirty }
  | byteStored {rest : List Event} {i : Nat} {v : Byte} (he : s.events = .writeOut i v :: rest)
      (hin : i < s.params.outCap.toNat) (hb : s.status.state ≠ .busy) :
      TurnEffect s { s with events := rest, out := Memory.write s.out i v }
  | byteRead {rest : List Event} {i d : Nat} {cells : List Host.Cell} (he : s.events = .readOut i :: rest) :
      TurnEffect s { s with events := rest, draws := d, host.outReads := cells }

/-- The turn of one scheduled event. -/
theorem eventAction_effect {s u : State} {a : Action} {e : Event} {rest : List Event} (he : s.events = e :: rest)
    (h : eventAction e { s with events := rest } = (a, u)) :
    (∀ i, a = .run i → PreparedFrom s u) ∧ (a = .settled → TurnEffect s u) := by
  have hturn : PreparedFrom { s with events := rest } u →
      (∀ i, a = .run i → PreparedFrom s u) ∧ (a = .settled → TurnEffect s u) := fun hp =>
    have hp : PreparedFrom s u := hp.of_rescheduled
    ⟨fun _ _ => hp, fun _ => .prepared hp⟩
  cases e with
  | host => exact hturn (hostTurn_prepares h)
  | engine => exact hturn (engineTurn_prepares h)
  | reset =>
    cases h
    exact ⟨nofun, fun _ => .reset he⟩
  | setPixel x y w =>
    cases h
    exact ⟨nofun, fun _ => .pixelSet he⟩
  | writeOut i v =>
    simp only [eventAction, outExists, decide_eq_true_eq] at h
    split at h
    · next hin =>
      cases h
      refine ⟨nofun, fun _ => ?_⟩
      by_cases hb : s.status.state = .busy
      · simpa [writeOut, isBusy, hb] using TurnEffect.byteMarked he hb
      · simpa [writeOut, isBusy, hb] using TurnEffect.byteStored he hin hb
    · cases h
      exact ⟨nofun, nofun⟩
  | readOut i =>
    simp only [eventAction] at h
    split at h
    · cases h
      obtain ⟨d, cells, hr⟩ := readOut_state i { s with events := rest }
      exact ⟨nofun, fun _ => hr ▸ .byteRead he⟩
    · cases h
      exact ⟨nofun, nofun⟩

/-- Choosing an instruction changes at most the host's position, the schedule and the draws. -/
theorem nextAction_run {s u : State} {i : Instr} (h : nextAction s = (.run i, u)) : PreparedFrom s u := by
  unfold nextAction at h
  split at h
  · next e rest he => exact (eventAction_effect he h).1 i rfl
  · exact freeAction_prepares h

/-- A turn that runs no instruction leads to the prepared state, or is one act of the environment. -/
theorem nextAction_settled {s t : State} (h : nextAction s = (.settled, t)) : TurnEffect s t := by
  unfold nextAction at h
  split at h
  · next e rest he => exact (eventAction_effect he h).2 rfl
  · exact .prepared (freeAction_prepares h)

/-! ### An instruction -/

/-- What running an instruction on `s` can lead to. -/
inductive ExecEffect (s : State) : Instr → State → Prop where
  | ignored (i : Instr) : ExecEffect s i s
  | startRefused (hb : s.status.state ≠ .busy) (hv : validate s ≠ .none) :
      ExecEffect s .start (raiseError (validate s) true s)
  | startAccepted (hb : s.status.state ≠ .busy) (hv : validate s = .none) : ExecEffect s .start (acceptStart s)
  | cfgStored (c : Cfg) (hb : s.status.state ≠ .busy) :
      ExecEffect s (.wrCfg c.depth c.blockBits c.scan c.invert) { s with cfg := c }
  | dimsStored (d : Dims) (hb : s.status.state ≠ .busy) :
      ExecEffect s (.wrDims d.width d.height) { s with dims := d }
  | registerRead (i : Instr) (reg : Reg) : ExecEffect s i (returnToHost s reg)
  | statusRead : ExecEffect s .rdStatus { returnToHost s .status with
      host.seenDone := s.host.seenDone || decide (s.status.state = .done) }
  | slotProcessed (d : Nat) (hb : s.status.state = .busy) (hq : s.eng.seq = seqSlot) :
      ExecEffect s .engSlot { s with
        draws := d
        eng := engineAfterSlot s.eng (pixelsPerBlock s.cfg) (field s.params s.cfg (slotRead s).1 s.eng.k.toNat) }
  | flushRefused (hb : s.status.state = .busy) (hq : s.eng.seq = seqFlush) (hf : flushOutside s = true) :
      ExecEffect s .engFlush (settleOut (raiseError .bounds false s))
  | lastBlockFlushed (hb : s.status.state = .busy) (hq : s.eng.seq = seqFlush) (hf : flushOutside s = false)
      (hl : (engineAfterFlush s).o.toNat = lineCount s.cfg s.dims) :
      ExecEffect s .engFlush (settleOut { s with
        out := outAfterFlush s
        eng := { engineAfterFlush s with seq := seqNone }
        status.state := .done })
  | blockFlushed (hb : s.status.state = .busy) (hq : s.eng.seq = seqFlush) (hf : flushOutside s = false)
      (hl : (engineAfterFlush s).o.toNat ≠ lineCount s.cfg s.dims) :
      ExecEffect s .engFlush { s with out := outAfterFlush s, eng := { engineAfterFlush s with seq := seqSlot } }

theorem startPass_effect (s : State) : ExecEffect s .start (startPass s) := by
  obtain ⟨_, h⟩ | ⟨hb, hv, h⟩ | ⟨hb, hv, h⟩ := startPass_cases s <;> rw [h]
  · exact .ignored _
  · exact .startRefused hb hv
  · exact .startAccepted hb hv

theorem execEngSlot_effect {s t : State} (h : execEngSlot s = .next t) : ExecEffect s .engSlot t := by
  unfold execEngSlot at h
  split at h
  · next hen =>
    cases h
    obtain ⟨hb, hq⟩ : s.status.state = .busy ∧ s.eng.seq = seqSlot := by simpa [slotEnabled, isBusy] using hen
    obtain ⟨d, hd⟩ := processSlot_eq s
    exact hd ▸ .slotProcessed d hb hq
  · cases h
    exact .ignored _

theorem execEngFlush_effect {s t : State} (h : execEngFlush s = .next t) : ExecEffect s .engFlush t := by
  unfold execEngFlush at h
  split at h
  · next hen =>
    cases h
    obtain ⟨hb, hq⟩ : s.status.state = .busy ∧ s.eng.seq = seqFlush := by simpa [flushEnabled, isBusy] using hen
    obtain ⟨hf, h⟩ | ⟨hf, hl, h⟩ | ⟨hf, hl, h⟩ := flushBlock_cases s
    · exact h ▸ .flushRefused hb hq hf
    · exact h ▸ .lastBlockFlushed hb hq hf hl
    · exact h ▸ .blockFlushed hb hq hf hl
  · cases h
    exact .ignored _

/-- What an instruction does, whichever it is. -/
theorem exec_effect {i : Instr} {s t : State} (h : exec i s = .next t) : ExecEffect s i t := by
  cases i with
  | start => cases h; exact startPass_effect s
  | engSlot => exact execEngSlot_effect h
  | engFlush => exact execEngFlush_effect h
  | wrCfg depth blockBits scan invert =>
    cases h
    by_cases hb : s.status.state = .busy
    · simpa [isBusy, hb] using ExecEffect.ignored _
    · simpa [isBusy, hb] using ExecEffect.cfgStored ⟨depth, blockBits, scan, invert⟩ hb
  | wrDims width height =>
    cases h
    by_cases hb : s.status.state = .busy
    · simpa [isBusy, hb] using ExecEffect.ignored _
    · simpa [isBusy, hb] using ExecEffect.dimsStored ⟨width, height⟩ hb
  | rdStatus => cases h; exact noteDone_eq (returnToHost s .status) ▸ .statusRead
  | wrCtrlNop | wrStatus | wrOutLenLo | wrOutLenHi | wrGeom | wrRsvd7 => cases h; exact .ignored _
  | rdCtrl | rdCfg | rdDims | rdOutLenLo | rdOutLenHi | rdGeom | rdRsvd7 => cases h; exact .registerRead _ _

/-- What one step does: it runs an instruction on a prepared state, or runs none. -/
theorem step_effect {s t : State} (h : step s = .next t) :
    (∃ i u, nextAction s = (.run i, u) ∧ PreparedFrom s u ∧ ExecEffect u i t) ∨ TurnEffect s t := by
  obtain ⟨i, u, hn, he⟩ | hn := step_next_cases h
  · exact .inl ⟨i, u, hn, nextAction_run hn, exec_effect he⟩
  · exact .inr (nextAction_settled hn)

end Sys2Proof.Machine
end

section
/-! SUPPORT. What steps leave unchanged: the parameters, the image, the configuration while BUSY, the length and the
state of STATUS (spec 10_state.md R27, R29, R37, R39). -/

namespace Sys2Proof.Machine

/-! ### Parameters and image -/

theorem ExecEffect.params_img {s t : State} {i : Instr} (h : ExecEffect s i t) :
    t.params = s.params ∧ t.img = s.img := by
  cases h <;> exact ⟨rfl, rfl⟩

theorem PreparedFrom.params_img {s t : State} (h : PreparedFrom s t) : t.params = s.params ∧ t.img = s.img := by
  obtain ⟨_, _, _, _, rfl⟩ := h
  exact ⟨rfl, rfl⟩

/-- Of the acts of the environment only the host's write of a pixel changes the image. -/
theorem TurnEffect.params_img {s t : State} (h : TurnEffect s t) :
    t.params = s.params ∧ ((∀ x y w, s.events.head? ≠ some (.setPixel x y w)) → t.img = s.img) := by
  cases h with
  | prepared h => exact ⟨h.params_img.1, fun _ => h.params_img.2⟩
  | pixelSet he => exact ⟨rfl, fun hno => absurd (by rw [he]; rfl) (hno _ _ _)⟩
  | reset _ | byteMarked _ _ | byteStored _ _ _ | byteRead _ => exact ⟨rfl, fun _ => rfl⟩

/-- Settles O47: no instruction writes a parameter or a pixel, and of the acts of the environment one writes a pixel. -/
theorem parametersAndImageAreFixed : Obligations.ParametersAndImageAreFixed := by
  intro s t h
  obtain ⟨i, u, _, hu, he⟩ | he := step_effect h
  · exact ⟨he.params_img.1.trans hu.params_img.1, fun _ => he.params_img.2.trans hu.params_img.2⟩
  · exact he.params_img

/-! ### The configuration while BUSY -/

theorem ExecEffect.cfg_dims_of_busy {s t : State} {i : Instr} (h : ExecEffect s i t) (hb : s.status.state = .busy) :
    t.cfg = s.cfg ∧ t.dims = s.dims := by
  cases h with
  | cfgStored _ hnb | dimsStored _ hnb => exact absurd hb hnb
  | _ => exact ⟨rfl, rfl⟩

theorem PreparedFrom.cfg_dims {s t : State} (h : PreparedFrom s t) : t.cfg = s.cfg ∧ t.dims = s.dims := by
  obtain ⟨_, _, _, _, rfl⟩ := h
  exact ⟨rfl, rfl⟩

/-- Of the turns that run no instruction only reset changes CFG or DIMS. -/
theorem TurnEffect.cfg_dims {s t : State} (h : TurnEffect s t) (hr : s.events.head? ≠ some .reset) :
    t.cfg = s.cfg ∧ t.dims = s.dims := by
  cases h with
  | prepared h => exact h.cfg_dims
  | reset he => exact absurd (by rw [he]; rfl) hr
  | pixelSet _ | byteMarked _ _ | byteStored _ _ _ | byteRead _ => exact ⟨rfl, rfl⟩

/-- Settles O48: the two writes of the configuration are ignored while BUSY. -/
theorem configurationFixedWhileBusy : Obligations.ConfigurationFixedWhileBusy := by
  intro s t hb h hr
  obtain ⟨i, u, _, hu, he⟩ | he := step_effect h
  · obtain ⟨hcfg, hdims⟩ := he.cfg_dims_of_busy (hu.status_eq ▸ hb)
    exact ⟨hcfg.trans hu.cfg_dims.1, hdims.trans hu.cfg_dims.2⟩
  · exact he.cfg_dims hr

/-! ### The length -/

/-- OUT_LEN is written by START outside BUSY, refused or accepted, and by no other instruction; the bounds check keeps
it. -/
theorem ExecEffect.outLen_eq_or_start {s t : State} {i : Instr} (h : ExecEffect s i t) :
    t.outLen = s.outLen ∨ (i = .start ∧ s.status.state ≠ .busy) := by
  cases h with
  | startRefused hb _ | startAccepted hb _ => exact .inr ⟨rfl, hb⟩
  | _ => exact .inl rfl

theorem PreparedFrom.outLen_eq {s t : State} (h : PreparedFrom s t) : t.outLen = s.outLen := by
  obtain ⟨_, _, _, _, rfl⟩ := h
  rfl

theorem TurnEffect.outLen_eq_or_reset {s t : State} (h : TurnEffect s t) :
    t.outLen = s.outLen ∨ s.events.head? = some .reset := by
  cases h with
  | prepared h => exact .inl h.outLen_eq
  | reset he => exact .inr (by rw [he]; rfl)
  | pixelSet _ | byteMarked _ _ | byteStored _ _ _ | byteRead _ => exact .inl rfl

/-- Settles O50: where OUT_LEN differs, the instruction was START outside BUSY, or the turn was reset. -/
theorem lengthWrittenOnlyByStart : Obligations.LengthWrittenOnlyByStart := by
  intro s t h hne
  obtain ⟨i, u, hn, hu, he⟩ | he := step_effect h
  · obtain heq | ⟨rfl, hb⟩ := he.outLen_eq_or_start
    · exact absurd (heq.trans hu.outLen_eq) hne
    · exact .inl ⟨⟨u, hn⟩, hu.status_eq ▸ hb⟩
  · exact .inr (he.outLen_eq_or_reset.resolve_left hne)

/-! ### STATE -/

/-- The moves of STATE by an instruction (10_state.md R27). -/
theorem ExecEffect.state_moves {s t : State} {i : Instr} (h : ExecEffect s i t)
    (hne : t.status.state ≠ s.status.state) :
    (i = .start ∧ s.status.state ≠ .busy ∧
      (t.status.state = .busy ∨ t.status.state = .done ∨ t.status.state = .error)) ∨
    (i = .engFlush ∧ s.status.state = .busy ∧ (engineAfterFlush s).o.toNat = lineCount s.cfg s.dims ∧
      t.status.state = .done) ∨
    (i = .engFlush ∧ s.status.state = .busy ∧ s.params.outCap.toNat < s.eng.n.toNat + bytesPerBlock s.cfg ∧
      t.status.state = .error) := by
  cases h with
  | startRefused hb _ => exact .inl ⟨rfl, hb, .inr (.inr rfl)⟩
  | startAccepted hb _ =>
    refine .inl ⟨rfl, hb, ?_⟩
    by_cases h0 : outputLength s.cfg s.dims = 0 <;> simp [h0]
  | lastBlockFlushed hb _ _ hl => exact .inr (.inl ⟨rfl, hb, hl, rfl⟩)
  | flushRefused hb _ hf => exact .inr (.inr ⟨rfl, hb, by simpa [flushOutside] using hf, rfl⟩)
  | _ => exact absurd rfl hne

/-- Without an instruction STATUS moves by reset only, to IDLE. -/
theorem TurnEffect.status_eq_or_reset {s t : State} (h : TurnEffect s t) :
    t.status = s.status ∨ (s.events.head? = some .reset ∧ t.status.state = .idle) := by
  cases h with
  | prepared h => exact .inl h.status_eq
  | reset he => exact .inr ⟨by rw [he]; rfl, rfl⟩
  | pixelSet _ | byteMarked _ _ | byteStored _ _ _ | byteRead _ => exact .inl rfl

/-- Settles O20: the moves of an instruction, of the preparation of a turn, and of a turn without an instruction. -/
theorem stateMovesOnlyAsStated : Obligations.StateMovesOnlyAsStated :=
  ⟨fun _ _ _ h hne => (exec_effect h).state_moves hne, fun _ _ _ h => (nextAction_run h).status_eq,
    fun _ _ h => (nextAction_settled h).status_eq_or_reset⟩

end Sys2Proof.Machine
end

section
/-! SUPPORT. The fields of a HOST word, the bits of the register words, and what a write that differs in reserved bits
only decodes to (spec 10_state.md R32, R40; 30_encoding.md R71, R74). -/

namespace Sys2Proof.Machine

/-! ### The fields of a HOST word -/

@[simp] theorem txnWe_txnOf (we : Bool) (reg : BitVec 3) (data : Word32) : txnWe (txnOf we reg data) = we := by
  simp only [txnWe, txnOf, BitVec.getLsbD_append]
  simp

@[simp] theorem txnReg_txnOf (we : Bool) (reg : BitVec 3) (data : Word32) : txnReg (txnOf we reg data) = reg := by
  apply BitVec.eq_of_getLsbD_eq
  intro i hi
  simp only [txnReg, txnOf, BitVec.getLsbD_extractLsb', BitVec.getLsbD_append]
  simp [hi]

@[simp] theorem txnData_txnOf (we : Bool) (reg : BitVec 3) (data : Word32) : txnData (txnOf we reg data) = data := by
  apply BitVec.eq_of_getLsbD_eq
  intro i hi
  simp only [txnData, txnOf, BitVec.getLsbD_extractLsb', BitVec.getLsbD_append]
  simp [hi]

/-! ### What a write decodes to (30_encoding.md R72) -/

theorem decodeHost_write_ctrl (data : Word32) :
    decodeHost (txnOf true 0 data) = if data.getLsbD 0 then .start else .wrCtrlNop := by
  simp [decodeHost, regOfNumber]

theorem decodeHost_write_cfg (data : Word32) : decodeHost (txnOf true 1 data) = wrCfgOfData data := by
  simp [decodeHost, regOfNumber]

theorem decodeHost_write_status (data : Word32) : decodeHost (txnOf true 3 data) = .wrStatus := by
  simp [decodeHost, regOfNumber]

theorem decodeHost_write_geom (data : Word32) : decodeHost (txnOf true 6 data) = .wrGeom := by
  simp [decodeHost, regOfNumber]

/-- A write of CFG reads no reserved bit of its DATA. -/
theorem wrCfgOfData_and_mask (data : Word32) : wrCfgOfData (data &&& 0x00037F7F) = wrCfgOfData data := by
  have hfield : ∀ x : BitVec 7, x &&& 127#7 = x := fun x => BitVec.and_allOnes
  simp [wrCfgOfData, BitVec.extractLsb'_and, hfield]

/-! ### The bits of the register words -/

/-- The CFG word has its fields at the positions of 10_state.md R23 and 0 elsewhere. -/
theorem getLsbD_cfgData (depth blockBits : BitVec 7) (scan : Scan) (invert : Bool) {i : Nat} (hi : i < 32) :
    (cfgData depth blockBits scan invert).getLsbD i =
      if i < 8 then depth.getLsbD i
      else if i < 16 then blockBits.getLsbD (i - 8)
      else if i = 16 then scan.bit
      else if i = 17 then invert
      else false := by
  simp only [cfgData, BitVec.getLsbD_or, BitVec.getLsbD_setWidth, BitVec.getLsbD_shiftLeft, BitVec.getLsbD_ofBool, hi]
  interval_cases i <;> simp

/-- The bits of CFG that are not reserved (10_state.md R23, R32). -/
theorem getLsbD_cfgMask : ∀ i < 32,
    (0x00037F7F : Word32).getLsbD i = decide (i < 7 ∨ (8 ≤ i ∧ i < 15) ∨ i = 16 ∨ i = 17) := by
  decide

/-- The CFG word of the fields of a word is that word without its reserved bits. -/
theorem cfgData_of_fields (data : Word32) :
    cfgData (data.extractLsb' 0 7) (data.extractLsb' 8 7) (scanOfBit (data.getLsbD 16)) (data.getLsbD 17) =
      data &&& 0x00037F7F := by
  have hscan : ∀ b : Bool, (scanOfBit b).bit = b := by decide
  apply BitVec.eq_of_getLsbD_eq
  intro i hi
  rw [getLsbD_cfgData _ _ _ _ hi, BitVec.getLsbD_and, getLsbD_cfgMask i hi, hscan]
  interval_cases i <;> simp

/-- The reserved bits of CFG are 0 in every CFG word. -/
theorem cfgWord_reserved (c : Cfg) : cfgWord c &&& 0xFFFC8080 = 0 := by
  apply BitVec.eq_of_getLsbD_eq
  intro i hi
  rw [BitVec.getLsbD_and, cfgWord, getLsbD_cfgData _ _ _ _ hi]
  interval_cases i <;> simp

theorem statusWord_reserved (st : Status) : statusWord st &&& 0xFFFFFF0C = 0 := by
  have hall : ∀ (state : EngState) (err : ErrCode), statusWord ⟨state, err⟩ &&& 0xFFFFFF0C = 0 := by
    intro state err
    cases state <;> cases err <;> decide
  exact hall st.state st.err

theorem geomWord_reserved (g : Geom) : geomWord g &&& 0xFFFFF080 = 0 := by
  apply BitVec.eq_of_getLsbD_eq
  intro i hi
  simp only [geomWord, BitVec.getLsbD_and, BitVec.getLsbD_or, BitVec.getLsbD_setWidth, BitVec.getLsbD_shiftLeft, hi]
  interval_cases i <;> simp

/-- Settles O14: the register words hold 0 at their reserved bits, and decoding a write reads none of them. -/
theorem reservedBitsReadZeroAndIgnoreWrites : Obligations.ReservedBitsReadZeroAndIgnoreWrites := by
  refine ⟨fun s => ⟨rfl, cfgWord_reserved s.cfg, statusWord_reserved s.status, geomWord_reserved s.geom⟩,
    fun data => ⟨?_, ?_, ?_, ?_⟩⟩
  · rw [decodeHost_write_ctrl, decodeHost_write_ctrl]
    simp
  · rw [decodeHost_write_cfg, decodeHost_write_cfg, wrCfgOfData_and_mask]
  · rw [decodeHost_write_status, decodeHost_write_status]
  · rw [decodeHost_write_geom, decodeHost_write_geom]

/-- A write of CFG outside BUSY stores its four fields (43_host_commands.md R182). -/
theorem exec_write_cfg {s : State} (hb : s.status.state ≠ .busy) (data : Word32) :
    exec (decodeHost (txnOf true 1 data)) s = .next { s with
      cfg := ⟨data.extractLsb' 0 7, data.extractLsb' 8 7, scanOfBit (data.getLsbD 16), data.getLsbD 17⟩ } := by
  rw [decodeHost_write_cfg]
  simp [wrCfgOfData, exec, execWrCfg, isBusy, hb]

/-- Settles O8: the write stores the four fields, and their CFG word is DATA without its reserved bits. -/
theorem cfgReadsBackAsWritten : Obligations.CfgReadsBackAsWritten := fun s data hb =>
  ⟨_, _, exec_write_cfg hb data, rfl,
    congrArg (fun word : Word32 => (⟨.cfg, word⟩ : ReadRecord) :: s.host.reads) (cfgData_of_fields data), rfl⟩

/-- Settles O13: the fields of `State.reset` stand in its definition, and four of the words read are computed from
them. -/
theorem resetValues : Obligations.ResetValues :=
  ⟨rfl, rfl, rfl, rfl, rfl, rfl, rfl, by decide, by decide, by decide, rfl, rfl, by decide, rfl, fun _ => rfl⟩

end Sys2Proof.Machine
end

section
/-! SUPPORT. The numbers of an accepted pass: the ranges of its geometry, the length shown, and the scan order of its
blocks (spec 41_block_packer.md R120 to R123; 42_serializer.md R162, R164). -/

namespace Sys2Proof.Machine

/-! ### Ranges -/

theorem ceilDiv_pos {a b : Nat} (ha : 1 ≤ a) (hb : 1 ≤ b) : 1 ≤ ceilDiv a b :=
  Nat.div_pos (by omega) hb

theorem ceilDiv_le_self {b : Nat} (a : Nat) (hb : 1 ≤ b) : ceilDiv a b ≤ a := by
  have h : a ⌈/⌉ b ≤ a := (ceilDiv_le_iff_le_mul hb).2 (Nat.le_mul_of_pos_left a hb)
  rwa [Nat.ceilDiv_eq_add_pred_div] at h

theorem lineCount_lt (c : Cfg) (dm : Dims) : lineCount c dm < 65536 := by
  unfold lineCount
  split
  · exact dm.height.isLt
  · exact dm.width.isLt

theorem lineLength_lt (c : Cfg) (dm : Dims) : lineLength c dm < 65536 := by
  unfold lineLength
  split
  · exact dm.width.isLt
  · exact dm.height.isLt

/-- The ranges of `P`, `BPB` and `NB` in a configuration that START accepts (41_block_packer.md R120, R121). -/
theorem geometry_of_accepted {s : State} (h : validate s = .none) :
    (1 ≤ pixelsPerBlock s.cfg ∧ pixelsPerBlock s.cfg ≤ 64) ∧
    (1 ≤ bytesPerBlock s.cfg ∧ bytesPerBlock s.cfg ≤ 8) ∧ blocksPerLine s.cfg s.dims < 65536 := by
  obtain ⟨hd, hdb, hb, _, _⟩ := validate_none h
  have hp : 1 ≤ pixelsPerBlock s.cfg := ceilDiv_pos (hd.trans hdb) hd
  have hp64 : pixelsPerBlock s.cfg ≤ 64 := (ceilDiv_le_self _ hd).trans hb
  have hnb : blocksPerLine s.cfg s.dims < 65536 := (ceilDiv_le_self _ hp).trans_lt (lineLength_lt _ _)
  have hbpb : 1 ≤ bytesPerBlock s.cfg ∧ bytesPerBlock s.cfg ≤ 8 := by
    unfold bytesPerBlock ceilDiv
    omega
  exact ⟨⟨hp, hp64⟩, hbpb, hnb⟩

/-- OUT_LEN of an accepted pass needs 35 bits (41_block_packer.md R122). -/
theorem outputLength_lt {s : State} (h : validate s = .none) : outputLength s.cfg s.dims < 2 ^ 35 := by
  obtain ⟨_, ⟨_, hbpb⟩, hnb⟩ := geometry_of_accepted h
  calc outputLength s.cfg s.dims ≤ 8 * 65535 * 65535 := by
        unfold outputLength
        gcongr
        · exact Nat.le_of_lt_succ (lineCount_lt _ _)
        · exact Nat.le_of_lt_succ hnb
    _ < 2 ^ 35 := by norm_num

/-! ### The length shown -/

theorem outLen64_toNat (l : OutLen) : (outLen64 l).toNat = l.hi.toNat * 2 ^ 32 + l.lo.toNat := by
  have happend : outLen64 l = l.hi ++ l.lo := rfl
  rw [happend, BitVec.toNat_append, ← Nat.shiftLeft_add_eq_or_of_lt l.lo.isLt, Nat.shiftLeft_eq]

/-- The two halves START writes are those of the length, where it needs no more than 64 bits (43_host_commands.md
R180). -/
theorem outLen64_halves {len : Nat} (h : len < 2 ^ 64) :
    (outLen64 ⟨BitVec.ofNat 32 len, BitVec.ofNat 32 (len >>> 32)⟩).toNat = len := by
  rw [outLen64_toNat, BitVec.toNat_ofNat, BitVec.toNat_ofNat, Nat.shiftRight_eq_div_pow]
  omega

/-! ### The scan order of the blocks -/

/-- Block `j` of line `o` lies inside the output (41_block_packer.md R123). -/
theorem block_within_output {c : Cfg} {dm : Dims} {o j : Nat} (ho : o < lineCount c dm) (hj : j < blocksPerLine c dm) :
    bytesPerBlock c * (o * blocksPerLine c dm + j) + bytesPerBlock c ≤ outputLength c dm :=
  calc bytesPerBlock c * (o * blocksPerLine c dm + j) + bytesPerBlock c
      = bytesPerBlock c * (o * blocksPerLine c dm + (j + 1)) := by ring
    _ ≤ bytesPerBlock c * (o * blocksPerLine c dm + blocksPerLine c dm) := by gcongr; exact hj
    _ = bytesPerBlock c * ((o + 1) * blocksPerLine c dm) := by ring
    _ ≤ bytesPerBlock c * (lineCount c dm * blocksPerLine c dm) := by gcongr; exact ho
    _ = outputLength c dm := (Nat.mul_assoc _ _ _).symm

/-- Byte `b` of block `j` of line `o` is the byte of ENCODE at its place in scan order (42_serializer.md R164). -/
theorem encodeByte_of_block (s : State) (o : Nat) {j b : Nat} (hj : j < blocksPerLine s.cfg s.dims)
    (hb : b < bytesPerBlock s.cfg) :
    encodeByte s (bytesPerBlock s.cfg * (o * blocksPerLine s.cfg s.dims + j) + b) =
      (packBlock s o j).extractLsb' (8 * b) 8 := by
  have hpos : 0 < bytesPerBlock s.cfg := by omega
  have hblock : (bytesPerBlock s.cfg * (o * blocksPerLine s.cfg s.dims + j) + b) / bytesPerBlock s.cfg =
      o * blocksPerLine s.cfg s.dims + j := by
    rw [Nat.mul_add_div hpos, Nat.div_eq_of_lt hb, Nat.add_zero]
  have hbyte : (bytesPerBlock s.cfg * (o * blocksPerLine s.cfg s.dims + j) + b) % bytesPerBlock s.cfg = b := by
    rw [Nat.mul_add_mod, Nat.mod_eq_of_lt hb]
  have hline : (o * blocksPerLine s.cfg s.dims + j) / blocksPerLine s.cfg s.dims = o := by
    rw [Nat.mul_comm, Nat.mul_add_div (by omega), Nat.div_eq_of_lt hj, Nat.add_zero]
  have hplace : (o * blocksPerLine s.cfg s.dims + j) % blocksPerLine s.cfg s.dims = j := by
    rw [Nat.mul_comm, Nat.mul_add_mod, Nat.mod_eq_of_lt hj]
  simp only [encodeByte, hblock, hbyte, hline, hplace]

/-- A byte of the output belongs to a block of a line of the pass. -/
theorem line_of_byte {c : Cfg} {dm : Dims} {i : Nat} (hi : i < outputLength c dm) :
    i / bytesPerBlock c / blocksPerLine c dm < lineCount c dm := by
  rw [Nat.div_div_eq_div_mul]
  refine Nat.div_lt_of_lt_mul (hi.trans_eq ?_)
  unfold outputLength
  ring

/-! ### What the closed form depends on -/

/-- PACK of the first `m` slots reads the parameters, the configuration and the pixels of those slots only
(41_block_packer.md R132). -/
theorem packUpTo_congr {s t : State} (hp : t.params = s.params) (hc : t.cfg = s.cfg) (hd : t.dims = s.dims)
    {o j : Nat} :
    ∀ {m : Nat}, (∀ k < m, slotInBounds s.cfg s.dims j k = true →
      imgAt t (coord (slotPixel s.cfg o j k).1) (coord (slotPixel s.cfg o j k).2) =
        imgAt s (coord (slotPixel s.cfg o j k).1) (coord (slotPixel s.cfg o j k).2)) →
    packUpTo t o j m = packUpTo s o j m
  | 0, _ => rfl
  | m + 1, himg => by
    have hvalue : slotValue t o j m = slotValue s o j m := by
      unfold slotValue
      rw [hp, hc, hd]
      split
      · next hin => rw [himg m (Nat.lt_succ_self m) hin]
      · rfl
    rw [packUpTo, packUpTo, hp, hc, hvalue, packUpTo_congr hp hc hd fun k hk => himg k (Nat.lt_succ_of_lt hk)]

/-- What ENCODE is computed from: `t` has the parameters, the configuration and the image of `s`. -/
def SameInput (s t : State) : Prop := t.params = s.params ∧ t.cfg = s.cfg ∧ t.dims = s.dims ∧ t.img = s.img

theorem SameInput.packUpTo_eq {s t : State} {o j m : Nat} (h : SameInput s t) :
    packUpTo s o j m = packUpTo t o j m := by
  obtain ⟨hp, hc, hd, hi⟩ := h
  exact (packUpTo_congr hp hc hd fun _ _ _ => by rw [imgAt, imgAt, hi]).symm

/-- Byte `i` of ENCODE depends on its own line of blocks only. -/
theorem encodeByte_congr {s t : State} (hc : t.cfg = s.cfg) (hd : t.dims = s.dims) {i : Nat}
    (hpack : ∀ j m, packUpTo t (i / bytesPerBlock s.cfg / blocksPerLine s.cfg s.dims) j m =
      packUpTo s (i / bytesPerBlock s.cfg / blocksPerLine s.cfg s.dims) j m) :
    encodeByte t i = encodeByte s i := by
  simp only [encodeByte, packBlock, hc, hd, hpack]

theorem SameInput.encodeByte_eq {s t : State} {i : Nat} (h : SameInput s t) : encodeByte s i = encodeByte t i := by
  have ⟨_, hc, hd, _⟩ := h
  exact (encodeByte_congr hc hd fun _ _ => h.packUpTo_eq.symm).symm

end Sys2Proof.Machine
end

section
/-! SUPPORT. Every step keeps the invariant (spec 10_state.md R36). The engine's part comes first: what ENG_SLOT and
ENG_FLUSH do to `BusyInv`. Then the host's write of a pixel, and the invariant case by case over `ExecEffect` and
`TurnEffect`. -/

namespace Sys2Proof.Machine

/-! ### Two ways to build the invariant -/

/-- The invariant of a state outside a pass. -/
theorem Inv_of_not_busy {t : State} (hb : t.status.state ≠ .busy) (hq : t.eng.seq = seqNone) (hr : t.eng.r = 0)
    (herr : t.status.err ≠ .none ↔ t.status.state = .error) (hlen : t.outLen.hi.toNat ≤ 7)
    (hgeom : t.geom.ppb.toNat ≤ 64 ∧ t.geom.bpb.toNat ≤ 8)
    (hno : t.status.state = .idle ∨ t.status.state = .error → t.outLen = ⟨0, 0⟩ ∧ t.geom = ⟨0, 0⟩)
    (hout : Memory.wf t.out) (hin : ∀ c ∈ t.out, c.1 < t.params.outCap.toNat) (himg : Memory.wf t.img)
    (hdirty : t.outDirty = []) : Inv t where
  phaseIffBusy := ⟨fun h => absurd hq h, fun h => absurd h hb⟩
  phaseNotUnused := hq ▸ by decide
  errIffError := herr
  emptyOutsidePass _ := hr
  lengthHigh := hlen
  geometryRange := hgeom
  noOutput := hno
  outWf := hout
  outInside := hin
  imgWf := himg
  settled _ := hdirty
  busy h := absurd h hb

/-- The invariant of a state in a pass: the ranges of the length and the geometry follow from the accepted
configuration. -/
theorem Inv_of_busy {t : State} (hb : t.status = ⟨.busy, .none⟩) (hq : t.eng.seq = seqSlot ∨ t.eng.seq = seqFlush)
    (hout : Memory.wf t.out) (hin : ∀ c ∈ t.out, c.1 < t.params.outCap.toNat) (himg : Memory.wf t.img)
    (hbusy : BusyInv t) : Inv t where
  phaseIffBusy := by
    rw [hb]
    obtain h | h := hq <;> simp [h, seqNone, seqSlot, seqFlush]
  phaseNotUnused := by obtain h | h := hq <;> rw [h] <;> decide
  errIffError := by simp [hb]
  emptyOutsidePass h := absurd (by rw [hb]) h
  lengthHigh := by
    have hlen := outputLength_lt hbusy.accepted
    rw [← hbusy.lengthShown, outLen64_toNat] at hlen
    omega
  geometryRange := by
    obtain ⟨⟨_, hp⟩, ⟨_, hbpb⟩, _⟩ := geometry_of_accepted hbusy.accepted
    exact ⟨hbusy.geometryShown.1 ▸ hp, hbusy.geometryShown.2 ▸ hbpb⟩
  noOutput h := by simp [hb] at h
  outWf := hout
  outInside := hin
  imgWf := himg
  settled h := absurd (by rw [hb]) h
  busy _ := hbusy

/-- While BUSY there is no error (10_state.md R28). -/
theorem Inv.status_of_busy {s : State} (hs : Inv s) (hb : s.status.state = .busy) : s.status = ⟨.busy, .none⟩ := by
  have herr : s.status.err = .none := by
    by_contra h
    exact absurd (hb.symm.trans (hs.errIffError.1 h)) (by decide)
  calc s.status = ⟨s.status.state, s.status.err⟩ := rfl
    _ = ⟨.busy, .none⟩ := by rw [hb, herr]

/-! ### The slots packed and the counters -/

theorem slotsPacked_of_slot {s : State} (hq : s.eng.seq = seqSlot) : slotsPacked s = s.eng.k.toNat := by
  rw [slotsPacked, if_neg]
  rw [hq]
  decide

theorem slotsPacked_of_flush {s : State} (hq : s.eng.seq = seqFlush) : slotsPacked s = pixelsPerBlock s.cfg :=
  if_pos hq

/-- A counter that does not wrap (log 19). -/
theorem toNat_add_one {w : Nat} {x : BitVec w} (h : x.toNat + 1 < 2 ^ w) : (x + 1).toNat = x.toNat + 1 := by
  have hone : (1 : BitVec w).toNat = 1 := Nat.mod_eq_of_lt ((Nat.le_add_left 1 _).trans_lt h)
  rw [BitVec.toNat_add_of_lt (by rwa [hone]), hone]

/-! ### ENG_SLOT -/

/-- The engine after a slot: in phase FLUSH after the last slot of the block, at the next slot after another. -/
theorem engineAfterSlot_cases (e : Engine) (p : Nat) (f : Word64) :
    (e.k.toNat = p - 1 ∧ engineAfterSlot e p f = { e with r := e.r ||| f, seq := seqFlush }) ∨
    (e.k.toNat ≠ p - 1 ∧ engineAfterSlot e p f = { e with r := e.r ||| f, k := e.k + 1 }) := by
  unfold engineAfterSlot
  split
  · next h => exact .inl ⟨h, rfl⟩
  · next h => exact .inr ⟨h, rfl⟩

/-- The block register after a slot holds one field more (10_state.md R36 item 5). -/
theorem BusyInv.register_after_slot {s : State} (hs : BusyInv s) (hq : s.eng.seq = seqSlot)
    (hclean : s.imgDirty = false) :
    s.eng.r ||| field s.params s.cfg (slotRead s).1 s.eng.k.toNat =
      packUpTo s s.eng.o.toNat s.eng.j.toNat (s.eng.k.toNat + 1) := by
  rw [hs.blockRegister hclean, slotsPacked_of_slot hq, slotRead_clean hclean, packUpTo]

/-- ENG_SLOT keeps what holds while BUSY. -/
theorem BusyInv.after_slot {s : State} (hs : BusyInv s) (hq : s.eng.seq = seqSlot) (d : Nat) :
    BusyInv { s with
      draws := d
      eng := engineAfterSlot s.eng (pixelsPerBlock s.cfg) (field s.params s.cfg (slotRead s).1 s.eng.k.toNat) } := by
  obtain ⟨⟨hp, hp64⟩, _, _⟩ := geometry_of_accepted hs.accepted
  have hk := hs.slotInRange
  obtain ⟨hlast, he⟩ | ⟨hinner, he⟩ := engineAfterSlot_cases s.eng (pixelsPerBlock s.cfg)
    (field s.params s.cfg (slotRead s).1 s.eng.k.toNat) <;> rw [he]
  · exact { hs with
      flushAtLastSlot := fun _ => hlast
      blockRegister := fun hclean => by
        refine ((hs.register_after_slot hq hclean).trans (congrArg _ ?_)).trans
          (SameInput.packUpTo_eq ⟨rfl, rfl, rfl, rfl⟩)
        rw [slotsPacked_of_flush rfl]
        exact hlast ▸ Nat.sub_add_cancel hp
      written := fun hclean i hi =>
        (hs.written hclean i hi).trans (congrArg some (SameInput.encodeByte_eq ⟨rfl, rfl, rfl, rfl⟩)) }
  · have hnext : (s.eng.k + 1).toNat = s.eng.k.toNat + 1 := toNat_add_one (by omega)
    exact { hs with
      slotInRange := by simp only [hnext]; omega
      flushAtLastSlot := fun hf => absurd (hq.symm.trans hf) (by decide)
      blockRegister := fun hclean => by
        refine ((hs.register_after_slot hq hclean).trans (congrArg _ ?_)).trans
          (SameInput.packUpTo_eq ⟨rfl, rfl, rfl, rfl⟩)
        rw [slotsPacked_of_slot]
        exacts [hnext.symm, hq]
      written := fun hclean i hi =>
        (hs.written hclean i hi).trans (congrArg some (SameInput.encodeByte_eq ⟨rfl, rfl, rfl, rfl⟩)) }

/-- After a slot the phase is SLOT or FLUSH. -/
theorem engineAfterSlot_seq {e : Engine} (hq : e.seq = seqSlot) (p : Nat) (f : Word64) :
    (engineAfterSlot e p f).seq = seqSlot ∨ (engineAfterSlot e p f).seq = seqFlush := by
  obtain ⟨_, he⟩ | ⟨_, he⟩ := engineAfterSlot_cases e p f <;> rw [he]
  · exact .inr rfl
  · exact .inl hq

/-! ### ENG_FLUSH -/

/-- The block being built fits in the output, and so in OUT. -/
theorem BusyInv.block_fits {s : State} (hs : BusyInv s) :
    s.eng.n.toNat + bytesPerBlock s.cfg ≤ outputLength s.cfg s.dims ∧
    outputLength s.cfg s.dims ≤ s.params.outCap.toNat := by
  obtain ⟨_, _, _, hcap, _⟩ := validate_none hs.accepted
  exact ⟨hs.position ▸ block_within_output hs.lineInRange hs.blockInRange, hcap⟩

/-- The bounds check does not fire (60_exceptions.md R203). -/
theorem BusyInv.flush_inside {s : State} (hs : BusyInv s) : flushOutside s = false := by
  obtain ⟨hfit, hcap⟩ := hs.block_fits
  simpa [flushOutside] using hfit.trans hcap

/-- Advancing the scan goes to the next block in scan order, and to the next line at the end of one (42_serializer.md
R162). -/
theorem advance_cases (e : Engine) (nb : Nat) :
    (e.j.toNat + 1 < nb ∧ advance e nb = { e with j := e.j + 1 }) ∨
    (nb ≤ e.j.toNat + 1 ∧ advance e nb = { e with j := 0, o := e.o + 1 }) := by
  unfold advance
  split
  · next h => exact .inl ⟨h, rfl⟩
  · next h => exact .inr ⟨Nat.le_of_not_lt h, rfl⟩

/-- Where the engine is once a block is written: R and `k` are cleared, and the position is the next block's. -/
theorem BusyInv.engineAfterFlush_spec {s : State} (hs : BusyInv s) :
    (engineAfterFlush s).r = 0 ∧ (engineAfterFlush s).k = 0 ∧
    (engineAfterFlush s).n.toNat = s.eng.n.toNat + bytesPerBlock s.cfg ∧
    (engineAfterFlush s).o.toNat ≤ lineCount s.cfg s.dims ∧
    (engineAfterFlush s).j.toNat < blocksPerLine s.cfg s.dims ∧
    (engineAfterFlush s).o.toNat * blocksPerLine s.cfg s.dims + (engineAfterFlush s).j.toNat =
      s.eng.o.toNat * blocksPerLine s.cfg s.dims + s.eng.j.toNat + 1 := by
  obtain ⟨_, ⟨_, hbpb⟩, hnb⟩ := geometry_of_accepted hs.accepted
  obtain ⟨hfit, _⟩ := hs.block_fits
  have hlen := outputLength_lt hs.accepted
  have hlines := lineCount_lt s.cfg s.dims
  have hline := hs.lineInRange
  have hblock := hs.blockInRange
  have hn : (s.eng.n + BitVec.ofNat 36 (bytesPerBlock s.cfg)).toNat = s.eng.n.toNat + bytesPerBlock s.cfg := by
    rw [BitVec.toNat_add, BitVec.toNat_ofNat]
    omega
  unfold engineAfterFlush
  obtain ⟨hlt, he⟩ | ⟨hge, he⟩ := advance_cases
    { s.eng with n := s.eng.n + BitVec.ofNat 36 (bytesPerBlock s.cfg), r := 0, k := 0 }
    (blocksPerLine s.cfg s.dims) <;> rw [he]
  · have hj : (s.eng.j + 1).toNat = s.eng.j.toNat + 1 := toNat_add_one (hlt.trans hnb)
    exact ⟨rfl, rfl, hn, hline.le, hj ▸ hlt, hj ▸ rfl⟩
  · have ho : (s.eng.o + 1).toNat = s.eng.o.toNat + 1 := toNat_add_one (by omega)
    refine ⟨rfl, rfl, hn, ho ▸ hline, Nat.zero_lt_of_lt hblock, ?_⟩
    have hend : s.eng.j.toNat + 1 = blocksPerLine s.cfg s.dims := Nat.le_antisymm hblock hge
    calc (s.eng.o + 1).toNat * blocksPerLine s.cfg s.dims + 0
        = s.eng.o.toNat * blocksPerLine s.cfg s.dims + blocksPerLine s.cfg s.dims := by rw [ho]; ring
      _ = s.eng.o.toNat * blocksPerLine s.cfg s.dims + s.eng.j.toNat + 1 := by rw [← hend]; rfl

/-- The block written keeps the canonical form of OUT. -/
theorem wf_outAfterFlush {s : State} (h : Memory.wf s.out) : Memory.wf (outAfterFlush s) := Memory.wf_writeBytes h _ _

/-- The block written lies inside OUT. -/
theorem BusyInv.outAfterFlush_inside {s : State} (hs : BusyInv s) (hin : ∀ c ∈ s.out, c.1 < s.params.outCap.toNat) :
    ∀ c ∈ outAfterFlush s, c.1 < s.params.outCap.toNat := by
  intro c hc
  obtain ⟨hfit, hcap⟩ := hs.block_fits
  obtain ⟨_, hlt⟩ | hold := Memory.mem_writeBytes hc
  · rw [serialize_length] at hlt
    omega
  · exact hin c hold

/-- With the block written, OUT is ENCODE up to the end of the block (42_serializer.md R164). -/
theorem BusyInv.read_outAfterFlush {s : State} (hs : BusyInv s) (hq : s.eng.seq = seqFlush)
    (hclean : s.imgDirty = false) {i : Nat} (hi : i < s.eng.n.toNat + bytesPerBlock s.cfg) :
    Memory.read (outAfterFlush s) i = some (encodeByte s i) := by
  have hblock : s.eng.r = packBlock s s.eng.o.toNat s.eng.j.toNat := by
    rw [hs.blockRegister hclean, slotsPacked_of_flush hq, packBlock]
  rw [outAfterFlush, Memory.read_writeBytes, serialize_length]
  by_cases hn : s.eng.n.toNat ≤ i
  · obtain ⟨b, rfl⟩ := Nat.exists_eq_add_of_le hn
    have hb : b < bytesPerBlock s.cfg := by omega
    rw [if_pos ⟨hn, hi⟩, Nat.add_sub_cancel_left, serialize_getElem? _ hb, hs.position,
      encodeByte_of_block s _ hs.blockInRange hb, hblock]
  · rw [if_neg fun h => hn h.1]
    exact hs.written hclean i (Nat.lt_of_not_le hn)

/-- ENG_FLUSH of a block that is not the last keeps what holds while BUSY. -/
theorem BusyInv.after_flush {s : State} (hs : BusyInv s) (hq : s.eng.seq = seqFlush)
    (hl : (engineAfterFlush s).o.toNat ≠ lineCount s.cfg s.dims) :
    BusyInv { s with out := outAfterFlush s, eng := { engineAfterFlush s with seq := seqSlot } } := by
  obtain ⟨⟨hp, _⟩, _, _⟩ := geometry_of_accepted hs.accepted
  obtain ⟨hr, hk, hn, ho, hj, hnext⟩ := hs.engineAfterFlush_spec
  exact { hs with
    lineInRange := Nat.lt_of_le_of_ne ho hl
    blockInRange := hj
    slotInRange := by simp only [hk]; exact hp
    position := by
      simp only [hn, hnext, hs.position]
      ring
    flushAtLastSlot := by simp [seqSlot, seqFlush]
    blockRegister := fun _ => by
      rw [slotsPacked_of_slot rfl]
      simp only [hr, hk]
      rfl
    written := fun hclean i hi =>
      (hs.read_outAfterFlush hq hclean (hn ▸ hi)).trans
        (congrArg some (SameInput.encodeByte_eq ⟨rfl, rfl, rfl, rfl⟩)) }

/-! ### START and reset -/

/-- GEOM after an accepted START loses nothing at its widths (10_state.md R30). -/
theorem acceptStart_geom_toNat {s : State} (hv : validate s = .none) :
    (acceptStart s).geom.ppb.toNat = pixelsPerBlock s.cfg ∧ (acceptStart s).geom.bpb.toNat = bytesPerBlock s.cfg := by
  obtain ⟨⟨_, hp⟩, ⟨_, hbpb⟩, _⟩ := geometry_of_accepted hv
  simp only [acceptStart_geom, BitVec.toNat_ofNat]
  omega

/-- OUT_LEN after an accepted START is the length of the pass (10_state.md R29). -/
theorem acceptStart_outLen_toNat {s : State} (hv : validate s = .none) :
    (outLen64 (acceptStart s).outLen).toNat = outputLength s.cfg s.dims :=
  outLen64_halves ((outputLength_lt hv).trans (by norm_num))

/-- What holds once START has accepted a pass with output (43_host_commands.md R180). -/
theorem BusyInv_acceptStart {s : State} (hv : validate s = .none) (h0 : outputLength s.cfg s.dims ≠ 0) :
    BusyInv (acceptStart s) := by
  obtain ⟨⟨hp, _⟩, _, _⟩ := geometry_of_accepted hv
  have hpos : 0 < outputLength s.cfg s.dims := Nat.pos_of_ne_zero h0
  have hline : 0 < bytesPerBlock s.cfg * lineCount s.cfg s.dims := Nat.pos_of_mul_pos_right hpos
  exact {
    accepted := hv
    nonempty := hpos
    lineInRange := Nat.pos_of_mul_pos_left hline
    blockInRange := Nat.pos_of_mul_pos_left hpos
    slotInRange := hp
    position := by simp
    flushAtLastSlot := by simp [h0, seqSlot, seqFlush]
    lengthShown := acceptStart_outLen_toNat hv
    geometryShown := acceptStart_geom_toNat hv
    notSeen := rfl
    blockRegister := fun _ => by
      rw [slotsPacked_of_slot (by simp [h0])]
      rfl
    written := fun _ i hi => absurd hi (Nat.not_lt_zero i) }

theorem Inv_acceptStart {s : State} (hs : Inv s) (hv : validate s = .none) : Inv (acceptStart s) := by
  by_cases h0 : outputLength s.cfg s.dims = 0
  · obtain ⟨⟨_, hp⟩, ⟨_, hbpb⟩, _⟩ := geometry_of_accepted hv
    obtain ⟨hppb, hshown⟩ := acceptStart_geom_toNat hv
    exact Inv_of_not_busy (by simp [h0]) (by simp [h0]) rfl (by simp [h0]) (by simp [h0])
      ⟨hppb ▸ hp, hshown ▸ hbpb⟩ (by simp [h0]) hs.outWf hs.outInside hs.imgWf rfl
  · exact Inv_of_busy (by simp [h0]) (.inl (by simp [h0])) hs.outWf hs.outInside hs.imgWf (BusyInv_acceptStart hv h0)

theorem Inv_startRefused {s : State} (hs : Inv s) (hb : s.status.state ≠ .busy) (hv : validate s ≠ .none) :
    Inv (raiseError (validate s) true s) :=
  Inv_of_not_busy (by simp) rfl rfl (by simpa using hv) (by simp) (by simp) (by simp) hs.outWf hs.outInside hs.imgWf
    (hs.settled hb)

theorem Inv_resetCore {s : State} (himg : Memory.wf s.img) : Inv (resetCore s) :=
  Inv_of_not_busy (by simp) rfl rfl (by simp) (by simp) (by simp) (by simp) .nil (by simp) himg rfl

/-- Settles O45: reset leads to IDLE with the engine at rest, and both memories are empty. -/
theorem resetMeetsInvariant : Obligations.ResetMeetsInvariant :=
  Inv_resetCore (s := State.reset) .nil

/-! ### An instruction keeps the invariant -/

/-- ENG_FLUSH of the last block ends the pass (42_serializer.md R163). -/
theorem Inv_lastBlockFlushed {s : State} (hs : Inv s) (hb : s.status.state = .busy) :
    Inv (settleOut { s with
      out := outAfterFlush s
      eng := { engineAfterFlush s with seq := seqNone }
      status.state := .done }) := by
  have hbusy := hs.busy hb
  obtain ⟨hr, _⟩ := hbusy.engineAfterFlush_spec
  exact Inv_of_not_busy (by simp) rfl hr (by simp [hs.status_of_busy hb]) hs.lengthHigh hs.geometryRange (by simp)
    (Memory.wf_eraseAll (wf_outAfterFlush hs.outWf) _)
    (fun c hc => hbusy.outAfterFlush_inside hs.outInside c (Memory.mem_eraseAll hc)) hs.imgWf rfl

theorem ExecEffect.keeps_inv {s t : State} {i : Instr} (h : ExecEffect s i t) (hs : Inv s) : Inv t := by
  cases h with
  | ignored => exact hs
  | startRefused hb hv => exact Inv_startRefused hs hb hv
  | startAccepted _ hv => exact Inv_acceptStart hs hv
  | cfgStored _ hb | dimsStored _ hb => exact { hs with busy := fun hb' => absurd hb' hb }
  | registerRead => exact Inv_reschedule hs _ s.events s.hostTurns s.draws rfl
  | statusRead =>
    by_cases hb : s.status.state = .busy
    · exact Inv_reschedule hs _ s.events s.hostTurns s.draws (by simp [hb])
    · exact { hs with busy := fun hb' => absurd hb' hb }
  | slotProcessed d hb hq =>
    exact Inv_of_busy (hs.status_of_busy hb) (engineAfterSlot_seq hq _ _) hs.outWf hs.outInside hs.imgWf
      ((hs.busy hb).after_slot hq d)
  | flushRefused hb _ hf => exact absurd hf (by simp [(hs.busy hb).flush_inside])
  | lastBlockFlushed hb => exact Inv_lastBlockFlushed hs hb
  | blockFlushed hb hq _ hl =>
    exact Inv_of_busy (hs.status_of_busy hb) (.inl rfl) (wf_outAfterFlush hs.outWf)
      ((hs.busy hb).outAfterFlush_inside hs.outInside) hs.imgWf ((hs.busy hb).after_flush hq hl)

/-! ### The acts of the environment keep the invariant -/

/-- Two pixels have different keys. -/
theorem pixelKey_inj {x y x' y' : BitVec 16} (h : pixelKey x y = pixelKey x' y') : x = x' ∧ y = y' := by
  unfold pixelKey at h
  have hx := x.isLt
  have hx' := x'.isLt
  exact ⟨BitVec.eq_of_toNat_eq (by omega), BitVec.eq_of_toNat_eq (by omega)⟩

/-- A pixel the host writes leaves every other pixel. -/
theorem imgAt_setPixel_other {x y x' y' : BitVec 16} (w : Word64) (s : State) (h : x' ≠ x ∨ y' ≠ y) :
    imgAt (setPixel x y w s) x' y' = imgAt s x' y' := by
  have hkey : pixelKey x' y' ≠ pixelKey x y := fun heq => by
    obtain ⟨hx, hy⟩ := pixelKey_inj heq
    exact h.elim (absurd hx) (absurd hy)
  rw [imgAt, setPixel_img, Memory.read_write_other _ _ hkey, imgAt]

/-- A slot inside the image has its pixel inside the image (41_block_packer.md R124). -/
theorem slotPixel_inside {c : Cfg} {dm : Dims} {o j k : Nat} (ho : o < lineCount c dm)
    (hin : slotInBounds c dm j k = true) :
    coord (slotPixel c o j k).1 < dm.width ∧ coord (slotPixel c o j k).2 < dm.height := by
  have hcoord : ∀ {v : Nat} {bound : BitVec 16}, v < bound.toNat → coord v < bound := fun {v bound} hv => by
    rw [BitVec.lt_def, coord, BitVec.toNat_ofNat, Nat.mod_eq_of_lt (hv.trans bound.isLt)]
    exact hv
  have ht : slotPosition c j k < lineLength c dm := of_decide_eq_true hin
  unfold slotPixel
  unfold lineCount at ho
  unfold lineLength at ht
  cases hscan : c.scan <;> rw [hscan] at ho ht
  · exact ⟨hcoord ht, hcoord ho⟩
  · exact ⟨hcoord ho, hcoord ht⟩

/-- A pixel written outside the image changes no block of a line of the pass. -/
theorem packUpTo_setPixel_outside {x y : BitVec 16} {w : Word64} {s : State} {o : Nat}
    (hout : ¬ (x < s.dims.width ∧ y < s.dims.height)) (ho : o < lineCount s.cfg s.dims) (j m : Nat) :
    packUpTo (setPixel x y w s) o j m = packUpTo s o j m := by
  refine packUpTo_congr (s := s) (t := setPixel x y w s) rfl rfl rfl fun k _ hin => imgAt_setPixel_other w s ?_
  obtain ⟨hx, hy⟩ := slotPixel_inside ho hin
  by_contra hsame
  obtain ⟨rfl, rfl⟩ := not_or.1 hsame |>.imp not_not.1 not_not.1
  exact hout ⟨hx, hy⟩

/-- The host's write of a pixel keeps what holds while BUSY: inside the image it sets the mark of a broken duty, and
outside it reaches no sample of the pass (20_memory.md R66). -/
theorem BusyInv.after_setPixel {s : State} (hs : BusyInv s) (hb : s.status.state = .busy) (x y : BitVec 16)
    (w : Word64) : BusyInv (setPixel x y w s) := by
  have hkept : (setPixel x y w s).imgDirty = false →
      s.imgDirty = false ∧ ¬ (x < s.dims.width ∧ y < s.dims.height) := fun h => by
    simpa [isBusy, hb] using h
  obtain ⟨hfit, _⟩ := hs.block_fits
  exact { hs with
    blockRegister := fun h => by
      obtain ⟨hclean, hout⟩ := hkept h
      exact (hs.blockRegister hclean).trans (packUpTo_setPixel_outside hout hs.lineInRange _ _).symm
    written := fun h i hi => by
      obtain ⟨hclean, hout⟩ := hkept h
      have hi : i < s.eng.n.toNat := hi
      have hline := line_of_byte (c := s.cfg) (dm := s.dims) (i := i) (by omega)
      have hbyte : encodeByte (setPixel x y w s) i = encodeByte s i :=
        encodeByte_congr (s := s) (t := setPixel x y w s) rfl rfl fun j m => packUpTo_setPixel_outside hout hline j m
      exact (hs.written hclean i hi).trans (congrArg some hbyte.symm) }

theorem Inv_setPixel {s : State} (hs : Inv s) (x y : BitVec 16) (w : Word64) : Inv (setPixel x y w s) :=
  { hs with
    imgWf := Memory.wf_write hs.imgWf _ _
    busy := fun hb => (hs.busy hb).after_setPixel hb x y w }

/-- A byte marked while BUSY changes nothing the invariant speaks of. -/
theorem Inv_byteMarked {s : State} (hs : Inv s) (hb : s.status.state = .busy) (dirty : List Nat) :
    Inv { s with outDirty := dirty } :=
  { hs with
    settled := fun hnb => absurd hb hnb
    busy := fun _ => { hs.busy hb with
      blockRegister := fun h => ((hs.busy hb).blockRegister h).trans (SameInput.packUpTo_eq ⟨rfl, rfl, rfl, rfl⟩)
      written := fun h i hi => ((hs.busy hb).written h i hi).trans
        (congrArg some (SameInput.encodeByte_eq ⟨rfl, rfl, rfl, rfl⟩)) } }

/-- A byte stored outside a pass. -/
theorem Inv_byteStored {s : State} (hs : Inv s) (hb : s.status.state ≠ .busy) {i : Nat}
    (hi : i < s.params.outCap.toNat) (v : Byte) : Inv { s with out := Memory.write s.out i v } :=
  { hs with
    outWf := Memory.wf_write hs.outWf _ _
    outInside := fun c hc => by
      obtain rfl | hold := Memory.mem_write hc
      · exact hi
      · exact hs.outInside c hold
    busy := fun hb' => absurd hb' hb }

theorem PreparedFrom.keeps_inv {s t : State} (h : PreparedFrom s t) (hs : Inv s) : Inv t := by
  obtain ⟨pc, es, w, d, rfl⟩ := h
  exact Inv_reschedule hs _ es w d rfl

theorem TurnEffect.keeps_inv {s t : State} (h : TurnEffect s t) (hs : Inv s) : Inv t := by
  cases h with
  | prepared h => exact h.keeps_inv hs
  | reset => exact Inv_resetCore hs.imgWf
  | pixelSet => exact Inv_setPixel (Inv_reschedule hs s.host _ s.hostTurns s.draws rfl) _ _ _
  | @byteMarked rest i _ _ hb =>
    exact Inv_reschedule (Inv_byteMarked hs hb (i :: s.outDirty)) s.host rest s.hostTurns s.draws rfl
  | @byteStored rest _ v _ hi hb =>
    exact Inv_reschedule (Inv_byteStored hs hb hi v) s.host rest s.hostTurns s.draws rfl
  | byteRead => exact Inv_reschedule hs _ _ s.hostTurns _ rfl

/-- Settles O46: preparing a turn keeps the invariant, and so do every instruction and every act of the environment. -/
theorem stepKeepsInvariant : Obligations.StepKeepsInvariant := by
  intro s t hs h
  obtain ⟨i, u, _, hu, he⟩ | he := step_effect h
  · exact he.keeps_inv (hu.keeps_inv hs)
  · exact he.keeps_inv hs

end Sys2Proof.Machine
end

section
/-! SUPPORT. The step rules of the scheduled events: the turn an event is, and where the acts of the host on IMG and OUT
lead (spec 20_memory.md R53, R61, R62, R66). -/

namespace Sys2Proof.Machine

/-! ### From a turn to a step -/

/-- A step depends on the next turn only. -/
theorem step_congr {s t : State} (h : nextAction s = nextAction t) : step s = step t := by
  simp only [step, h]

theorem step_of_run {s u : State} {i : Instr} (h : nextAction s = (.run i, u)) : step s = exec i u := by
  simp only [step, h]

theorem step_of_settled {s t : State} (h : nextAction s = (.settled, t)) : step s = .next t := by
  simp only [step, h]

theorem step_of_stop {s t : State} {f : Fault} (h : nextAction s = (.stop f, t)) : step s = .fault f := by
  simp only [step, h]

/-- The first event scheduled is the next turn. -/
theorem nextAction_scheduled {s : State} {e : Event} {rest : List Event} (he : s.events = e :: rest) :
    nextAction s = eventAction e { s with events := rest } := by
  simp only [nextAction, he]

/-- With no event scheduled the turn is open (20_memory.md R62). -/
theorem nextAction_unscheduled {s : State} (he : s.events = []) : nextAction s = freeAction s := by
  simp only [nextAction, he]

/-! ### The host's acts on IMG and OUT -/

section
variable {s : State} {rest : List Event} {i : Nat} {b : Byte}

theorem step_setPixel {x y : BitVec 16} {w : Word64} (he : s.events = .setPixel x y w :: rest) :
    step s = .next (setPixel x y w { s with events := rest }) :=
  step_of_settled (nextAction_scheduled he)

theorem step_writeOut_inside (hi : i < s.params.outCap.toNat) (he : s.events = .writeOut i b :: rest) :
    step s = .next (writeOut i b { s with events := rest }) :=
  step_of_settled ((nextAction_scheduled he).trans (if_pos (by simpa [outExists] using hi)))

theorem step_writeOut_outside (hi : s.params.outCap.toNat ≤ i) (he : s.events = .writeOut i b :: rest) :
    step s = .fault (.outIndexOutside i) :=
  step_of_stop ((nextAction_scheduled he).trans (if_neg (by simpa [outExists] using hi)))

theorem step_readOut_inside (hi : i < s.params.outCap.toNat) (he : s.events = .readOut i :: rest) :
    step s = .next (readOut i { s with events := rest }) :=
  step_of_settled ((nextAction_scheduled he).trans (if_pos (by simpa [outExists] using hi)))

theorem step_readOut_outside (hi : s.params.outCap.toNat ≤ i) (he : s.events = .readOut i :: rest) :
    step s = .fault (.outIndexOutside i) :=
  step_of_stop ((nextAction_scheduled he).trans (if_neg (by simpa [outExists] using hi)))

/-- While BUSY a byte the host writes is recorded, not stored (20_memory.md R66; log 12). -/
theorem writeOut_of_busy (hb : s.status.state = .busy) (i : Nat) (b : Byte) :
    writeOut i b s = { s with outDirty := i :: s.outDirty } := by
  simp [writeOut, isBusy, hb]

/-- Outside a pass a byte the host writes is stored (20_memory.md R57). -/
theorem writeOut_of_not_busy (hb : s.status.state ≠ .busy) (i : Nat) (b : Byte) :
    writeOut i b s = { s with out := Memory.write s.out i b } := by
  simp [writeOut, isBusy, hb]

end

/-- Settles O53: the index is compared with OUT_CAP before the access takes place. -/
theorem outAccessOutsideFaults : Obligations.OutAccessOutsideFaults := fun _ _ _ =>
  ⟨step_readOut_outside, fun _ => step_writeOut_outside, fun hi he => ⟨_, step_readOut_inside hi he⟩,
    fun _ hi he => ⟨_, step_writeOut_inside hi he⟩⟩

/-- Settles O54: outside BUSY the write goes to the memory OUT. -/
theorem hostWriteOfOutStoresByte : Obligations.HostWriteOfOutStoresByte := fun s rest i b hb hi he =>
  ⟨{ s with events := rest, out := Memory.write s.out i b },
    (step_writeOut_inside hi he).trans (congrArg _ (writeOut_of_not_busy (s := { s with events := rest }) hb i b)), rfl,
    fun a => Memory.read_write s.out i a b⟩

/-! ### The turn with nothing scheduled -/

/-- The turns drawn for the host replace whatever was pending. -/
theorem contestedTurn_pending (count : Nat) (s : State) (w : Option Nat) :
    contestedTurn count { s with hostTurns := w } = contestedTurn count s := by
  cases count <;> rfl

/-- Where both agents can move and no turns are pending, the open turn is that with the host's turns drawn
(70_reset_and_hazards.md R240; log 16). -/
theorem freeAction_drawn {s : State} (hen : engineEnabled s = true) (hho : hostEnabled s = true)
    (hw : s.hostTurns = none) :
    freeAction s = freeAction { s with hostTurns := some (Config.freeHostTurns s.draws), draws := s.draws + 1 } :=
  calc freeAction s = contestedTurn (Config.freeHostTurns s.draws) { s with draws := s.draws + 1 } := by
        simp [freeAction, hen, hho, hw]
    _ = contestedTurn (Config.freeHostTurns s.draws)
          { s with hostTurns := some (Config.freeHostTurns s.draws), draws := s.draws + 1 } :=
        (contestedTurn_pending _ { s with draws := s.draws + 1 } _).symm
    _ = _ := (freeAction_contested (s := { s with
        hostTurns := some (Config.freeHostTurns s.draws), draws := s.draws + 1 }) hen hho rfl).symm

/-- An engine turn scheduled alone is the engine's turn on the state without it. -/
theorem nextAction_engine_alone {s : State} (he : s.events = []) :
    nextAction { s with events := [.engine] } = engineTurn s := by
  rw [nextAction_scheduled (s := { s with events := [.engine] }) rfl, eventAction, ← he]

/-- A host turn scheduled alone is the host's turn on the state without it. -/
theorem nextAction_host_alone {s : State} (he : s.events = []) :
    nextAction { s with events := [.host] } = hostTurn s := by
  rw [nextAction_scheduled (s := { s with events := [.host] }) rfl, eventAction, ← he]

/-- Settles O43: the open turn is the engine's or the host's scheduled turn on the same state. -/
theorem openTurnIsFree : Obligations.OpenTurnIsFree := by
  intro s he
  have hopen := nextAction_unscheduled he
  refine ⟨fun hen hho => step_congr ?_, fun hen hho => step_congr ?_, fun hen hho => step_of_settled ?_,
    fun hen hho => ⟨fun hw => step_congr ?_, fun left hw => step_congr ?_, fun hw => step_congr ?_⟩⟩
  · rw [hopen, nextAction_engine_alone he]
    simp [freeAction, hen, hho]
  · rw [hopen, nextAction_host_alone he]
    simp [freeAction, hen, hho]
  · rw [hopen]
    simp [freeAction, hen, hho]
  · rw [hopen, freeAction_contested hen hho hw]
    exact (nextAction_engine_alone (s := { s with hostTurns := none }) he).symm
  · rw [hopen, freeAction_contested hen hho hw]
    exact (nextAction_host_alone (s := { s with hostTurns := some left }) he).symm
  · exact hopen.trans ((freeAction_drawn hen hho hw).trans (nextAction_unscheduled (s := { s with
      hostTurns := some (Config.freeHostTurns s.draws), draws := s.draws + 1 }) he).symm)

end Sys2Proof.Machine
end

section
/-! SUPPORT. What steps keep of the output and of the host's duties: the bytes of OUT outside a pass, the marks of a
broken duty in a pass, and the host's note of DONE (spec 20_memory.md R61, R66; 60_exceptions.md R206). -/

namespace Sys2Proof.Machine

/-! ### OUT outside a pass -/

/-- Outside BUSY no instruction writes OUT: only ENG_FLUSH does, and it is enabled while BUSY only. -/
theorem ExecEffect.out_of_not_busy {s t : State} {i : Instr} (h : ExecEffect s i t) (hb : s.status.state ≠ .busy) :
    t.out = s.out := by
  cases h with
  | flushRefused hbusy _ _ | lastBlockFlushed hbusy _ _ _ | blockFlushed hbusy _ _ _ => exact absurd hbusy hb
  | _ => rfl

theorem PreparedFrom.out_eq {s t : State} (h : PreparedFrom s t) : t.out = s.out := by
  obtain ⟨_, _, _, _, rfl⟩ := h
  rfl

/-- Of the turns that run no instruction only reset and the host's write of a byte change OUT. -/
theorem TurnEffect.out_eq_or_written {s t : State} (h : TurnEffect s t) :
    t.out = s.out ∨ s.events.head? = some .reset ∨ ∃ i b, s.events.head? = some (.writeOut i b) := by
  cases h with
  | prepared h => exact .inl h.out_eq
  | reset he => exact .inr (.inl (by rw [he]; rfl))
  | byteStored he _ _ => exact .inr (.inr ⟨_, _, by rw [he]; rfl⟩)
  | pixelSet _ | byteMarked _ _ | byteRead _ => exact .inl rfl

/-- Settles O51: outside BUSY no instruction writes OUT, START included, and two acts of the environment do. -/
theorem outputStableOutsidePass : Obligations.OutputStableOutsidePass := by
  intro s t hb h
  obtain ⟨i, u, _, hu, he⟩ | he := step_effect h
  · exact .inl ((he.out_of_not_busy (hu.status_eq ▸ hb)).trans hu.out_eq)
  · exact he.out_eq_or_written

/-! ### The marks of a broken duty -/

/-- `t` has the marks of a broken duty that `s` has: of a changed image, and of each byte of OUT written (20_memory.md
R66). -/
def MarksKept (s t : State) : Prop := (s.imgDirty = true → t.imgDirty = true) ∧ ∀ i ∈ s.outDirty, i ∈ t.outDirty

theorem MarksKept.of_eq {s t : State} (himg : t.imgDirty = s.imgDirty) (hout : t.outDirty = s.outDirty) :
    MarksKept s t :=
  ⟨fun h => himg.trans h, fun _ h => hout ▸ h⟩

theorem PreparedFrom.marks_eq {s t : State} (h : PreparedFrom s t) :
    t.imgDirty = s.imgDirty ∧ t.outDirty = s.outDirty := by
  obtain ⟨_, _, _, _, rfl⟩ := h
  exact ⟨rfl, rfl⟩

/-- An instruction clears a mark only where it begins a pass or ends one. -/
theorem ExecEffect.marks_eq {s t : State} {i : Instr} (h : ExecEffect s i t) (hb : s.status.state = .busy)
    (hb' : t.status.state = .busy) : t.imgDirty = s.imgDirty ∧ t.outDirty = s.outDirty := by
  cases h with
  | startAccepted hnb _ => exact absurd hb hnb
  | flushRefused _ _ _ | lastBlockFlushed _ _ _ _ => cases hb'
  | _ => exact ⟨rfl, rfl⟩

/-- Without an instruction a mark is cleared by reset only. -/
theorem TurnEffect.marks_kept {s t : State} (h : TurnEffect s t) (hb' : t.status.state = .busy) : MarksKept s t := by
  cases h with
  | prepared h => exact .of_eq h.marks_eq.1 h.marks_eq.2
  | reset _ => cases hb'
  | pixelSet _ => exact ⟨fun h => by simp [h], fun _ => id⟩
  | byteMarked _ _ => exact ⟨id, fun _ => List.mem_cons_of_mem _⟩
  | byteStored _ _ _ | byteRead _ => exact .of_eq rfl rfl

/-- Within a pass a step keeps the marks. -/
theorem step_keeps_marks {s t : State} (h : step s = .next t) (hb : s.status.state = .busy)
    (hb' : t.status.state = .busy) : MarksKept s t := by
  obtain ⟨i, u, _, hu, he⟩ | he := step_effect h
  · obtain ⟨himg, hout⟩ := he.marks_eq (hu.status_eq ▸ hb) hb'
    exact .of_eq (himg.trans hu.marks_eq.1) (hout.trans hu.marks_eq.2)
  · exact he.marks_kept hb'

/-- An instruction that ends the pass leaves no value in the bytes the host wrote during it (20_memory.md R66; log
12). -/
theorem ExecEffect.written_bytes_dropped {s t : State} {i : Instr} (h : ExecEffect s i t)
    (hb : s.status.state = .busy) (hb' : t.status.state ≠ .busy) {a : Nat} (ha : a ∈ s.outDirty) :
    Memory.read t.out a = none := by
  cases h with
  | startRefused hnb _ | startAccepted hnb _ => exact absurd hb hnb
  | flushRefused _ _ _ | lastBlockFlushed _ _ _ _ => simp [Memory.read_eraseAll, ha]
  | _ => exact absurd hb hb'

/-- Without an instruction the pass ends by reset only, which leaves no value in any byte. -/
theorem TurnEffect.bytes_dropped {s t : State} (h : TurnEffect s t) (hb : s.status.state = .busy)
    (hb' : t.status.state ≠ .busy) (a : Nat) : Memory.read t.out a = none := by
  cases h with
  | prepared h => exact absurd (h.status_eq ▸ hb) hb'
  | reset _ => rfl
  | pixelSet _ | byteMarked _ _ | byteStored _ _ _ | byteRead _ => exact absurd hb hb'

theorem step_ending_pass_drops_written_bytes {s t : State} (h : step s = .next t) (hb : s.status.state = .busy)
    (hb' : t.status.state ≠ .busy) {a : Nat} (ha : a ∈ s.outDirty) : Memory.read t.out a = none := by
  obtain ⟨i, u, _, hu, he⟩ | he := step_effect h
  · exact he.written_bytes_dropped (hu.status_eq ▸ hb) hb' (hu.marks_eq.2 ▸ ha)
  · exact he.bytes_dropped hb hb' a

/-- With the image changed in the pass, the value of a slot inside the image is that of a free sample (20_memory.md
R66). -/
theorem slotRead_dirty {s : State} (hdirty : s.imgDirty = true)
    (hin : slotInBounds s.cfg s.dims s.eng.j.toNat s.eng.k.toNat = true) :
    slotRead s = (quantizeSample (Config.freeSample s.draws) (depthOf s.cfg) s.cfg.invert,
      { s with draws := s.draws + 1 }) := by
  simp only [slotRead, hin, if_true, sampleRead_dirty hdirty]

/-- ENG_SLOT where it is enabled. -/
theorem exec_engSlot_enabled {s : State} (hb : s.status.state = .busy) (hq : s.eng.seq = seqSlot) :
    exec .engSlot s = .next (processSlot s) := by
  have hen : slotEnabled s = true := by simp [slotEnabled, isBusy, hb, hq]
  exact congrArg Host.Outcome.next (if_pos hen)

/-- Settles O52: the two acts set their marks, steps of the pass keep them, a slot read under the first is a draw, and
the end of the pass drops the bytes under the second. -/
theorem brokenDutiesGiveDraws : Obligations.BrokenDutiesGiveDraws := by
  refine ⟨?_, fun s t h hb hb' => (step_keeps_marks h hb hb').1, ?_, ?_,
    fun s t h hb hb' => (step_keeps_marks h hb hb').2,
    fun s t h hb hb' i => step_ending_pass_drops_written_bytes h hb hb'⟩
  · intro s rest x y w hb he hx hy
    exact ⟨_, step_setPixel he, by simp [isBusy, hb, hx, hy], rfl⟩
  · intro s hb hq hdirty hin
    rw [exec_engSlot_enabled hb hq, processSlot, slotRead_dirty hdirty hin]
  · intro s rest i b hb he hi
    refine ⟨_, step_writeOut_inside hi he, ?_⟩
    rw [writeOut_of_busy (s := { s with events := rest }) hb]
    exact ⟨List.mem_cons_self, rfl⟩

/-! ### The host's note of DONE -/

theorem PreparedFrom.seenDone_eq {s t : State} (h : PreparedFrom s t) : t.host.seenDone = s.host.seenDone := by
  obtain ⟨_, _, _, _, rfl⟩ := h
  rfl

/-- No instruction but START takes back the host's note of DONE. -/
theorem ExecEffect.seenDone_kept {s t : State} {i : Instr} (h : ExecEffect s i t) (hseen : s.host.seenDone = true) :
    t.host.seenDone = true ∨ i = .start := by
  cases h with
  | startAccepted _ _ => exact .inr rfl
  | statusRead => exact .inl (by simp [hseen])
  | _ => exact .inl hseen

theorem TurnEffect.seenDone_kept {s t : State} (h : TurnEffect s t) (hseen : s.host.seenDone = true) :
    t.host.seenDone = true ∨ s.events.head? = some .reset := by
  cases h with
  | prepared h => exact .inl (h.seenDone_eq.trans hseen)
  | reset he => exact .inr (by rw [he]; rfl)
  | pixelSet _ | byteMarked _ _ | byteStored _ _ _ | byteRead _ => exact .inl hseen

/-- The host's note of DONE is kept by every step but a START or a reset (20_memory.md R61; log 14). -/
theorem step_keeps_seenDone {s t : State} (h : step s = .next t) (hseen : s.host.seenDone = true) :
    t.host.seenDone = true ∨ (∃ u, nextAction s = (.run .start, u)) ∨ s.events.head? = some .reset := by
  obtain ⟨i, u, hn, hu, he⟩ | he := step_effect h
  · obtain hkept | rfl := he.seenDone_kept (hu.seenDone_eq.trans hseen)
    · exact .inl hkept
    · exact .inr (.inl ⟨u, hn⟩)
  · exact (he.seenDone_kept hseen).imp_right .inr

/-! ### Host reads of OUT -/

section
variable {s : State} {rest : List Event} {i : Nat}

/-- A host read that is a draw returns a free byte and counts the draw (log 4). -/
theorem step_readOut_draw (hdraw : outByteSeen { s with events := rest } i = drawByte { s with events := rest })
    (hi : i < s.params.outCap.toNat) (he : s.events = .readOut i :: rest) :
    step s = .next { s with
      events := rest
      draws := s.draws + 1
      host := { s.host with outReads := (i, Config.freeByte s.draws) :: s.host.outReads } } := by
  rw [step_readOut_inside hi he, readOut, hdraw, drawByte]

/-- Once the host has read DONE, its read of a byte that holds a value returns the value. -/
theorem step_readOut_held {b : Byte} (hseen : s.host.seenDone = true) (hi : i < s.params.outCap.toNat)
    (hheld : Memory.read s.out i = some b) (he : s.events = .readOut i :: rest) :
    step s = .next { s with events := rest, host := { s.host with outReads := (i, b) :: s.host.outReads } } := by
  rw [step_readOut_inside hi he, readOut, outByteSeen_some (s := { s with events := rest }) hseen hheld]

/-- RD_STATUS in DONE notes it, and adds a read (43_host_commands.md R192). -/
theorem exec_rdStatus_done (hdone : s.status.state = .done) :
    exec .rdStatus s = .next { returnToHost s .status with host.seenDone := true } :=
  congrArg Host.Outcome.next (if_pos hdone)

end

/-- Settles O56: a read of OUT looks at the note of DONE, then at what the byte holds; RD_STATUS sets the note in DONE,
and only START and reset take it back. -/
theorem outputVisibleAfterDone : Obligations.OutputVisibleAfterDone := by
  refine ⟨?_, ?_, fun s rest i b => step_readOut_held, ?_, fun s t => step_keeps_seenDone, ?_⟩
  · rintro s rest i ⟨hdone, _, hbytes⟩ hlen hi he
    exact ⟨_, _, exec_rdStatus_done hdone,
      step_readOut_held (s := { returnToHost s .status with host.seenDone := true }) rfl hi (hbytes i hlen) he, rfl, rfl⟩
  · rintro s rest i ⟨_, _, hbytes⟩ hseen hlen hi he
    exact ⟨_, step_readOut_held hseen hi (hbytes i hlen) he, rfl, rfl⟩
  · intro s rest i hseen hi hnone he
    exact step_readOut_draw (outByteSeen_none (s := { s with events := rest }) hseen hnone) hi he
  · intro s rest i hseen hi he
    exact ⟨_, step_readOut_draw (outByteSeen_unseen (s := { s with events := rest }) hseen i) hi he, rfl, rfl⟩

end Sys2Proof.Machine
end

section
/-! SUPPORT. An engine step reads neither the host nor the schedule, and a host turn during a pass changes nothing else;
so a mixture of both leaves the core where the engine turns alone leave it (spec 20_memory.md R62; 42_serializer.md
R166). -/

namespace Sys2Proof.Machine

/-! ### The same core -/

/-- `s` with another host and another schedule. -/
def reschedule (h : HostAgent) (es : List Event) (w : Option Nat) (s : State) : State :=
  { s with host := h, events := es, hostTurns := w }

/-- `t` differs from `s` at most in the host and the schedule. -/
def SameCore (s t : State) : Prop := ∃ h es w, t = reschedule h es w s

theorem SameCore.refl (s : State) : SameCore s s := ⟨s.host, s.events, s.hostTurns, rfl⟩

theorem SameCore.trans {s t u : State} (hst : SameCore s t) (htu : SameCore t u) : SameCore s u := by
  obtain ⟨_, _, _, rfl⟩ := hst
  obtain ⟨h, es, w, rfl⟩ := htu
  exact ⟨h, es, w, rfl⟩

theorem SameCore.coreView_eq {s t : State} (h : SameCore s t) : coreView t = coreView s := by
  obtain ⟨_, _, _, rfl⟩ := h
  rfl

theorem SameCore.status_eq {s t : State} (h : SameCore s t) : t.status = s.status := by
  obtain ⟨_, _, _, rfl⟩ := h
  rfl

/-! ### An engine step reads neither the host nor the schedule -/

section
variable (h : HostAgent) (es : List Event) (w : Option Nat) (s : State)

theorem sampleRead_reschedule (x y : BitVec 16) :
    sampleRead (reschedule h es w s) x y = ((sampleRead s x y).1, reschedule h es w (sampleRead s x y).2) := by
  cases hd : s.imgDirty
  · rw [sampleRead_clean (s := reschedule h es w s) hd, sampleRead_clean hd]
    rfl
  · rw [sampleRead_dirty (s := reschedule h es w s) hd, sampleRead_dirty hd]
    rfl

theorem slotRead_reschedule :
    slotRead (reschedule h es w s) = ((slotRead s).1, reschedule h es w (slotRead s).2) := by
  by_cases hin : slotInBounds s.cfg s.dims s.eng.j.toNat s.eng.k.toNat = true
  · have hin' : slotInBounds (reschedule h es w s).cfg (reschedule h es w s).dims (reschedule h es w s).eng.j.toNat
        (reschedule h es w s).eng.k.toNat = true := hin
    simp only [slotRead, if_pos hin, if_pos hin', sampleRead_reschedule]
    rfl
  · have hin' : ¬ slotInBounds (reschedule h es w s).cfg (reschedule h es w s).dims
        (reschedule h es w s).eng.j.toNat (reschedule h es w s).eng.k.toNat = true := hin
    simp only [slotRead, if_neg hin, if_neg hin']
    rfl

theorem processSlot_reschedule : processSlot (reschedule h es w s) = reschedule h es w (processSlot s) := by
  rw [processSlot, slotRead_reschedule]
  rfl

theorem flushBlock_reschedule : flushBlock (reschedule h es w s) = reschedule h es w (flushBlock s) := by
  rw [flushBlock, flushBlock, apply_ite (reschedule h es w), apply_ite (reschedule h es w)]
  rfl

/-- A micro-operation reads neither the host nor the schedule, and leaves both as they are. -/
theorem exec_engine_reschedule {i : Instr} (hi : i = .engSlot ∨ i = .engFlush) {t : State}
    (hexec : exec i s = .next t) : exec i (reschedule h es w s) = .next (reschedule h es w t) := by
  obtain rfl | rfl := hi <;> cases hexec <;> refine congrArg Host.Outcome.next ?_
  · rw [apply_ite (reschedule h es w), ← processSlot_reschedule]
    rfl
  · rw [apply_ite (reschedule h es w), ← flushBlock_reschedule]
    rfl

end

/-! ### An engine turn -/

/-- The engine's scheduled turn, where it has a micro-operation. -/
theorem step_engine_fetched {s : State} {rest : List Event} {i : Instr} (he : s.events = .engine :: rest)
    (hf : engineFetch s = some i) : step s = exec i { s with events := rest } := by
  obtain ⟨j, hj, hturn⟩ | ⟨hnone, _⟩ := engineTurn_cases { s with events := rest }
  · cases hf.symm.trans hj
    exact step_of_run ((nextAction_scheduled he).trans hturn)
  · cases hf.symm.trans hnone

/-- The engine's scheduled turn, where it has none. -/
theorem step_engine_idle {s : State} {rest : List Event} (he : s.events = .engine :: rest)
    (hf : engineFetch s = none) : step s = .next { s with events := rest } := by
  obtain ⟨j, hj, _⟩ | ⟨_, hturn⟩ := engineTurn_cases { s with events := rest }
  · cases hf.symm.trans hj
  · exact step_of_settled ((nextAction_scheduled he).trans hturn)

/-- The engine's scheduled turn answers a next state. -/
theorem step_engine_next {s : State} {rest : List Event} (he : s.events = .engine :: rest) :
    ∃ t, step s = .next t := by
  cases hf : engineFetch s with
  | none => exact ⟨_, step_engine_idle he hf⟩
  | some i =>
    obtain ⟨t, ht⟩ := exec_next i { s with events := rest }
    exact ⟨t, (step_engine_fetched he hf).trans ht⟩

/-- No instruction touches the schedule. -/
theorem ExecEffect.events_eq {s t : State} {i : Instr} (h : ExecEffect s i t) : t.events = s.events := by
  cases h <;> rfl

/-- From the same core an engine turn leads to the same core, whatever the host and the rest of the schedule. -/
theorem step_engine_sameCore {s t s' : State} {rest rest' : List Event} (hst : SameCore s t)
    (hs : s.events = .engine :: rest) (ht : t.events = .engine :: rest') (hstep : step s = .next s') :
    s'.events = rest ∧ ∃ t', step t = .next t' ∧ SameCore s' t' ∧ t'.events = rest' := by
  obtain ⟨h, es, w, rfl⟩ := hst
  cases hf : engineFetch s with
  | none =>
    cases (step_engine_idle hs hf).symm.trans hstep
    exact ⟨rfl, _, step_engine_idle (s := reschedule h es w s) ht hf, ⟨h, rest', w, rfl⟩, rfl⟩
  | some i =>
    have hexec := (step_engine_fetched hs hf).symm.trans hstep
    obtain ⟨_, hi⟩ := engineFetch_eq_some hf
    have hmicro : i = .engSlot ∨ i = .engFlush := hi.imp And.right And.right
    refine ⟨(exec_effect hexec).events_eq, reschedule h rest' w s', ?_, ⟨h, rest', w, rfl⟩, rfl⟩
    exact (step_engine_fetched (s := reschedule h es w s) ht hf).trans
      (exec_engine_reschedule h rest' w { s with events := rest } hmicro hexec)

/-- An engine turn begins no pass. -/
theorem busy_of_step_engine {s t : State} {rest : List Event} (he : s.events = .engine :: rest)
    (hstep : step s = .next t) (hb : t.status.state = .busy) : s.status.state = .busy := by
  cases hf : engineFetch s with
  | none =>
    cases (step_engine_idle he hf).symm.trans hstep
    exact hb
  | some i => exact (engineFetch_eq_some hf).1

/-! ### A host turn during a pass -/

/-- A HOST word decodes to a host transaction (30_encoding.md R70, R72). -/
theorem isHostInstr_decodeHost (t : Txn) : isHostInstr (decodeHost t) = true := by
  unfold decodeHost
  split
  case h_1 => split <;> rfl
  all_goals rfl

/-- While BUSY a host transaction changes at most what the host has read (70_reset_and_hazards.md R234, R235). -/
theorem ExecEffect.sameCore_of_host {s t : State} {i : Instr} (h : ExecEffect s i t) (hi : isHostInstr i = true)
    (hb : s.status.state = .busy) : SameCore s t := by
  cases h with
  | ignored => exact .refl s
  | registerRead | statusRead => exact ⟨_, s.events, s.hostTurns, rfl⟩
  | startRefused hnb _ | startAccepted hnb _ | cfgStored _ hnb | dimsStored _ hnb => exact absurd hb hnb
  | slotProcessed _ _ _ | flushRefused _ _ _ | lastBlockFlushed _ _ _ _ | blockFlushed _ _ _ _ => cases hi

/-- While BUSY a host turn completes and leaves the core as it is. -/
theorem step_host_sameCore {s : State} {rest : List Event} (he : s.events = .host :: rest)
    (hb : s.status.state = .busy) : ∃ t, step s = .next t ∧ SameCore s t ∧ t.events = rest := by
  have hturn : nextAction s = hostTurn { s with events := rest } := nextAction_scheduled he
  obtain ⟨word, _, hc⟩ | ⟨_, _, _, hc⟩ | ⟨_, _, _, hc⟩ | ⟨_, hc⟩ := hostTurn_cases { s with events := rest } <;>
    rw [hc] at hturn
  · obtain ⟨t, ht⟩ := exec_next (decodeHost word) (hostNext { s with events := rest })
    have heffect := exec_effect ht
    have hprepared : SameCore s (hostNext { s with events := rest }) := ⟨_, rest, s.hostTurns, rfl⟩
    exact ⟨t, (step_of_run hturn).trans ht,
      hprepared.trans (heffect.sameCore_of_host (isHostInstr_decodeHost word) hb), heffect.events_eq⟩
  · exact ⟨_, step_of_settled hturn, ⟨_, rest, s.hostTurns, rfl⟩, rfl⟩
  · exact ⟨_, step_of_settled hturn, ⟨_, rest, s.hostTurns, rfl⟩, rfl⟩
  · exact ⟨_, step_of_settled hturn, ⟨_, rest, s.hostTurns, rfl⟩, rfl⟩

/-! ### Runs -/

/-- A run takes its first step first. -/
theorem run_succ_of_step {s t : State} (k : Nat) (h : step s = .next t) :
    Sys2Proof.core.run (k + 1) s = Sys2Proof.core.run k t := by
  have hcore : Sys2Proof.core.step s = .next t := h
  simp only [Host.Core.run, hcore]

/-- A run that answers a next state has a first step. -/
theorem step_of_run_succ {k : Nat} {s u : State} (h : Sys2Proof.core.run (k + 1) s = .next u) :
    ∃ t, step s = .next t ∧ Sys2Proof.core.run k t = .next u := by
  cases hstep : Sys2Proof.core.step s with
  | next t => exact ⟨t, hstep, (run_succ_of_step k hstep).symm.trans h⟩
  | fault f => simp [Host.Core.run, hstep] at h
  | refused r => simp [Host.Core.run, hstep] at h

/-- One step more takes the step of the state reached. -/
theorem run_succ_last {k : Nat} {s t : State} (h : Sys2Proof.core.run k s = .next t) :
    Sys2Proof.core.run (k + 1) s = step t := by
  induction k generalizing s with
  | zero =>
    cases h
    change Sys2Proof.core.run 1 t = Sys2Proof.core.step t
    cases hstep : Sys2Proof.core.step t <;> simp [Host.Core.run, hstep]
  | succ k ih =>
    obtain ⟨s', hstep, hrun⟩ := step_of_run_succ h
    rw [run_succ_of_step _ hstep, ih hrun]

/-- A run of engine turns that is BUSY at its end was BUSY at its start. -/
theorem busy_of_run_engine {n : Nat} {s u : State} {tail : List Event}
    (hs : s.events = List.replicate n .engine ++ tail)
    (hrun : Sys2Proof.core.run n s = .next u) (hu : u.status.state = .busy) : s.status.state = .busy := by
  induction n generalizing s with
  | zero =>
    cases hrun
    exact hu
  | succ n ih =>
    obtain ⟨t, hstep, hrest⟩ := step_of_run_succ hrun
    obtain ⟨hevents, _⟩ := step_engine_sameCore (.refl s) hs hs hstep
    exact busy_of_step_engine hs hstep (ih hevents hrest)

/-- From the same core, a mixture of host and engine turns leads to the core that its engine turns alone lead to, where
they leave the pass BUSY. -/
theorem run_interleaved {turns : List Event} (hturns : ∀ e ∈ turns, e = .host ∨ e = .engine) {s t u : State}
    {tail : List Event} (hst : SameCore s t) (hs : s.events = List.replicate (turns.count .engine) .engine)
    (ht : t.events = turns ++ tail) (hrun : Sys2Proof.core.run (turns.count .engine) s = .next u)
    (hu : u.status.state = .busy) :
    ∃ v, Sys2Proof.core.run turns.length t = .next v ∧ SameCore u v ∧ v.events = tail := by
  induction turns generalizing s t with
  | nil =>
    cases hrun
    exact ⟨t, rfl, hst, ht⟩
  | cons e turns ih =>
    have hbusy : s.status.state = .busy := busy_of_run_engine (hs.trans (List.append_nil _).symm) hrun hu
    obtain ⟨he, hothers⟩ := List.forall_mem_cons.1 hturns
    obtain rfl | rfl := he
    · rw [List.count_cons_of_ne (by decide)] at hs hrun
      obtain ⟨t', hstep, hcore, hevents⟩ := step_host_sameCore ht (hst.status_eq ▸ hbusy)
      obtain ⟨v, hv, hresult⟩ := ih hothers (hst.trans hcore) hs hevents hrun
      exact ⟨v, (run_succ_of_step _ hstep).trans hv, hresult⟩
    · rw [List.count_cons_self] at hs hrun
      obtain ⟨s', hstep, hrest⟩ := step_of_run_succ hrun
      obtain ⟨hs', t', hstep', hcore, hevents⟩ := step_engine_sameCore hst hs ht hstep
      obtain ⟨v, hv, hresult⟩ := ih hothers hcore hs' hevents hrest
      exact ⟨v, (run_succ_of_step _ hstep').trans hv, hresult⟩

/-- Settles O59: the mixture leads to the core of the engine turns alone, and one engine turn more keeps the two the
same. -/
theorem interleavingDoesNotMatter : Obligations.InterleavingDoesNotMatter := by
  intro s u turns hturns hb _ hrun hu
  have hmixed := fun tail : List Event => run_interleaved (tail := tail) hturns
    (s := { s with events := List.replicate (turns.count .engine) .engine }) (t := { s with events := turns ++ tail })
    ⟨s.host, turns ++ tail, s.hostTurns, rfl⟩ rfl rfl hrun hu
  constructor
  · obtain ⟨t, ht, hcore, _⟩ := hmixed []
    rw [List.append_nil] at ht
    exact ⟨t, ht, hcore.coreView_eq⟩
  · obtain ⟨t, ht, hcore, hevents⟩ := hmixed [.engine]
    have hcore : SameCore { u with events := [.engine] } t :=
      SameCore.trans ⟨u.host, u.events, u.hostTurns, rfl⟩ hcore
    obtain ⟨v, hv⟩ := step_engine_next (s := { u with events := [.engine] }) rfl
    obtain ⟨_, t', ht', hlast, _⟩ := step_engine_sameCore hcore rfl hevents hv
    exact ⟨t', v, (run_succ_last ht).trans ht', hv, hlast.coreView_eq⟩

end Sys2Proof.Machine
end

section
/-! SUPPORT. The HOST words as their three fields, what decoding reads of each, the two round trips between words and
instructions, and the row a word selects (spec 30_encoding.md R71 to R76). -/

namespace Sys2Proof.Machine

open Sys2Proof.Laws

/-! ### A HOST word and its fields (30_encoding.md R71) -/

/-- A HOST word is made of its three fields. -/
theorem txnOf_fields (t : Txn) : txnOf (txnWe t) (txnReg t) (txnData t) = t := by
  apply BitVec.eq_of_getLsbD_eq
  intro i hi
  simp only [txnOf, txnWe, txnReg, txnData, BitVec.getLsbD_append, BitVec.getLsbD_ofBool, BitVec.getLsbD_extractLsb']
  interval_cases i <;> simp

@[simp] theorem regOfNumber_number (r : Reg) : regOfNumber r.number = r := by
  cases r <;> rfl

theorem number_regOfNumber : ∀ n : BitVec 3, (regOfNumber n).number = n := by
  decide

/-- Every HOST word is the word of a direction, a register and a DATA. -/
theorem exists_txnOf (t : Txn) : ∃ (we : Bool) (r : Reg) (data : Word32), t = txnOf we r.number data :=
  ⟨txnWe t, regOfNumber (txnReg t), txnData t, by rw [number_regOfNumber, txnOf_fields]⟩

/-- A mask that keeps WE and REG acts on DATA alone. -/
theorem txnOf_and_dataMask (we : Bool) (reg : BitVec 3) (data mask : Word32) :
    txnOf we reg data &&& txnOf true 7 mask = txnOf we reg (data &&& mask) := by
  have hwe : BitVec.ofBool we &&& BitVec.ofBool true = BitVec.ofBool we := BitVec.and_allOnes
  have hreg : reg &&& 7 = reg := BitVec.and_allOnes
  have hfields : (BitVec.ofBool we ++ reg ++ data) &&& (BitVec.ofBool true ++ (7 : BitVec 3) ++ mask) =
      BitVec.ofBool we ++ reg ++ (data &&& mask) := by
    rw [BitVec.and_append, BitVec.and_append, hwe, hreg]
  exact hfields

/-! ### What decoding reads of a HOST word (30_encoding.md R72, R76) -/

theorem decodeHost_write_dims (data : Word32) : decodeHost (txnOf true 2 data) = wrDimsOfData data := by
  simp [decodeHost, regOfNumber]

/-- A read decodes alike for every DATA. -/
theorem decodeHost_read (r : Reg) (data : Word32) :
    decodeHost (txnOf false r.number data) = decodeHost (txnOf false r.number 0) := by
  cases r <;> simp [decodeHost]

/-- A write of a read-only or reserved register decodes alike for every DATA. -/
theorem decodeHost_write_ignored {r : Reg} (h : r ∉ [Reg.ctrl, .cfg, .dims]) (data : Word32) :
    decodeHost (txnOf true r.number data) = decodeHost (txnOf true r.number 0) := by
  cases r <;> simp [decodeHost] at h ⊢

/-! ### The operands in DATA (30_encoding.md R74, R75) -/

theorem scanOfBit_bit (scan : Scan) : scanOfBit scan.bit = scan := by
  cases scan <;> rfl

/-- The operands of a CFG word are those it was made of. -/
theorem wrCfgOfData_cfgData (depth blockBits : BitVec 7) (scan : Scan) (invert : Bool) :
    wrCfgOfData (cfgData depth blockBits scan invert) = .wrCfg depth blockBits scan invert := by
  have hdepth : (cfgData depth blockBits scan invert).extractLsb' 0 7 = depth := by
    apply BitVec.eq_of_getLsbD_eq
    intro i hi
    have hlow : i < 8 := by omega
    simp [getLsbD_cfgData _ _ _ _ (show i < 32 by omega), hi, hlow]
  have hblock : (cfgData depth blockBits scan invert).extractLsb' 8 7 = blockBits := by
    apply BitVec.eq_of_getLsbD_eq
    intro i hi
    have hlow : 8 + i < 16 := by omega
    simp [getLsbD_cfgData _ _ _ _ (show 8 + i < 32 by omega), hi, hlow]
  have hscan : (cfgData depth blockBits scan invert).getLsbD 16 = scan.bit :=
    getLsbD_cfgData depth blockBits scan invert (by decide)
  have hinvert : (cfgData depth blockBits scan invert).getLsbD 17 = invert :=
    getLsbD_cfgData depth blockBits scan invert (by decide)
  rw [wrCfgOfData, hdepth, hblock, hscan, hinvert, scanOfBit_bit]

/-- A DIMS word is its two fields side by side. -/
theorem dimsData_eq_append (width height : BitVec 16) : dimsData width height = height ++ width := by
  rw [dimsData, BitVec.or_comm, ← BitVec.setWidth_append_eq_shiftLeft_setWidth_or, BitVec.setWidth_eq]

/-- The operands of a DIMS word are those it was made of. -/
theorem wrDimsOfData_dimsData (width height : BitVec 16) :
    wrDimsOfData (dimsData width height) = .wrDims width height := by
  rw [wrDimsOfData, dimsData_eq_append, BitVec.extractLsb'_append_eq_right, BitVec.extractLsb'_append_eq_left]

/-- The DIMS word of the two halves of a word is that word. -/
theorem dimsData_of_fields (data : Word32) : dimsData (data.extractLsb' 0 16) (data.extractLsb' 16 16) = data :=
  (dimsData_eq_append _ _).trans BitVec.extractLsb'_append_extractLsb'

/-! ### The round trips -/

/-- Settles O1: the operands of WR_CFG and WR_DIMS come back from their DATA, and the other words are fixed. -/
theorem decodeOfEncodeGivesInstruction : Obligations.DecodeOfEncodeGivesInstruction := by
  intro i
  cases i with
  | wrCfg depth blockBits scan invert =>
    exact congrArg Except.ok ((decodeHost_write_cfg _).trans (wrCfgOfData_cfgData depth blockBits scan invert))
  | wrDims width height =>
    exact congrArg Except.ok ((decodeHost_write_dims _).trans (wrDimsOfData_dimsData width height))
  | start | wrCtrlNop | wrStatus | wrOutLenLo | wrOutLenHi | wrGeom | wrRsvd7 => rfl
  | rdCtrl | rdCfg | rdDims | rdStatus | rdOutLenLo | rdOutLenHi | rdGeom | rdRsvd7 => rfl
  | engSlot | engFlush => rfl

/-- Encoding gives the used bits back, where it does so for the instruction decoded. -/
theorem keepsUsedBits_of_decode {t : Txn} {i : Instr} (hdecode : decodeHost t = i)
    (hencode : encode i = .host (t &&& i.usedBits)) :
    encode (decodeHost t) = .host (t &&& (decodeHost t).usedBits) :=
  hdecode ▸ hencode

/-- A write of CTRL reads bit 0 of its DATA and no other (30_encoding.md R72). -/
theorem write_ctrl_keepsUsedBits (data : Word32) :
    encode (decodeHost (txnOf true 0 data)) =
      .host (txnOf true 0 data &&& (decodeHost (txnOf true 0 data)).usedBits) := by
  have hmask : txnOf true 0 data &&& 0xF00000001 = txnOf true 0 (data &&& 1) := txnOf_and_dataMask _ _ _ 1
  have hbit : data &&& 1 = if data.getLsbD 0 then 1 else 0 := BitVec.and_one_eq_setWidth_ofBool_getLsbD.trans (by
    cases data.getLsbD 0 <;> rfl)
  rw [hbit] at hmask
  refine keepsUsedBits_of_decode (decodeHost_write_ctrl data) ?_
  cases hdata : data.getLsbD 0 <;> rw [hdata] at hmask <;> exact congrArg Encoded.host hmask.symm

/-- Settles O2: on a read and on a write of an ignored register no bit of DATA is used; CTRL uses bit 0, CFG the bits of
its fields, DIMS all. -/
theorem encodeOfDecodeKeepsUsedBits : Obligations.EncodeOfDecodeKeepsUsedBits := by
  intro t
  obtain ⟨we, r, data, rfl⟩ := exists_txnOf t
  have hclear : txnOf we r.number data &&& 0xF00000000 = txnOf we r.number 0 := txnOf_and_mask _ _ _
  cases we with
  | false => cases r <;> exact keepsUsedBits_of_decode (decodeHost_read _ data) (congrArg Encoded.host hclear.symm)
  | true =>
    cases r with
    | ctrl => exact write_ctrl_keepsUsedBits data
    | cfg =>
      have hmask : txnOf true 1 data &&& 0xF00037F7F = txnOf true 1 (data &&& 0x00037F7F) :=
        txnOf_and_dataMask _ _ _ 0x00037F7F
      have hword := congrArg (txnOf true 1) (cfgData_of_fields data)
      exact keepsUsedBits_of_decode (decodeHost_write_cfg data) (congrArg Encoded.host (hword.trans hmask.symm))
    | dims =>
      have hmask : txnOf true 2 data &&& 0xFFFFFFFFF = txnOf true 2 data := BitVec.and_allOnes
      have hword := congrArg (txnOf true 2) (dimsData_of_fields data)
      exact keepsUsedBits_of_decode (decodeHost_write_dims data) (congrArg Encoded.host (hword.trans hmask.symm))
    | status | outLenLo | outLenHi | geom | rsvd7 =>
      exact keepsUsedBits_of_decode (decodeHost_write_ignored (by decide) data) (congrArg Encoded.host hclear.symm)

/-! ### The row of a HOST word (30_encoding.md R72) -/

/-- Every instruction is encoded in its own row. -/
theorem encodedInOwnRow (i : Instr) : EncodedInOwnRow.Statement i := by
  cases i with
  | start => exact EncodedInOwnRow.start
  | wrCtrlNop => exact EncodedInOwnRow.wrCtrlNop
  | wrCfg depth blockBits scan invert => exact EncodedInOwnRow.wrCfg depth blockBits scan invert
  | wrDims width height => exact EncodedInOwnRow.wrDims width height
  | wrStatus => exact EncodedInOwnRow.wrStatus
  | wrOutLenLo => exact EncodedInOwnRow.wrOutLenLo
  | wrOutLenHi => exact EncodedInOwnRow.wrOutLenHi
  | wrGeom => exact EncodedInOwnRow.wrGeom
  | wrRsvd7 => exact EncodedInOwnRow.wrRsvd7
  | rdCtrl => exact EncodedInOwnRow.rdCtrl
  | rdCfg => exact EncodedInOwnRow.rdCfg
  | rdDims => exact EncodedInOwnRow.rdDims
  | rdStatus => exact EncodedInOwnRow.rdStatus
  | rdOutLenLo => exact EncodedInOwnRow.rdOutLenLo
  | rdOutLenHi => exact EncodedInOwnRow.rdOutLenHi
  | rdGeom => exact EncodedInOwnRow.rdGeom
  | rdRsvd7 => exact EncodedInOwnRow.rdRsvd7
  | engSlot => exact EncodedInOwnRow.engSlot
  | engFlush => exact EncodedInOwnRow.engFlush

/-- A row's mask reads no bit that its instruction ignores. -/
theorem rowMask_within_usedBits (i : Instr) :
    ∀ row ∈ hostRows, row.name = mnemonic i → row.mask &&& i.usedBits = row.mask := by
  cases i with
  | wrCfg =>
    have hmask : ∀ row ∈ hostRows, row.name = "WR_CFG" → row.mask &&& 0xF00037F7F = row.mask := by decide
    exact hmask
  | wrDims =>
    have hmask : ∀ row ∈ hostRows, row.name = "WR_DIMS" → row.mask &&& 0xFFFFFFFFF = row.mask := by decide
    exact hmask
  | _ => decide

/-- No two rows of the map have one name. -/
theorem hostRows_names_inj : ∀ a ∈ hostRows, ∀ b ∈ hostRows, a.name = b.name → a = b := by
  decide

/-- Two rows that agree where both masks read are one row. -/
theorem hostRows_disjoint : ∀ a ∈ hostRows, ∀ b ∈ hostRows,
    a.pattern &&& b.mask = b.pattern &&& a.mask → a = b := by
  decide

/-- A word selects at most one row. -/
theorem selects_unique {t : Txn} {a b : HostRow} (ha : a ∈ hostRows) (hb : b ∈ hostRows) (hta : a.selects t)
    (htb : b.selects t) : a = b := by
  refine hostRows_disjoint a ha b hb ?_
  rw [← hta, ← htb, BitVec.and_assoc, BitVec.and_assoc, BitVec.and_comm b.mask]

/-- A word selects the row of the instruction it decodes to: encoded again it does, and that clears no bit the row
reads. -/
theorem selects_own_row (t : Txn) : ∃ row ∈ hostRows, row.name = mnemonic (decodeHost t) ∧ row.selects t := by
  have hown := encodedInOwnRow (decodeHost t)
  rw [EncodedInOwnRow.Statement, encodeOfDecodeKeepsUsedBits t] at hown
  obtain ⟨row, hrow, hname, hsel⟩ := hown
  have hmask := rowMask_within_usedBits (decodeHost t) row hrow hname
  rw [HostRow.selects, BitVec.and_assoc, BitVec.and_comm _ row.mask, hmask] at hsel
  exact ⟨row, hrow, hname, hsel⟩

/-- Settles O3: the word selects its instruction's row, and rows differ in name and in the words that select them. -/
theorem everyHostWordSelectsOneRow : Obligations.EveryHostWordSelectsOneRow := by
  intro t
  obtain ⟨own, hown, hname, hsel⟩ := selects_own_row t
  refine ⟨⟨own, hown, hsel⟩, fun row hrow => ⟨fun h => ?_, fun h => ?_⟩⟩
  · exact selects_unique hown hrow hsel h ▸ hname
  · exact hostRows_names_inj own hown row hrow (hname.trans h.symm) ▸ hsel

end Sys2Proof.Machine
end

section
/-! SUPPORT. The assembler: the words of its forms, where each line of a program stands, and what the labels resolve to
(spec 30_encoding.md R80 to R82). -/

namespace Sys2Proof.Machine

/-! ### The words of the forms (30_encoding.md R80, R81) -/

/-- The number a HOST word is, by its fields (30_encoding.md R71). -/
theorem txnOf_toNat (we : Bool) (reg : BitVec 3) (data : Word32) :
    (txnOf we reg data).toNat = we.toNat * 2 ^ 35 + reg.toNat * 2 ^ 32 + data.toNat := by
  simp only [txnOf, BitVec.toNat_append, BitVec.toNat_ofBool]
  rw [← Nat.shiftLeft_add_eq_or_of_lt data.isLt, ← Nat.shiftLeft_add_eq_or_of_lt reg.isLt]
  simp only [Nat.shiftLeft_eq]
  ring

/-- A register's name stands for its number (10_state.md R21). -/
theorem number_of_getElem? {n : Nat} {r : Reg} (hn : n < 8)
    (h : [Reg.ctrl, .cfg, .dims, .status, .outLenLo, .outLenHi, .geom, .rsvd7][n]? = some r) :
    r.number = BitVec.ofNat 3 n := by
  interval_cases n <;> cases h <;> rfl

theorem bitVec_ofNat_shiftLeft (w x n : Nat) : BitVec.ofNat w (x <<< n) = BitVec.ofNat w x <<< n := by
  apply BitVec.eq_of_toNat_eq
  simp [Nat.shiftLeft_eq]

/-- The immediate of `cfg` is the CFG word of its operands, where they fit (30_encoding.md R74, R81). -/
theorem ofNat_cfgImmediate {d b : Nat} (hd : d < 128) (hb : b < 128) (scan : Scan) (invert : Bool) :
    BitVec.ofNat 32 (d ||| (b <<< 8) ||| (scan.bit.toNat <<< 16) ||| (invert.toNat <<< 17)) =
      cfgData (BitVec.ofNat 7 d) (BitVec.ofNat 7 b) scan invert := by
  have hbit (x : Bool) : (BitVec.ofBool x).setWidth 32 = BitVec.ofNat 32 x.toNat := by cases x <;> rfl
  simp only [cfgData, BitVec.ofNat_or, bitVec_ofNat_shiftLeft, hbit]
  rw [BitVec.setWidth_ofNat_of_le_of_lt (by decide) hd, BitVec.setWidth_ofNat_of_le_of_lt (by decide) hb]

/-- The immediate of `dims` is the DIMS word of its operands, where they fit (30_encoding.md R75, R81). -/
theorem ofNat_dimsImmediate {w h : Nat} (hw : w < 65536) (hh : h < 65536) :
    BitVec.ofNat 32 (w ||| (h <<< 16)) = dimsData (BitVec.ofNat 16 w) (BitVec.ofNat 16 h) := by
  simp only [dimsData, BitVec.ofNat_or, bitVec_ofNat_shiftLeft]
  rw [BitVec.setWidth_ofNat_of_le_of_lt (by decide) hw, BitVec.setWidth_ofNat_of_le_of_lt (by decide) hh]

/-- Settles O6: each expansion is a word of fixed fields, or the write of a CFG or DIMS word. -/
theorem pseudoInstructionsExpand : Obligations.PseudoInstructionsExpand := by
  intro find pos
  refine ⟨⟨_, rfl, rfl, rfl⟩, ⟨_, rfl, rfl, rfl⟩, fun d b scan inv hd hb => ⟨_, rfl, ?_⟩,
    fun w h hw hh => ⟨_, rfl, ?_⟩, ⟨_, rfl, rfl⟩, ⟨_, _, rfl, rfl, rfl⟩⟩
  · rw [ofNat_cfgImmediate hd hb]
    exact (decodeHost_write_cfg _).trans (wrCfgOfData_cfgData _ _ _ _)
  · rw [ofNat_dimsImmediate hw hh]
    exact (decodeHost_write_dims _).trans (wrDimsOfData_dimsData _ _)

/-- Settles O5: the assembler and the decoder are run on each line of R82. -/
theorem workedEncodingsDecode : Obligations.WorkedEncodingsDecode := by
  unfold Obligations.WorkedEncodingsDecode
  decide

/-- The words of `wr` and `rd` for a register by number, and that its name gives the same (30_encoding.md R80). -/
theorem expand_wr_rd (find : Nat → Nat) (pos : Nat) {n imm : Nat} (hn : n < 8) (himm : imm < 2 ^ 32) :
    (∃ t, AsmOp.expand find pos (.wr (.number n) imm) = [.txn t] ∧ t.toNat = 2 ^ 35 + n * 2 ^ 32 + imm) ∧
    (∃ t, AsmOp.expand find pos (.rd (.number n)) = [.txn t] ∧ t.toNat = n * 2 ^ 32) ∧
    ∀ r, [Reg.ctrl, .cfg, .dims, .status, .outLenLo, .outLenHi, .geom, .rsvd7][n]? = some r →
      AsmOp.expand find pos (.wr (.named r) imm) = AsmOp.expand find pos (.wr (.number n) imm) ∧
      AsmOp.expand find pos (.rd (.named r)) = AsmOp.expand find pos (.rd (.number n)) := by
  have hreg : (BitVec.ofNat 3 n).toNat = n := Nat.mod_eq_of_lt hn
  have hdata : (BitVec.ofNat 32 imm).toNat = imm := Nat.mod_eq_of_lt himm
  refine ⟨⟨_, rfl, ?_⟩, ⟨_, rfl, ?_⟩, fun r hr => ?_⟩
  · simp [txnOf_toNat, RegRef.toBits, hreg, hdata]
  · simp [txnOf_toNat, RegRef.toBits, hreg]
  · simp [AsmOp.expand, asmWr, asmRd, RegRef.toBits, number_of_getElem? hn hr]

/-! ### Where the lines stand (30_encoding.md R80) -/

/-- How many steps of the program the lines become. -/
def asmSteps (lines : List AsmLine) : Nat := (lines.map fun l => l.op.size).sum

theorem asmSteps_cons (l : AsmLine) (rest : List AsmLine) : asmSteps (l :: rest) = l.op.size + asmSteps rest := rfl

/-- The lines' steps, counted by which of them are `poll` or `readlen`. -/
theorem asmSteps_eq (lines : List AsmLine) :
    asmSteps lines = (lines.map fun l => if l.op = .poll ∨ l.op = .readlen then 2 else 1).sum := by
  simp only [asmSteps, AsmOp_size_eq]

theorem expandFrom_length (find : Nat → Nat) (lines : List AsmLine) (pos : Nat) :
    (expandFrom find lines pos).length = asmSteps lines := by
  induction lines generalizing pos with
  | nil => rfl
  | cons l rest ih => simp [expandFrom, ih, asmSteps_cons]

/-- The lines after some others are expanded from where those end. -/
theorem expandFrom_append (find : Nat → Nat) (before after : List AsmLine) (pos : Nat) :
    expandFrom find (before ++ after) pos =
      expandFrom find before pos ++ expandFrom find after (pos + asmSteps before) := by
  induction before generalizing pos with
  | nil => rfl
  | cons l rest ih => simp [expandFrom, ih, asmSteps_cons, Nat.add_assoc]

/-- A line's expansion stands at the number of steps the lines before it take. -/
theorem drop_expandFrom (find : Nat → Nat) (before after : List AsmLine) (l : AsmLine) :
    (expandFrom find (before ++ l :: after) 0).drop (asmSteps before) =
      l.op.expand find (asmSteps before) ++ expandFrom find after (asmSteps before + l.op.size) := by
  rw [expandFrom_append, List.drop_left' (expandFrom_length _ _ _), Nat.zero_add, expandFrom]

/-! ### Where the labels point (30_encoding.md R80) -/

/-- Where the labels of a text point. -/
def labelTarget (lines : List AsmLine) (label : Nat) : Nat := labelPosition label lines 0

/-- A label points to the first line that carries it. -/
theorem labelPosition_append {label : Nat} {before : List AsmLine} (hbefore : label ∉ asmLabels before)
    {l : AsmLine} (hl : l.label = some label) (after : List AsmLine) (pos : Nat) :
    labelPosition label (before ++ l :: after) pos = pos + asmSteps before := by
  induction before generalizing pos with
  | nil => simp [labelPosition, hl, asmSteps]
  | cons m rest ih =>
    have hm : m.label ≠ some label := fun h => hbefore (List.mem_filterMap.2 ⟨m, List.mem_cons_self, h⟩)
    have hrest : label ∉ asmLabels rest := fun h => by
      obtain ⟨k, hk, hlabel⟩ := List.mem_filterMap.1 h
      exact hbefore (List.mem_filterMap.2 ⟨k, List.mem_cons_of_mem _ hk, hlabel⟩)
    rw [List.cons_append, labelPosition, if_neg hm, ih hrest, asmSteps_cons, Nat.add_assoc]

/-- What a well-formed text says of its labels. -/
theorem labels_of_wellFormed {lines : List AsmLine} (hwf : asmWellFormed lines = true) :
    (asmLabels lines).Nodup ∧ ∀ label ∈ lines.filterMap (fun l => l.op.goesTo), label ∈ asmLabels lines := by
  simp only [asmWellFormed, asmLabelsResolve, Bool.and_eq_true, List.all_eq_true, decide_eq_true_eq] at hwf
  obtain ⟨_, hnodup, hresolve⟩ := hwf
  exact ⟨hnodup, hresolve⟩

/-- In a well-formed text a label points to the line it names. -/
theorem labelTarget_of_wellFormed {before after : List AsmLine} {l : AsmLine} {label : Nat}
    (hwf : asmWellFormed (before ++ l :: after) = true) (hl : l.label = some label) :
    labelTarget (before ++ l :: after) label = asmSteps before := by
  obtain ⟨hnodup, _⟩ := labels_of_wellFormed hwf
  have hbefore : label ∉ asmLabels before := by
    rw [asmLabels, List.filterMap_append, List.filterMap_cons_some hl] at hnodup
    exact fun h => (List.disjoint_of_nodup_append hnodup) h List.mem_cons_self
  rw [labelTarget, labelPosition_append hbefore hl, Nat.zero_add]

/-- In a well-formed text a `jbusy` names a line. -/
theorem exists_line_of_jbusy {lines : List AsmLine} {l : AsmLine} {label : Nat} (hwf : asmWellFormed lines = true)
    (hl : l ∈ lines) (hop : l.op = .jbusy label) :
    ∃ before l' after, lines = before ++ l' :: after ∧ l'.label = some label := by
  obtain ⟨_, hresolve⟩ := labels_of_wellFormed hwf
  obtain ⟨l', hl', hlabel⟩ := List.mem_filterMap.1
    (hresolve label (List.mem_filterMap.2 ⟨l, hl, by rw [hop]; rfl⟩))
  obtain ⟨before, after, hlines⟩ := List.append_of_mem hl'
  exact ⟨before, l', after, hlines, hlabel⟩

/-- The steps of a program from a line's first step on. -/
theorem drop_program {lines before after : List AsmLine} {l : AsmLine} (hlines : lines = before ++ l :: after) :
    ∃ rest, (expandFrom (labelTarget lines) lines 0).drop (asmSteps before) =
      l.op.expand (labelTarget lines) (asmSteps before) ++ rest := by
  subst hlines
  exact ⟨_, drop_expandFrom _ before after l⟩

/-- In a well-formed text a `jbusy` stands where its line does, and goes to where the line of its label stands. -/
theorem program_jbusy {lines before after : List AsmLine} {l : AsmLine} {label : Nat}
    (hwf : asmWellFormed lines = true) (hlines : lines = before ++ l :: after) (hop : l.op = .jbusy label) :
    ∃ before' l' after', lines = before' ++ l' :: after' ∧ l'.label = some label ∧
      (expandFrom (labelTarget lines) lines 0)[asmSteps before]? = some (.jbusy (asmSteps before')) := by
  have hl : l ∈ lines := hlines ▸ List.mem_append_right _ List.mem_cons_self
  obtain ⟨before', l', after', hlines', hlabel⟩ := exists_line_of_jbusy hwf hl hop
  have htarget : labelTarget lines label = asmSteps before' := by
    subst hlines'
    exact labelTarget_of_wellFormed hwf hlabel
  refine ⟨before', l', after', hlines', hlabel, ?_⟩
  obtain ⟨rest, hdrop⟩ := drop_program hlines
  rw [← List.head?_drop, hdrop, hop, AsmOp.expand, htarget]
  rfl

/-- The program of a well-formed text is the expansion of its lines, the labels resolved to where their lines stand. -/
theorem assemble_of_wellFormed {lines : List AsmLine} (h : asmWellFormed lines = true) :
    assemble lines = some (expandFrom (labelTarget lines) lines 0) :=
  if_pos h

theorem assemble_of_illFormed {lines : List AsmLine} (h : asmWellFormed lines = false) : assemble lines = none :=
  if_neg (by simp [h])

end Sys2Proof.Machine
end

section
/-! SUPPORT. The scheduled turns of the host and of the engine: a transaction, `jbusy` and `halt`, and the
micro-operation of a phase (spec 30_encoding.md R73, R80; 20_memory.md R62). -/

namespace Sys2Proof.Machine

/-! ### The engine's turn (30_encoding.md R73) -/

section
variable {s : State} {i : Instr}

theorem engineFetch_of_not_busy (hb : s.status.state ≠ .busy) : engineFetch s = none := by
  simp [engineFetch, isBusy, hb]

/-- While BUSY the phase selects the micro-operation. -/
theorem engineFetch_of_ok (hb : s.status.state = .busy) (hd : decodeEngine s.eng.seq = .ok i) :
    engineFetch s = some i := by
  simp [engineFetch, isBusy, hb, hd]

theorem engineFetch_of_error {err : DecodeError} (hd : decodeEngine s.eng.seq = .error err) : engineFetch s = none := by
  simp [engineFetch, hd]

theorem engineTurn_of_fetched (hf : engineFetch s = some i) : engineTurn s = (.run i, s) := by
  simp only [engineTurn, hf]

theorem engineTurn_of_idle (hf : engineFetch s = none) : engineTurn s = (.settled, s) := by
  simp only [engineTurn, hf]

end

/-- Settles O4: the phase is decoded while BUSY only, and phases 0 and 3 select no micro-operation. -/
theorem engineMicroOpByPhaseWhileBusy : Obligations.EngineMicroOpByPhaseWhileBusy := by
  refine fun s => ⟨fun hb hq => ?_, fun hb hq => ?_, fun _ hq => ?_, fun hb => ?_⟩
  · exact engineTurn_of_fetched (engineFetch_of_ok hb (congrArg decodeEngine hq))
  · exact engineTurn_of_fetched (engineFetch_of_ok hb (congrArg decodeEngine hq))
  · obtain hq | hq := hq
    · exact engineTurn_of_idle (engineFetch_of_error (congrArg decodeEngine hq))
    · exact engineTurn_of_idle (engineFetch_of_error (congrArg decodeEngine hq))
  · exact engineTurn_of_idle (engineFetch_of_not_busy hb)

/-- Settles O42: the engine's turn, where the phase decodes. -/
theorem stepRunsDecodedMicroOp : Obligations.StepRunsDecodedMicroOp :=
  fun _ _ _ he hb hd => step_engine_fetched he (engineFetch_of_ok hb hd)

/-! ### The host's turn (30_encoding.md R80) -/

section
variable {s : State}

theorem hostTurn_txn {t : Txn} (h : hostFetch s = some (.txn t)) : hostTurn s = (.run (decodeHost t), hostNext s) := by
  simp only [hostTurn, h]

theorem hostTurn_jbusy_taken {target : Nat} (h : hostFetch s = some (.jbusy target))
    (hb : lastStatusBusy s.host.reads = true) : hostTurn s = (.settled, hostGoto target s) := by
  simp only [hostTurn, h, hb, if_true]

theorem hostTurn_jbusy_passed {target : Nat} (h : hostFetch s = some (.jbusy target))
    (hb : lastStatusBusy s.host.reads = false) : hostTurn s = (.settled, hostNext s) := by
  simp [hostTurn, h, hb]

theorem hostTurn_halt (h : hostFetch s = some .halt) : hostTurn s = (.settled, s) := by
  simp only [hostTurn, h]

end

/-- Settles O41: the host's turn, where its program is at a transaction. -/
theorem stepRunsDecodedTransaction : Obligations.StepRunsDecodedTransaction := fun s rest _ he hfetch =>
  step_of_run ((nextAction_scheduled he).trans (hostTurn_txn (s := { s with events := rest }) hfetch))

/-! ### What `jbusy` looks at (30_encoding.md R80) -/

/-- STATE in a STATUS word is its two low bits (10_state.md R26). -/
theorem statusWord_busy_iff (word : Word32) : word.extractLsb' 0 2 = stateBits .busy ↔ word.toNat % 4 = 1 := by
  rw [← BitVec.toNat_inj, BitVec.extractLsb'_toNat]
  rfl

/-- The most recent read of STATUS decides, whatever other registers were read after it. -/
theorem lastStatusBusy_of_read {newer : List ReadRecord} (hnewer : ∀ rec ∈ newer, rec.reg ≠ .status) (word : Word32)
    (older : List ReadRecord) :
    lastStatusBusy (newer ++ ⟨.status, word⟩ :: older) = decide (word.toNat % 4 = 1) := by
  induction newer with
  | nil => simp [lastStatusBusy, statusWord_busy_iff]
  | cons r rest ih =>
    rw [List.cons_append, lastStatusBusy, if_neg (hnewer r List.mem_cons_self)]
    exact ih fun rec hrec => hnewer rec (List.mem_cons_of_mem _ hrec)

/-- With no read of STATUS, none returned BUSY (log 8). -/
theorem lastStatusBusy_of_no_read {reads : List ReadRecord} (h : ∀ rec ∈ reads, rec.reg ≠ .status) :
    lastStatusBusy reads = false := by
  induction reads with
  | nil => rfl
  | cons r rest ih =>
    rw [lastStatusBusy, if_neg (h r List.mem_cons_self)]
    exact ih fun rec hrec => h rec (List.mem_cons_of_mem _ hrec)

/-! ### The control forms in a run -/

section
variable {s : State} {rest : List Event} {target : Nat}

/-- `jbusy` after a read of STATUS goes to its target where the most recent one returned STATE = 1, else on. -/
theorem step_jbusy_after_read (he : s.events = .host :: rest) {newer older : List ReadRecord} {word : Word32}
    (hop : s.host.prog[s.host.pc]? = some (.jbusy target)) (hreads : s.host.reads = newer ++ ⟨.status, word⟩ :: older)
    (hnewer : ∀ rec ∈ newer, rec.reg ≠ .status) :
    step s = .next { s with events := rest, host := { s.host with
      pc := if word.toNat % 4 = 1 then target else s.host.pc + 1 } } := by
  have hlast : lastStatusBusy s.host.reads = decide (word.toNat % 4 = 1) :=
    hreads ▸ lastStatusBusy_of_read hnewer word older
  refine step_of_settled ((nextAction_scheduled he).trans ?_)
  by_cases hbusy : word.toNat % 4 = 1
  · rw [if_pos hbusy]
    exact hostTurn_jbusy_taken (s := { s with events := rest }) hop (hlast.trans (decide_eq_true hbusy))
  · rw [if_neg hbusy]
    exact hostTurn_jbusy_passed (s := { s with events := rest }) hop (hlast.trans (decide_eq_false hbusy))

/-- `jbusy` with no read of STATUS yet goes on (log 8). -/
theorem step_jbusy_unread (he : s.events = .host :: rest) (hop : s.host.prog[s.host.pc]? = some (.jbusy target))
    (hreads : ∀ rec ∈ s.host.reads, rec.reg ≠ .status) :
    step s = .next { s with events := rest, host := { s.host with pc := s.host.pc + 1 } } :=
  step_of_settled ((nextAction_scheduled he).trans
    (hostTurn_jbusy_passed (s := { s with events := rest }) hop (lastStatusBusy_of_no_read hreads)))

/-- `halt` leaves the host where it is. -/
theorem step_halt (he : s.events = .host :: rest) (hop : s.host.prog[s.host.pc]? = some .halt) :
    step s = .next { s with events := rest } :=
  step_of_settled ((nextAction_scheduled he).trans (hostTurn_halt (s := { s with events := rest }) hop))

end

/-- Settles O44: the words of `wr` and `rd`, then where the lines of a program stand and its labels point, then the turns
of `jbusy` and `halt`. -/
theorem hostControlForms : Obligations.HostControlForms := by
  refine ⟨fun find pos _ _ hn himm => expand_wr_rd find pos hn himm, ?_, fun s rest he =>
    ⟨fun _ _ _ _ hop hreads hnewer => step_jbusy_after_read he hop hreads hnewer,
      fun _ hop hreads => step_jbusy_unread he hop hreads, step_halt he⟩⟩
  intro lines stepsOf
  have hsteps : ∀ ls, stepsOf ls = asmSteps ls := fun ls => (asmSteps_eq ls).symm
  refine ⟨assemble_of_illFormed, fun hwf => ⟨_, labelTarget lines, assemble_of_wellFormed hwf, ?_, ?_⟩⟩
  · rw [hsteps, expandFrom_length]
  · simp only [hsteps]
    intro before l after hlines
    refine ⟨drop_program hlines, fun label hl => ?_, fun label hop => program_jbusy hwf hlines hop⟩
    subst hlines
    exact labelTarget_of_wellFormed hwf hl

end Sys2Proof.Machine
end

section
/-! SUPPORT. The quantizer: its intensity, the laws of the remap in the intensity and in the depth, and what they say of
QUANTIZE (spec 40_quantizer.md R101 to R107). -/

namespace Sys2Proof.Machine

/-! ### The intensity (40_quantizer.md R101, R102) -/

/-- The average fits 16 bits (40_quantizer.md R101). -/
theorem average_le (r g b : BitVec 16) : average r g b ≤ 65535 := by
  have hr := r.isLt
  have hg := g.isLt
  have hb := b.isLt
  unfold average
  omega

@[simp] theorem invertIntensity_true (c : Nat) : invertIntensity true c = 65535 - c := rfl

@[simp] theorem invertIntensity_false (c : Nat) : invertIntensity false c = c := rfl

theorem invertIntensity_le {c : Nat} (hc : c ≤ 65535) (invert : Bool) : invertIntensity invert c ≤ 65535 := by
  cases invert
  · exact hc
  · exact Nat.sub_le 65535 c

/-- The intensity that is remapped fits 16 bits, inverted or not (40_quantizer.md R102). -/
theorem intensity_le (r g b : BitVec 16) (invert : Bool) : invertIntensity invert (average r g b) ≤ 65535 :=
  invertIntensity_le (average_le r g b) invert

/-! ### The remap (40_quantizer.md R103) -/

section
variable {c c' d : Nat}

theorem depthMask_pos (hd : 1 ≤ d) : 0 < depthMask d :=
  Nat.sub_pos_of_lt (Nat.one_lt_two_pow (Nat.one_le_iff_ne_zero.1 hd))

theorem depthMask_mono {d' : Nat} (h : d ≤ d') : depthMask d ≤ depthMask d' :=
  Nat.sub_le_sub_right (Nat.pow_le_pow_right (by decide) h) 1

theorem remap_mono (h : c ≤ c') (d : Nat) : remap c d ≤ remap c' d :=
  Nat.div_le_div_right (Nat.mul_le_mul_right _ h)

/-- The full intensity is remapped to the full value. -/
theorem remap_full (d : Nat) : remap 65535 d = depthMask d := Nat.mul_div_cancel_left _ (by decide)

theorem remap_le_depthMask (hc : c ≤ 65535) (d : Nat) : remap c d ≤ depthMask d :=
  (remap_mono hc d).trans_eq (remap_full d)

theorem remap_eq_depthMask_iff (hc : c ≤ 65535) (hd : 1 ≤ d) : remap c d = depthMask d ↔ c = 65535 := by
  refine ⟨fun h => ?_, fun h => h ▸ remap_full d⟩
  have hprod : 65535 * depthMask d ≤ c * depthMask d :=
    (Nat.mul_comm _ _).trans_le ((Nat.le_div_iff_mul_le (by decide)).1 h.ge)
  exact hc.antisymm (Nat.le_of_mul_le_mul_right hprod (depthMask_pos hd))

theorem remap_eq_zero_iff : remap c d = 0 ↔ c * depthMask d < 65535 :=
  Nat.div_eq_zero_iff_lt (by decide)

/-- From depth 16 on, no intensity but 0 is remapped to 0. -/
theorem mul_depthMask_lt_iff (hd : 16 ≤ d) : c * depthMask d < 65535 ↔ c = 0 := by
  have hm : 65535 ≤ depthMask d := depthMask_mono hd
  refine ⟨fun h => ?_, fun h => by simp [h]⟩
  by_contra hc
  exact absurd (hm.trans (Nat.le_mul_of_pos_left _ (Nat.pos_of_ne_zero hc))) h.not_ge

/-- One unit of intensity moves the remapped value by at most `ceil(M / 65535)`. -/
theorem remap_succ_le (c d : Nat) : remap (c + 1) d ≤ remap c d + ceilDiv (depthMask d) 65535 := by
  unfold remap ceilDiv
  rw [Nat.succ_mul]
  omega

/-- Where `M` divides 65535, the remap is one truncating division of the intensity. -/
theorem remap_of_mask_divides {n : Nat} (hm : depthMask d * n = 65535) (c : Nat) : remap c d = c / n := by
  have hpos : 0 < depthMask d := Nat.pos_of_ne_zero fun h0 => by simp [h0] at hm
  rw [remap, ← hm, Nat.mul_comm c, Nat.mul_div_mul_left _ _ hpos]

/-- Where 65535 divides `M`, the remap is a multiplication of the intensity. -/
theorem remap_of_mask_multiple {n : Nat} (hm : depthMask d = 65535 * n) (c : Nat) : remap c d = c * n := by
  rw [remap, hm, Nat.mul_left_comm, Nat.mul_div_cancel_left _ (by decide)]

end

/-! ### QUANTIZE -/

/-- The mask of step 4 changes nothing (40_quantizer.md R104). -/
theorem quantize_eq_remap (r g b : BitVec 16) (d : Nat) (invert : Bool) :
    quantize r g b d invert = remap (invertIntensity invert (average r g b)) d := by
  have hle : remap (invertIntensity invert (average r g b)) d ≤ 2 ^ d - 1 :=
    remap_le_depthMask (intensity_le r g b invert) d
  exact Nat.and_two_pow_sub_one_of_lt_two_pow (hle.trans_lt (Nat.sub_lt (Nat.two_pow_pos d) Nat.one_pos))

/-- Settles O22: the remapped intensity is within the mask, because the average fits 16 bits. -/
theorem quantizerMaskChangesNothing : Obligations.QuantizerMaskChangesNothing := fun r g b d inv =>
  ⟨quantize_eq_remap r g b d inv, average_le r g b⟩

/-- Settles O23: each law is that of the remap, at an intensity of 16 bits. -/
theorem quantizerRangeAndMonotony : Obligations.QuantizerRangeAndMonotony := by
  intro r g b d inv hd _ c m
  have hc : c ≤ 65535 := intensity_le r g b inv
  simp only [quantize_eq_remap]
  exact ⟨remap_le_depthMask hc d, remap_eq_depthMask_iff hc hd, remap_eq_zero_iff, mul_depthMask_lt_iff,
    fun _ _ _ _ h => remap_mono h d⟩

/-- Settles O24: at depths 1 to 16 the mask divides 65535, and at depths 16 to 64 it is a multiple of it. -/
theorem quantizerClosedForms : Obligations.QuantizerClosedForms := by
  refine ⟨fun r g b inv => ?_, by decide, by decide, by decide⟩
  intro c
  have hc : c ≤ 65535 := intensity_le r g b inv
  simp only [quantize_eq_remap]
  refine ⟨?_, remap_of_mask_divides rfl c, remap_of_mask_divides rfl c, remap_of_mask_divides rfl c,
    (remap_of_mask_divides (n := 1) rfl c).trans c.div_one, ?_, ?_, ?_⟩
  · rw [show remap c 1 = c / 65535 from remap_of_mask_divides rfl c]
    split <;> omega
  · rw [show remap c 32 = c * (2 ^ 16 + 1) from remap_of_mask_multiple rfl c]
    ring
  · rw [show remap c 48 = c * ((2 ^ 16 + 1) * 2 ^ 16 + 1) from remap_of_mask_multiple rfl c]
    ring
  · rw [show remap c 64 = c * (((2 ^ 16 + 1) * 2 ^ 16 + 1) * 2 ^ 16 + 1) from remap_of_mask_multiple rfl c]
    ring

/-! ### Inversion against the complemented sample (40_quantizer.md R107) -/

theorem toNat_complement (x : BitVec 16) : (65535 - x).toNat = 65535 - x.toNat := by
  have hx := x.isLt
  exact BitVec.toNat_sub_of_le (BitVec.le_def.2 (Nat.le_of_lt_succ hx))

/-- The average of the complemented channels rounds the other way. -/
theorem average_complement (r g b : BitVec 16) :
    average (65535 - r) (65535 - g) (65535 - b) = 65535 - ceilDiv (r.toNat + g.toNat + b.toNat) 3 := by
  have hr := r.isLt
  have hg := g.isLt
  have hb := b.isLt
  simp only [average, toNat_complement, ceilDiv]
  omega

/-- The inverted average is the average of the complement, or one more where the channels' sum is not a multiple of
3. -/
theorem invert_average_eq (r g b : BitVec 16) :
    invertIntensity true (average r g b) =
      average (65535 - r) (65535 - g) (65535 - b) + if (r.toNat + g.toNat + b.toNat) % 3 = 0 then 0 else 1 := by
  have hle := average_le r g b
  rw [average_complement]
  simp only [average, invertIntensity_true, ceilDiv] at hle ⊢
  split <;> omega

/-- Settles O25: the two intensities are equal or one unit apart, and one unit moves the remapped value by at most
`ceil(M / 65535)`. -/
theorem inversionAgainstComplement : Obligations.InversionAgainstComplement := by
  intro r g b d _ _ sum q1 q2 c1 c2
  have hc : c1 = c2 + if sum % 3 = 0 then 0 else 1 := invert_average_eq r g b
  have hq1 : q1 = remap c1 d := quantize_eq_remap r g b d true
  have hq2 : q2 = remap c2 d := (quantize_eq_remap _ _ _ d false).trans (by rw [invertIntensity_false])
  have hsucc : c1 ≤ c2 + 1 := by
    rw [hc]
    split <;> omega
  have hbound : q1 - q2 ≤ ceilDiv (depthMask d) 65535 := by
    rw [hq1, hq2, Nat.sub_le_iff_le_add']
    exact (remap_mono hsucc d).trans (remap_succ_le c2 d)
  refine ⟨invertIntensity_true _, average_complement r g b, hc, ?_, hbound, fun hd => hbound.trans ?_, fun h3 => ?_⟩
  · rw [hq1, hq2]
    exact remap_mono (hc ▸ Nat.le_add_right _ _) d
  · have hm : depthMask d ≤ 65535 := depthMask_mono hd
    unfold ceilDiv
    omega
  · rw [hq1, hq2, hc, if_pos h3, Nat.add_zero]

end Sys2Proof.Machine
end

section
/-! SUPPORT. What ENG_SLOT reads of the image: the colour channels of its own pixel (spec 40_quantizer.md R108, R109;
20_memory.md R52). -/

namespace Sys2Proof.Machine

/-- QUANTIZE reads the colour channels of a sample word and not its alpha (40_quantizer.md R108). -/
theorem quantizeSample_congr {w w' : Word64} (h : w'.extractLsb' 0 48 = w.extractLsb' 0 48) (d : Nat) (invert : Bool) :
    quantizeSample w' d invert = quantizeSample w d invert := by
  have hchannel : ∀ i ≤ 32, w'.extractLsb' i 16 = w.extractLsb' i 16 := fun i hi => by
    have hi' : (w'.extractLsb' 0 48).extractLsb' i 16 = (w.extractLsb' 0 48).extractLsb' i 16 := by rw [h]
    simpa [BitVec.extractLsb'_extractLsb'_of_le (show i + 16 ≤ 48 by omega)] using hi'
  simp only [quantizeSample, sampleR, sampleG, sampleB, hchannel 0 (by decide), hchannel 16 (by decide),
    hchannel 32 (by decide)]

/-- A slot's value reads the image at the colour channels of the slot's own pixel, and not at all for a pad slot. -/
theorem slotValue_congr_img {s : State} {m : Memory Word64} {o j k : Nat}
    (h : slotInBounds s.cfg s.dims j k = true →
      (imgAt { s with img := m } (coord (slotPixel s.cfg o j k).1) (coord (slotPixel s.cfg o j k).2)).extractLsb' 0 48 =
        (imgAt s (coord (slotPixel s.cfg o j k).1) (coord (slotPixel s.cfg o j k).2)).extractLsb' 0 48) :
    slotValue { s with img := m } o j k = slotValue s o j k := by
  unfold slotValue
  split
  · next hin => exact quantizeSample_congr (h hin) _ _
  · rfl

/-- With the image unchanged in the pass, a slot adds the field of its value of the closed form to the engine's register
and changes nothing but the engine. -/
theorem processSlot_clean {s : State} (h : s.imgDirty = false) :
    processSlot s = { s with
      eng := engineAfterSlot s.eng (pixelsPerBlock s.cfg)
        (field s.params s.cfg (slotValue s s.eng.o.toNat s.eng.j.toNat s.eng.k.toNat) s.eng.k.toNat) } := by
  rw [processSlot, slotRead_clean h]

/-- Settles O37: the step is computed from the slot's value, and the two images give the same value. -/
theorem slotReadsOnlyItsPixelsColours : Obligations.SlotReadsOnlyItsPixelsColours := by
  intro s m hb hq hclean hagree
  have hvalue := slotValue_congr_img hagree
  refine ⟨_, exec_engSlot_enabled hb hq, ?_⟩
  rw [exec_engSlot_enabled (s := { s with img := m }) hb hq, processSlot_clean (s := { s with img := m }) hclean,
    processSlot_clean hclean, hvalue]

end Sys2Proof.Machine
end

section
/-! SUPPORT. What an accepted START shows of a pass: its geometry and its length (spec 41_block_packer.md R120 to
R122). -/

namespace Sys2Proof.Machine

/-! ### The division rounded up (00_scope.md R8) -/

/-- Slot `k` of `ceil(b / d)` slots of `d` bits begins inside the `b` bits (41_block_packer.md R120). -/
theorem lt_ceilDiv_iff {b d k : Nat} (hd : 1 ≤ d) : k < ceilDiv b d ↔ k * d < b := by
  rw [← Nat.succ_le_iff, Nat.le_div_iff_mul_le hd, Nat.succ_mul]
  omega

theorem le_ceilDiv_mul {d : Nat} (b : Nat) (hd : 1 ≤ d) : b ≤ ceilDiv b d * d :=
  Nat.not_lt.1 (mt (lt_ceilDiv_iff hd).2 (Nat.lt_irrefl _))

/-! ### START -/

theorem exec_start_accepted {s : State} (hb : s.status.state ≠ .busy) (hv : validate s = .none) :
    exec .start s = .next (acceptStart s) := by
  obtain ⟨h, _⟩ | ⟨_, h, _⟩ | ⟨_, _, h⟩ := startPass_cases s
  · exact absurd h hb
  · exact absurd hv h
  · exact congrArg Host.Outcome.next h

/-- Settles O26: GEOM shows the geometry of the accepted configuration, and `P` fields that fill the block exactly would
make `d` a divisor of `B`. -/
theorem blockGeometry : Obligations.BlockGeometry := by
  intro s hb hv
  obtain ⟨⟨hp, hp64⟩, ⟨hbpb, hbpb8⟩, _⟩ := geometry_of_accepted hv
  obtain ⟨hd, _⟩ := validate_none hv
  obtain ⟨hppb, hshown⟩ := acceptStart_geom_toNat hv
  refine ⟨_, exec_start_accepted hb hv, hppb, hshown, hppb ▸ hp, hppb ▸ hp64, hshown ▸ hbpb, hshown ▸ hbpb8, ?_⟩
  intro hdvd
  rw [hppb]
  exact (le_ceilDiv_mul _ hd).lt_of_ne fun h => hdvd (h ▸ Nat.dvd_mul_left _ _)

/-! ### The size law (41_block_packer.md R122) -/

/-- An empty image has no line, or no block in a line. -/
theorem outputLength_of_empty {c : Cfg} {dm : Dims} (hp : 1 ≤ pixelsPerBlock c) (h : dm.width = 0 ∨ dm.height = 0) :
    outputLength c dm = 0 := by
  have hblocks : ceilDiv 0 (pixelsPerBlock c) = 0 := Nat.div_eq_of_lt (by omega)
  have hline : lineCount c dm = 0 ∨ lineLength c dm = 0 := by
    unfold lineCount lineLength
    cases c.scan with
    | rowMajor => exact h.symm.imp (congrArg BitVec.toNat) (congrArg BitVec.toNat)
    | columnMajor => exact h.imp (congrArg BitVec.toNat) (congrArg BitVec.toNat)
  obtain hcount | hlength := hline
  · simp [outputLength, hcount]
  · simp [outputLength, blocksPerLine, hlength, hblocks]

/-- The largest length: 8 bytes for each of 65535 x 65535 blocks. -/
theorem outputLength_le {s : State} (hv : validate s = .none) : outputLength s.cfg s.dims ≤ 34358689800 := by
  obtain ⟨_, ⟨_, hbpb⟩, hnb⟩ := geometry_of_accepted hv
  calc outputLength s.cfg s.dims ≤ 8 * 65535 * 65535 := by
        unfold outputLength
        gcongr
        · exact Nat.le_of_lt_succ (lineCount_lt _ _)
        · exact Nat.le_of_lt_succ hnb
    _ = 34358689800 := by norm_num

/-- Settles O17: the two halves of OUT_LEN hold the whole size law, read along each scan direction. -/
theorem sizeLaw : Obligations.SizeLaw := by
  refine ⟨fun s hb hv => ⟨_, exec_start_accepted hb hv, ?_⟩, by decide⟩
  obtain ⟨⟨hp, _⟩, _, _⟩ := geometry_of_accepted hv
  rw [acceptStart_outLen_toNat hv]
  refine ⟨fun hscan => ?_, fun hscan => ?_, outputLength_of_empty hp, outputLength_le hv⟩
  · simp only [outputLength, lineCount, blocksPerLine, lineLength, hscan]
    rfl
  · simp only [outputLength, lineCount, blocksPerLine, lineLength, hscan]
    rfl

end Sys2Proof.Machine
end

section
/-! SUPPORT. The slots of a pass against the pixels of its image (spec 41_block_packer.md R123 to R125, R132;
20_memory.md R68). -/

namespace Sys2Proof.Machine

/-- A position along a line is that of one slot of one block: the quotient and the remainder by `P` (41_block_packer.md
R124). -/
theorem slotPosition_eq_iff {c : Cfg} {j k t : Nat} (hk : k < pixelsPerBlock c) :
    slotPosition c j k = t ↔ j = t / pixelsPerBlock c ∧ k = t % pixelsPerBlock c := by
  have hp : 0 < pixelsPerBlock c := by omega
  rw [slotPosition, Nat.mul_comm, Nat.add_comm, eq_comm (a := j), eq_comm (a := k), Nat.div_mod_unique hp]
  simp [hk]

/-- A pixel's line and its position along the line are its coordinates, in the order of the scan direction
(41_block_packer.md R121, R124). -/
theorem line_position_of_pixel (c : Cfg) (dm : Dims) (x y : Nat) :
    ∃ line pos, (x < dm.width.toNat ∧ y < dm.height.toNat ↔ line < lineCount c dm ∧ pos < lineLength c dm) ∧
      ∀ o j k, slotPixel c o j k = (x, y) ↔ o = line ∧ slotPosition c j k = pos := by
  unfold slotPixel lineCount lineLength
  cases c.scan with
  | rowMajor => exact ⟨y, x, and_comm, fun o j k => by simp [and_comm]⟩
  | columnMajor => exact ⟨x, y, Iff.rfl, fun o j k => by simp⟩

/-- Settles O27: the slot of a pixel is the one at the pixel's position on the pixel's line, and a slot is in bounds
where its position is that of a pixel. -/
theorem eachPixelHasExactlyOneSlot : Obligations.EachPixelHasExactlyOneSlot := by
  intro c dm hd hdb
  have hp : 0 < pixelsPerBlock c := ceilDiv_pos (hd.trans hdb) hd
  refine ⟨fun x y hx hy => ?_, fun o j k ho hin => ?_⟩
  · obtain ⟨line, pos, hrange, hslot⟩ := line_position_of_pixel c dm x y
    obtain ⟨hline, hpos⟩ := hrange.1 ⟨hx, hy⟩
    have hk : pos % pixelsPerBlock c < pixelsPerBlock c := Nat.mod_lt _ hp
    have hown : slotPosition c (pos / pixelsPerBlock c) (pos % pixelsPerBlock c) = pos :=
      (slotPosition_eq_iff hk).2 ⟨rfl, rfl⟩
    have hj : pos / pixelsPerBlock c < blocksPerLine c dm :=
      (lt_ceilDiv_iff hp).2 ((Nat.div_mul_le_self _ _).trans_lt hpos)
    refine ⟨line, _, _, hline, hj, hk, by simp [slotInBounds, hown, hpos], (hslot _ _ _).2 ⟨rfl, hown⟩, ?_⟩
    intro o' j' k' hk' hpixel
    obtain ⟨ho', hpos'⟩ := (hslot _ _ _).1 hpixel
    exact ⟨ho', (slotPosition_eq_iff hk').1 hpos'⟩
  · obtain ⟨line, pos, hrange, hslot⟩ := line_position_of_pixel c dm (slotPixel c o j k).1 (slotPixel c o j k).2
    obtain ⟨rfl, rfl⟩ := (hslot o j k).1 rfl
    exact hrange.2 ⟨ho, of_decide_eq_true hin⟩

/-- Settles O32: PACK reads the image at the pixels of the block's in-bounds slots only. -/
theorem blocksAreIndependent : Obligations.BlocksAreIndependent := by
  intro s s' o j hp hc hd himg
  rw [packBlock, packBlock, hc]
  exact packUpTo_congr hp hc hd himg

end Sys2Proof.Machine
end

section
/-! SUPPORT. ENG_SLOT: the step it takes, and the steps it does not take (spec 41_block_packer.md R125, R129). -/

namespace Sys2Proof.Machine

/-! ### Where a micro-operation is not enabled (log 9) -/

theorem slotEnabled_iff (s : State) : slotEnabled s = true ↔ s.status.state = .busy ∧ s.eng.seq = seqSlot := by
  simp [slotEnabled, isBusy]

theorem flushEnabled_iff (s : State) : flushEnabled s = true ↔ s.status.state = .busy ∧ s.eng.seq = seqFlush := by
  simp [flushEnabled, isBusy]

/-- Settles O40: one of the two conditions of the enable fails. -/
theorem disabledMicroOpChangesNothing : Obligations.DisabledMicroOpChangesNothing := fun s =>
  ⟨fun h => congrArg Host.Outcome.next (if_neg (mt (slotEnabled_iff s).1 (not_and_or.2 h))),
    fun h => congrArg Host.Outcome.next (if_neg (mt (flushEnabled_iff s).1 (not_and_or.2 h)))⟩

/-! ### The value of a slot -/

/-- A pad slot reads no sample, whatever became of the image (41_block_packer.md R125). -/
theorem slotRead_pad {s : State} (hin : slotInBounds s.cfg s.dims s.eng.j.toNat s.eng.k.toNat = false) :
    slotRead s = (padValue s.params s.cfg, s) := by
  simp [slotRead, hin]

/-- QUANTIZE of a black sample: the full value where INVERT = 1, else 0 (41_block_packer.md R125). -/
theorem quantize_black (d : Nat) (invert : Bool) : quantize 0 0 0 d invert = if invert then depthMask d else 0 := by
  rw [quantize_eq_remap]
  cases invert with
  | false => simp [average, remap]
  | true => exact remap_full d

/-- Settles O36: the step of a pad slot takes the pad value and the state as they are. -/
theorem padSlotReadsNoSample : Obligations.PadSlotReadsNoSample := by
  refine ⟨fun s hb hq hin => ?_, fun p c hpad => ?_, fun p c hpad => ?_⟩
  · rw [exec_engSlot_enabled hb hq, processSlot, slotRead_pad hin]
  · simp [padValue, hpad]
  · have hblack : padValue p c = quantize 0 0 0 (depthOf c) c.invert := by simp [padValue, hpad]
    exact ⟨hblack, hblack.trans (quantize_black _ _)⟩

/-- The value of a slot with its pixel and its bound spelled out by scan direction (41_block_packer.md R129). -/
theorem slotValue_by_scan (s : State) (o j k : Nat) :
    slotValue s o j k =
      if (if s.cfg.scan = .rowMajor then slotPosition s.cfg j k < s.dims.width.toNat
          else slotPosition s.cfg j k < s.dims.height.toNat) then
        quantizeSample
          (imgAt s (coord (if s.cfg.scan = .rowMajor then slotPosition s.cfg j k else o))
            (coord (if s.cfg.scan = .rowMajor then o else slotPosition s.cfg j k)))
          (depthOf s.cfg) s.cfg.invert
      else padValue s.params s.cfg := by
  unfold slotValue slotInBounds slotPixel lineLength
  cases s.cfg.scan <;> simp

/-- Settles O35: over a kept image the slot's value is that of the closed form, and the engine's two moves are those of
`engineAfterSlot`. -/
theorem slotPacksItsPixel : Obligations.SlotPacksItsPixel := by
  intro s hb hq hclean d p t o x y inb smp q r
  have hvalue : slotValue s s.eng.o.toNat s.eng.j.toNat s.eng.k.toNat = q := slotValue_by_scan s _ _ _
  have hstep : exec .engSlot s = .next { s with
      eng := engineAfterSlot s.eng p (field s.params s.cfg q s.eng.k.toNat) } := by
    rw [exec_engSlot_enabled hb hq, processSlot_clean hclean, hvalue]
    rfl
  refine ⟨fun hlast => ?_, fun hinner => ?_⟩
  · rw [hstep, engineAfterSlot, if_pos hlast]
    rfl
  · rw [hstep, engineAfterSlot, if_neg hinner]

end Sys2Proof.Machine
end

section
/-! SUPPORT. Where a value lands in the block register. Under MSB_FIRST_BLOCK a field, and the block as far as it is
packed, is a number written from bit B - 1 down and cut at bit 0 (`placeFromTop`); the laws of the packing are those of
this placement (spec 41_block_packer.md R126 to R128, R130, R131). -/

namespace Sys2Proof.Machine

/-! ### The placement -/

/-- The number `v` of `n` bits written from bit `b - 1` down, and cut at bit 0 where `n` exceeds `b`
(41_block_packer.md R126). -/
def placeFromTop (b n v : Nat) : Nat := v * 2 ^ b / 2 ^ n

section
variable {b n v : Nat}

/-- What fits is shifted left. -/
theorem placeFromTop_of_le (h : n ≤ b) (v : Nat) : placeFromTop b n v = v * 2 ^ (b - n) := by
  rw [placeFromTop, Nat.mul_div_assoc _ (Nat.pow_dvd_pow 2 h), Nat.pow_div h (by decide)]

/-- What does not fit is shifted right. -/
theorem placeFromTop_of_ge (h : b ≤ n) (v : Nat) : placeFromTop b n v = v / 2 ^ (n - b) := by
  obtain ⟨m, rfl⟩ := Nat.exists_eq_add_of_le h
  rw [placeFromTop, Nat.pow_add, Nat.mul_comm (2 ^ b), Nat.mul_div_mul_right _ _ (Nat.two_pow_pos b),
    Nat.add_sub_cancel_left]

/-- A value of `w` bits placed after `m` others lies below bit `b - m`. -/
theorem placeFromTop_lt {m w : Nat} (hv : v < 2 ^ w) (hm : m ≤ b) (hn : n = m + w) :
    placeFromTop b n v < 2 ^ (b - m) := by
  refine Nat.div_lt_of_lt_mul ?_
  calc v * 2 ^ b < 2 ^ w * 2 ^ b := Nat.mul_lt_mul_of_pos_right hv (Nat.two_pow_pos b)
    _ = 2 ^ n * 2 ^ (b - m) := by
        rw [← Nat.pow_add, ← Nat.pow_add]
        congr 1
        omega

/-- Appending `w` bits to a number that fits places them below it. -/
theorem placeFromTop_append (h : n ≤ b) (v w q : Nat) :
    placeFromTop b (n + w) (v * 2 ^ w + q) = placeFromTop b n v + placeFromTop b (n + w) q := by
  have hv : v * 2 ^ w * 2 ^ b = 2 ^ (n + w) * placeFromTop b n v := by
    obtain ⟨m, rfl⟩ := Nat.exists_eq_add_of_le h
    rw [placeFromTop_of_le h, Nat.add_sub_cancel_left, Nat.pow_add, Nat.pow_add]
    ring
  rw [placeFromTop, Nat.add_mul, hv, Nat.mul_add_div (Nat.two_pow_pos _)]
  rfl

end

/-! ### The slots of a block (41_block_packer.md R120) -/

section
variable {d b k : Nat}

/-- Every slot but the last ends above bit 0. -/
theorem slot_ends_above (hd : 1 ≤ d) : k + 1 < ceilDiv b d ↔ (k + 1) * d < b := lt_ceilDiv_iff hd

/-- The last slot ends at bit 0 or is cut there. -/
theorem last_slot_reaches_zero (hd : 1 ≤ d) (hk : k + 1 = ceilDiv b d) : b ≤ (k + 1) * d := by
  rw [hk]
  exact le_ceilDiv_mul b hd

/-- The last slot ends exactly at bit 0 where the depth divides the block width. -/
theorem last_slot_whole_iff (hd : 1 ≤ d) (hk : k + 1 = ceilDiv b d) : (k + 1) * d = b ↔ d ∣ b := by
  refine ⟨fun h => h ▸ Nat.dvd_mul_left _ _, fun ⟨m, hm⟩ => ?_⟩
  have hbegins : k * d < b := (lt_ceilDiv_iff hd).1 (by omega)
  have hends := last_slot_reaches_zero hd hk
  subst hm
  rw [Nat.mul_comm d] at hbegins hends ⊢
  have hlt := Nat.lt_of_mul_lt_mul_right hbegins
  have hle := Nat.le_of_mul_le_mul_right hends hd
  congr 1
  omega

end

/-! ### FIELD (41_block_packer.md R126, R127) -/

theorem field_of_msbFirst {p : Params} (hp : p.shiftPolicy = .msbFirstBlock) (c : Cfg) (q k : Nat) :
    field p c q k = fieldMsbFirst (depthOf c) (blockBitsOf c) q k := by
  rw [field, hp]

theorem field_of_sourceObserved {p : Params} (hp : p.shiftPolicy = .sourceObserved) (c : Cfg) (q k : Nat) :
    field p c q k = fieldSourceObserved (depthOf c) q k := by
  rw [field, hp]

section
variable {d b q k : Nat}

/-- FIELD under MSB_FIRST_BLOCK, its shift's sign read as a comparison. -/
theorem fieldMsbFirst_eq (d b q k : Nat) : fieldMsbFirst d b q k =
    if (k + 1) * d ≤ b then BitVec.ofNat 64 (q * 2 ^ (b - (k + 1) * d))
    else BitVec.ofNat 64 (q / 2 ^ ((k + 1) * d - b)) := by
  have hcast : ((k : Int) + 1) * d = ((k + 1) * d : Nat) := by push_cast; rfl
  unfold fieldMsbFirst
  simp only [hcast]
  generalize (k + 1) * d = n
  by_cases h : n ≤ b
  · rw [if_pos (by omega), if_pos h, Nat.shiftLeft_eq, show ((b : Int) - n).toNat = b - n by omega]
  · rw [if_neg (by omega), if_neg h, Nat.shiftRight_eq_div_pow, show (-((b : Int) - n)).toNat = n - b by omega]

/-- A field lies in bits `B - 1` to 0 from the slot's first bit down. -/
theorem placeFromTop_slot_lt (hq : q < 2 ^ d) (hk : k * d ≤ b) : placeFromTop b ((k + 1) * d) q < 2 ^ (b - k * d) :=
  placeFromTop_lt hq hk (Nat.succ_mul k d)

/-- FIELD under MSB_FIRST_BLOCK places the value at the end of the first `k + 1` slots, and no bit is lost above. -/
theorem fieldMsbFirst_toNat (hb : b ≤ 64) (hq : q < 2 ^ d) (hk : k * d ≤ b) :
    (fieldMsbFirst d b q k).toNat = placeFromTop b ((k + 1) * d) q := by
  have hfits : placeFromTop b ((k + 1) * d) q < 2 ^ 64 :=
    (placeFromTop_slot_lt hq hk).trans_le (Nat.pow_le_pow_right (by decide) (by omega))
  rw [← Nat.mod_eq_of_lt hfits, ← BitVec.toNat_ofNat, fieldMsbFirst_eq]
  split
  · next h => rw [placeFromTop_of_le h]
  · next h => rw [placeFromTop_of_ge (Nat.le_of_not_le h)]

theorem fieldMsbFirst_lt (hb : b ≤ 64) (hq : q < 2 ^ d) (hk : k * d ≤ b) :
    (fieldMsbFirst d b q k).toNat < 2 ^ (b - k * d) :=
  fieldMsbFirst_toNat hb hq hk ▸ placeFromTop_slot_lt hq hk

/-- A field whose slot ends above bit 0 is the value shifted left. -/
theorem fieldMsbFirst_toNat_whole (hb : b ≤ 64) (hq : q < 2 ^ d) (hk : (k + 1) * d ≤ b) :
    (fieldMsbFirst d b q k).toNat = q * 2 ^ (b - (k + 1) * d) := by
  rw [fieldMsbFirst_toNat hb hq ((Nat.mul_le_mul_right d (Nat.le_succ k)).trans hk), placeFromTop_of_le hk]

end

/-- Settles O28: the placement of a field in its two cases, and which slot is the last. -/
theorem msbFirstFieldPlacement : Obligations.MsbFirstFieldPlacement := by
  intro d b q k hd _ hb hq hk
  have hbegins : k * d ≤ b := ((lt_ceilDiv_iff hd).1 hk).le
  refine ⟨?_, (slot_ends_above hd).1, fun hlast => ⟨last_slot_reaches_zero hd hlast, last_slot_whole_iff hd hlast⟩,
    fun _ => fieldMsbFirst_lt hb hq hbegins⟩
  rw [fieldMsbFirst_toNat hb hq hbegins]
  split
  · next h => exact placeFromTop_of_le h q
  · next h => exact placeFromTop_of_ge (Nat.le_of_not_le h) q

/-! ### Fields that share no bit (41_block_packer.md R130) -/

/-- A multiple of `2^n` and a number below `2^n` share no bit. -/
theorem and_eq_zero_of_lt_two_pow {x y : Word64} {a n : Nat} (hx : x.toNat = a * 2 ^ n) (hy : y.toNat < 2 ^ n) :
    x &&& y = 0 := by
  refine BitVec.eq_of_toNat_eq ?_
  rw [BitVec.toNat_and, hx, ← Nat.shiftLeft_eq]
  refine Nat.eq_of_testBit_eq fun i => ?_
  by_cases hi : i < n
  · simp [Nat.testBit_shiftLeft, hi.not_ge]
  · have hzero : y.toNat.testBit i = false :=
      Nat.testBit_lt_two_pow (hy.trans_le (Nat.pow_le_pow_right (by decide) (by omega)))
    simp [hzero]

/-- An earlier field is whole and ends above where a later one begins. -/
theorem fieldMsbFirst_disjoint {d b q q' k k' : Nat} (hb : b ≤ 64) (hq : q < 2 ^ d) (hq' : q' < 2 ^ d)
    (hk : k < k') (hk' : k' * d ≤ b) : fieldMsbFirst d b q k &&& fieldMsbFirst d b q' k' = 0 := by
  have hends : (k + 1) * d ≤ k' * d := Nat.mul_le_mul_right d hk
  exact and_eq_zero_of_lt_two_pow (fieldMsbFirst_toNat_whole hb hq (hends.trans hk'))
    ((fieldMsbFirst_lt hb hq' hk').trans_le (Nat.pow_le_pow_right (by decide) (by omega)))

/-- FIELD of slot 0 under SOURCE_OBSERVED loses the bits past bit 63 (41_block_packer.md R127). -/
theorem fieldSourceObserved_zero_toNat (d q : Nat) : (fieldSourceObserved d q 0).toNat = q * 2 ^ d % 2 ^ 64 := by
  rw [fieldSourceObserved, BitVec.toNat_ofNat, Nat.shiftLeft_eq]

/-- FIELD of slot 1 under SOURCE_OBSERVED is the value. -/
theorem fieldSourceObserved_one_toNat (d q : Nat) : (fieldSourceObserved d q 1).toNat = q % 2 ^ 64 :=
  BitVec.toNat_ofNat _ _

/-- Under SOURCE_OBSERVED the two fields share no bit. -/
theorem fieldSourceObserved_disjoint {d q q' : Nat} (hd : d ≤ 64) (hq' : q' < 2 ^ d) :
    fieldSourceObserved d q 0 &&& fieldSourceObserved d q' 1 = 0 := by
  have hslot0 : (fieldSourceObserved d q 0).toNat = q % 2 ^ (64 - d) * 2 ^ d := by
    rw [fieldSourceObserved_zero_toNat, ← Nat.mul_mod_mul_right, ← Nat.pow_add, Nat.sub_add_cancel hd]
  refine and_eq_zero_of_lt_two_pow hslot0 ?_
  rw [fieldSourceObserved_one_toNat]
  exact (Nat.mod_le _ _).trans_lt hq'

/-! ### The block (41_block_packer.md R128) -/

/-- A slot's value has `d` bits (40_quantizer.md R103; 41_block_packer.md R125). -/
theorem slotValue_lt (s : State) (o j k : Nat) : slotValue s o j k < 2 ^ depthOf s.cfg := by
  have hquantize : ∀ r g b, quantize r g b (depthOf s.cfg) s.cfg.invert < 2 ^ depthOf s.cfg := fun r g b =>
    Nat.and_lt_two_pow _ (Nat.sub_lt (Nat.two_pow_pos _) Nat.one_pos)
  unfold slotValue
  split
  · exact hquantize _ _ _
  · unfold padValue
    split
    · exact Nat.two_pow_pos _
    · exact hquantize _ _ _

/-- The values of `m` slots have `m * d` bits. -/
theorem concatValues_lt (s : State) (o j : Nat) : ∀ m, concatValues s o j m < 2 ^ (m * depthOf s.cfg)
  | 0 => by simp [concatValues]
  | m + 1 => by
    have hslot := slotValue_lt s o j m
    calc concatValues s o j m * 2 ^ depthOf s.cfg + slotValue s o j m
        < (concatValues s o j m + 1) * 2 ^ depthOf s.cfg := by rw [Nat.succ_mul]; omega
      _ ≤ 2 ^ (m * depthOf s.cfg) * 2 ^ depthOf s.cfg := Nat.mul_le_mul_right _ (concatValues_lt s o j m)
      _ = 2 ^ ((m + 1) * depthOf s.cfg) := by rw [← Nat.pow_add, Nat.succ_mul]

section
variable {s : State} {m : Nat}

/-- Where the first `m` slots of a block stand in its register at their places, the OR of the next field is an addition:
what is packed ends above where the field begins. -/
theorem packUpTo_succ_toNat {o j : Nat} (hp : s.params.shiftPolicy = .msbFirstBlock) (hb : blockBitsOf s.cfg ≤ 64)
    (hm : m * depthOf s.cfg ≤ blockBitsOf s.cfg)
    (hpacked : (packUpTo s o j m).toNat =
      placeFromTop (blockBitsOf s.cfg) (m * depthOf s.cfg) (concatValues s o j m)) :
    (packUpTo s o j (m + 1)).toNat =
      (packUpTo s o j m).toNat + (field s.params s.cfg (slotValue s o j m) m).toNat := by
  have hfield : (field s.params s.cfg (slotValue s o j m) m).toNat < 2 ^ (blockBitsOf s.cfg - m * depthOf s.cfg) :=
    field_of_msbFirst hp s.cfg _ _ ▸ fieldMsbFirst_lt hb (slotValue_lt s o j m) hm
  rw [packUpTo, BitVec.toNat_or, hpacked, placeFromTop_of_le hm, ← Nat.shiftLeft_eq,
    Nat.shiftLeft_add_eq_or_of_lt hfield]

/-- The block register after `m` slots is the concatenation of their values, written from bit `B - 1` down. -/
theorem packUpTo_toNat (o j : Nat) (hp : s.params.shiftPolicy = .msbFirstBlock) (hd : 1 ≤ depthOf s.cfg)
    (hb : blockBitsOf s.cfg ≤ 64) (hm : m ≤ pixelsPerBlock s.cfg) :
    (packUpTo s o j m).toNat = placeFromTop (blockBitsOf s.cfg) (m * depthOf s.cfg) (concatValues s o j m) := by
  induction m with
  | zero => simp [packUpTo, concatValues, placeFromTop]
  | succ m ih =>
    have hbegins : m * depthOf s.cfg ≤ blockBitsOf s.cfg := ((lt_ceilDiv_iff hd).1 hm).le
    have hpacked := ih (Nat.le_of_succ_le hm)
    rw [packUpTo_succ_toNat hp hb hbegins hpacked, hpacked, field_of_msbFirst hp,
      fieldMsbFirst_toNat hb (slotValue_lt s o j m) hbegins, concatValues, Nat.succ_mul, placeFromTop_append hbegins]

end

/-- Settles O29: a later field begins where an earlier one has ended, and so does the next field against the block as
far as it is packed. -/
theorem packedFieldsAreDisjoint : Obligations.PackedFieldsAreDisjoint := by
  refine ⟨?_, ?_, ?_, ?_⟩
  · intro d b q q' k k' hd _ hb hq hq' hk hk'
    have hbegins' : k' * d ≤ b := ((lt_ceilDiv_iff hd).1 hk').le
    have hbegins : k * d ≤ b := (Nat.mul_le_mul_right d hk.le).trans hbegins'
    have hbelow : ∀ n, 2 ^ (b - n) ≤ 2 ^ b := fun n => Nat.pow_le_pow_right (by decide) (Nat.sub_le b n)
    exact ⟨fieldMsbFirst_disjoint hb hq hq' hk hbegins', (fieldMsbFirst_lt hb hq hbegins).trans_le (hbelow _),
      (fieldMsbFirst_lt hb hq' hbegins').trans_le (hbelow _)⟩
  · intro d b q _ hdb hb hq
    simpa using fieldMsbFirst_toNat_whole (k := 0) hb hq (by simpa using hdb)
  · intro d b q q' _ hdb hb _ _ hq'
    exact fieldSourceObserved_disjoint (hdb.trans hb) hq'
  · intro s o j m hp hd _ hb hm
    have hbegins := ((lt_ceilDiv_iff hd).1 hm).le
    refine ⟨packUpTo_succ_toNat hp hb hbegins (packUpTo_toNat o j hp hd hb hm.le), ?_⟩
    rw [packUpTo_toNat o j hp hd hb hm]
    exact placeFromTop_lt (m := 0) (concatValues_lt s o j (m + 1)) (Nat.zero_le _) (Nat.zero_add _).symm

/-- Settles O30: with all slots packed the concatenation is at least as wide as the block, so its low bits are cut. -/
theorem blockIsTopBitsOfConcatenation : Obligations.BlockIsTopBitsOfConcatenation := by
  intro s o j hp hd _ hb
  rw [packBlock, packUpTo_toNat o j hp hd hb le_rfl]
  exact placeFromTop_of_ge (le_ceilDiv_mul _ hd) _

/-! ### The two policies (41_block_packer.md R131) -/

section
variable {d b : Nat}

/-- Where the depth divides the block width, no slot is cut. -/
theorem slot_whole_of_dvd {k : Nat} (hd : 1 ≤ d) (hdvd : d ∣ b) (hk : k < ceilDiv b d) : (k + 1) * d ≤ b := by
  obtain hinner | hlast := Nat.lt_or_eq_of_le hk
  · exact ((slot_ends_above hd).1 hinner).le
  · exact ((last_slot_whole_iff hd hlast).2 hdvd).le

theorem ceilDiv_of_dvd (hd : 1 ≤ d) (hdvd : d ∣ b) : ceilDiv b d = b / d := by
  obtain ⟨m, rfl⟩ := hdvd
  rw [ceilDiv, Nat.add_sub_assoc hd, Nat.mul_add_div hd, Nat.div_eq_of_lt (by omega), Nat.mul_div_cancel_left _ hd,
    Nat.add_zero]

/-- In a block of two whole fields the policies place a value alike. -/
theorem policies_agree_on_two_whole_fields {q k : Nat} (hb : 2 * d ≤ 64) (hq : q < 2 ^ d) (hk : k < 2) :
    fieldMsbFirst d (2 * d) q k = fieldSourceObserved d q k := by
  refine BitVec.eq_of_toNat_eq ?_
  have hwhole : (k + 1) * d ≤ 2 * d := Nat.mul_le_mul_right d hk
  have hmsb := fieldMsbFirst_toNat_whole hb hq hwhole
  rw [← Nat.mod_eq_of_lt (fieldMsbFirst d (2 * d) q k).isLt, hmsb]
  obtain rfl | rfl : k = 0 ∨ k = 1 := by omega
  · rw [fieldSourceObserved_zero_toNat, show 2 * d - (0 + 1) * d = d by omega]
  · rw [fieldSourceObserved_one_toNat, show 2 * d - (1 + 1) * d = 0 by omega, Nat.pow_zero, Nat.mul_one]

/-- Words that differ in a bit of the bytes serialized are serialized differently (42_serializer.md R160). -/
theorem serialize_ne_of_getLsbD {x y : Word64} {i count : Nat} (hi : i < 8 * count)
    (h : x.getLsbD i ≠ y.getLsbD i) : serialize x count ≠ serialize y count := by
  intro heq
  have hbyte : i / 8 < count := Nat.div_lt_of_lt_mul hi
  have hx := serialize_getElem? x hbyte
  rw [heq, serialize_getElem? y hbyte, Option.some.injEq] at hx
  have hbit := congrArg (·.getLsbD (i % 8)) hx
  simp only [BitVec.getLsbD_extractLsb', Nat.mod_lt i (by decide : 8 > 0), decide_true, Bool.true_and,
    Nat.div_add_mod] at hbit
  exact h hbit.symm

/-- The block of `q_0 = 1` with the other slot 0 under MSB_FIRST_BLOCK: bit `B - d` alone. -/
theorem fieldMsbFirst_one_toNat (hd : 1 ≤ d) (hdb : d ≤ b) (hb : b ≤ 64) :
    (fieldMsbFirst d b 1 0).toNat = 2 ^ (b - d) := by
  simpa using fieldMsbFirst_toNat_whole (k := 0) hb (Nat.one_lt_two_pow (by omega)) (by simpa using hdb)

/-- The field of a value 0 is 0. -/
theorem fieldMsbFirst_of_zero (d b k : Nat) : fieldMsbFirst d b 0 k = 0 := by
  simp [fieldMsbFirst_eq]

/-- Bit `B - d` tells the policies apart, unless `B = 2 d`: SOURCE_OBSERVED sets bit `d`, or none. -/
theorem policies_differ_in_bit (hd : 1 ≤ d) (hdb : d ≤ b) (hb : b ≤ 64) (hne : b ≠ 2 * d) :
    (fieldMsbFirst d b 1 0).getLsbD (b - d) ≠ (fieldSourceObserved d 1 0).getLsbD (b - d) := by
  have hmsb : (fieldMsbFirst d b 1 0).getLsbD (b - d) = true := by
    rw [← BitVec.testBit_toNat, fieldMsbFirst_one_toNat hd hdb hb, Nat.testBit_two_pow_self]
  have hsrc : (fieldSourceObserved d 1 0).getLsbD (b - d) = false := by
    rw [← BitVec.testBit_toNat, fieldSourceObserved_zero_toNat, Nat.one_mul, Nat.testBit_mod_two_pow,
      Nat.testBit_two_pow_of_ne (by omega), Bool.and_false]
  rw [hmsb, hsrc]
  decide

end

/-- Settles O31: under each policy FIELD is that policy's; whole fields are shifted left; and where `B` is not `2 d` the
blocks of `q_0 = 1` differ in bit `B - d`, which is serialized. -/
theorem policiesAgreeOnlyOnTwoWholeFields : Obligations.PoliciesAgreeOnlyOnTwoWholeFields := by
  refine ⟨fun p c q k hp => field_of_msbFirst hp c q k, fun p c q hp => ?_, ?_, ?_, ?_, by decide, by decide⟩
  · have hfield := field_of_sourceObserved hp c q
    rw [hfield, hfield]
    refine ⟨hfield, fieldSourceObserved_zero_toNat _ _, fun hd => BitVec.eq_of_toNat_eq ?_,
      fieldSourceObserved_one_toNat _ _⟩
    rw [fieldSourceObserved_zero_toNat, show depthOf c = 64 from hd]
    exact Nat.mul_mod_left _ _
  · intro d b q k hd hdvd _ hb hq hk
    have hwhole := slot_whole_of_dvd hd hdvd hk
    exact ⟨ceilDiv_of_dvd hd hdvd, fieldMsbFirst_toNat_whole hb hq hwhole, hwhole⟩
  · intro d q k hd hb hq hk
    exact ⟨(ceilDiv_of_dvd hd (Nat.dvd_mul_left d 2)).trans (Nat.mul_div_cancel _ hd),
      policies_agree_on_two_whole_fields hb hq hk⟩
  · intro d b hd hdb hb _ hne msb src
    have hmsb : msb = fieldMsbFirst d b 1 0 := by simp [msb, fieldMsbFirst_of_zero]
    have hsrc : src = fieldSourceObserved d 1 0 := by simp [src, fieldSourceObserved]
    have hserialized : b - d < 8 * ceilDiv b 8 := by
      have := le_ceilDiv_mul b (show 1 ≤ 8 by decide)
      omega
    have hbytes := serialize_ne_of_getLsbD hserialized (policies_differ_in_bit hd hdb hb hne)
    rw [hmsb, hsrc]
    exact ⟨fun h => hbytes (h ▸ rfl), hbytes⟩

end Sys2Proof.Machine
end

section
/-! SUPPORT. The byte lists: SERIALIZE as the digits of R in base 256, and ENCODE as the list of its bytes (spec
42_serializer.md R160, R164, R167; 20_memory.md R54). -/

namespace Sys2Proof.Machine

/-! ### SERIALIZE (42_serializer.md R160) -/

theorem toNat_extractByte (r : Word64) (i : Nat) : (r.extractLsb' (8 * i) 8).toNat = r.toNat / 2 ^ (8 * i) % 256 := by
  rw [BitVec.extractLsb'_toNat, Nat.shiftRight_eq_div_pow]

theorem serialize_succ (r : Word64) (count : Nat) :
    serialize r (count + 1) = serialize r count ++ [r.extractLsb' (8 * count) 8] := by
  simp [serialize, List.range_succ]

theorem bytesValue_append (xs ys : List Byte) :
    bytesValue (xs ++ ys) = bytesValue xs + 256 ^ xs.length * bytesValue ys := by
  induction xs with
  | nil => simp [bytesValue]
  | cons x xs ih =>
    rw [List.cons_append, bytesValue, bytesValue, ih, List.length_cons, Nat.pow_succ]
    ring

/-- Each byte more is the next digit of R in base 256. -/
theorem bytesValue_serialize (r : Word64) (count : Nat) :
    bytesValue (serialize r count) = r.toNat % 2 ^ (8 * count) := by
  have hbase : ∀ n, 2 ^ (8 * n) = 256 ^ n := fun n => Nat.pow_mul 2 8 n
  induction count with
  | zero => simp [serialize, bytesValue, Nat.mod_one]
  | succ n ih =>
    rw [serialize_succ, bytesValue_append, ih, serialize_length, hbase, hbase, Nat.mod_pow_succ, ← hbase,
      ← toNat_extractByte]
    simp [bytesValue]

/-- Settles O33: byte `i` is digit `i` of R in base 256, so the list stands for R without its higher digits. -/
theorem serializeIsLittleEndian : Obligations.SerializeIsLittleEndian := fun r count _ =>
  ⟨serialize_length r count, fun i hi => ⟨_, serialize_getElem? r hi, toNat_extractByte r i⟩,
    bytesValue_serialize r count⟩

/-! ### ENCODE (42_serializer.md R164) -/

/-- `n` rows of `w` places each, one after the other, are the `n * w` places in order. -/
theorem flatMap_range_rows {α : Type} (f : Nat → α) (n w : Nat) :
    ((List.range n).flatMap fun a => (List.range w).map fun b => f (a * w + b)) = (List.range (n * w)).map f := by
  induction n with
  | zero => simp
  | succ n ih => simp [List.range_succ, List.flatMap_append, ih, Nat.succ_mul, List.range_add]

/-- A serialized block is its stretch of ENCODE. -/
theorem serialize_packBlock (s : State) (o : Nat) {j : Nat} (hj : j < blocksPerLine s.cfg s.dims) :
    serialize (packBlock s o j) (bytesPerBlock s.cfg) = (List.range (bytesPerBlock s.cfg)).map fun b =>
      encodeByte s (o * (blocksPerLine s.cfg s.dims * bytesPerBlock s.cfg) + (j * bytesPerBlock s.cfg + b)) := by
  refine List.map_congr_left fun b hb => ?_
  rw [← encodeByte_of_block s o hj (List.mem_range.1 hb)]
  congr 1
  ring

/-- ENCODE lists its bytes by their index: the rows are the blocks of a line, then the lines of the pass. -/
theorem encodeImage_eq_map (s : State) :
    encodeImage s = (List.range (outputLength s.cfg s.dims)).map (encodeByte s) := by
  have hline (o : Nat) : ((List.range (blocksPerLine s.cfg s.dims)).flatMap fun j =>
      serialize (packBlock s o j) (bytesPerBlock s.cfg)) =
      (List.range (blocksPerLine s.cfg s.dims * bytesPerBlock s.cfg)).map fun i =>
        encodeByte s (o * (blocksPerLine s.cfg s.dims * bytesPerBlock s.cfg) + i) := by
    rw [List.flatMap_congr fun j hj => serialize_packBlock s o (List.mem_range.1 hj)]
    exact flatMap_range_rows (fun i => encodeByte s (o * (blocksPerLine s.cfg s.dims * bytesPerBlock s.cfg) + i)) _ _
  have hlength : lineCount s.cfg s.dims * (blocksPerLine s.cfg s.dims * bytesPerBlock s.cfg) =
      outputLength s.cfg s.dims := by
    unfold outputLength
    ring
  rw [encodeImage, List.flatMap_congr fun o _ => hline o, flatMap_range_rows, hlength]

/-- Settles O34: both the list and the block's bytes are read off `encodeByte`. -/
theorem encodeBytesByBlock : Obligations.EncodeBytesByBlock := by
  intro s
  rw [encodeImage_eq_map]
  refine ⟨by simp, fun i hi => ⟨by simp [hi], ?_⟩⟩
  have hbyte : i % bytesPerBlock s.cfg < bytesPerBlock s.cfg := by
    refine Nat.mod_lt _ (Nat.pos_of_ne_zero fun h => ?_)
    simp [outputLength, h] at hi
  exact serialize_getElem? _ hbyte

/-! ### The Encoded Bitmap (42_serializer.md R167) -/

/-- Where each of the first bytes of OUT holds a value, they are the list of those values. -/
theorem outBytes_of_read {s : State} {count : Nat} {f : Nat → Byte}
    (h : ∀ i < count, Memory.read s.out i = some (f i)) : outBytes s count = some ((List.range count).map f) := by
  rw [outBytes, List.map_congr_left fun i hi => h i (List.mem_range.1 hi), List.mapM_map]
  exact List.mapM_pure

theorem PassOutput.outBytes_eq {s : State} (h : PassOutput s) :
    outBytes s (outLen64 s.outLen).toNat = some (encodeImage s) := by
  obtain ⟨_, hlen, hbytes⟩ := h
  rw [hlen, outBytes_of_read hbytes, encodeImage_eq_map]

/-- Settles O57: in DONE the bytes of OUT below OUT_LEN are those of ENCODE; in IDLE and ERROR OUT_LEN is 0. -/
theorem encodedBitmapIsEncode : Obligations.EncodedBitmapIsEncode := by
  refine ⟨fun s hs => ?_, fun s hs hstate => ?_, fun s hb => ?_⟩
  · have ⟨hdone, _, _⟩ := hs
    exact ⟨by simp [encodedBitmap, hdone, hs.outBytes_eq], by simp [observe, outputAtEnd, isBusy, hdone, hs.outBytes_eq]⟩
  · obtain ⟨hlen, _⟩ := hs.noOutput hstate
    have hb : s.status.state ≠ .busy := by
      obtain h | h := hstate <;> simp [h]
    have hempty : (outLen64 s.outLen).toNat = 0 := by rw [hlen]; rfl
    simp [observe, outputAtEnd, isBusy, hb, hempty, outBytes]
  · simp [observe, outputAtEnd, isBusy, hb]

end Sys2Proof.Machine
end

section
/-! SUPPORT. ENG_FLUSH: the step it takes where it is enabled (spec 42_serializer.md R160 to R163). -/

namespace Sys2Proof.Machine

theorem flushOutside_iff (s : State) :
    flushOutside s = true ↔ s.params.outCap.toNat < s.eng.n.toNat + bytesPerBlock s.cfg := decide_eq_true_iff

section
variable {s : State}

/-- ENG_FLUSH where it is enabled. -/
theorem exec_engFlush_enabled (hb : s.status.state = .busy) (hq : s.eng.seq = seqFlush) :
    exec .engFlush s = .next (flushBlock s) :=
  congrArg Host.Outcome.next (if_pos ((flushEnabled_iff s).2 ⟨hb, hq⟩))

/-- The block that would pass OUT_CAP (42_serializer.md R161). -/
theorem flushBlock_outside (hf : flushOutside s = true) : flushBlock s = settleOut (raiseError .bounds false s) :=
  if_pos hf

/-- The last block of the pass (42_serializer.md R163). -/
theorem flushBlock_last (hf : ¬ flushOutside s = true) (hl : (engineAfterFlush s).o.toNat = lineCount s.cfg s.dims) :
    flushBlock s = settleOut { s with
      out := outAfterFlush s
      eng := { engineAfterFlush s with seq := seqNone }
      status.state := .done } := by
  rw [flushBlock, if_neg hf, if_pos hl]

/-- A block before the last. -/
theorem flushBlock_inner (hf : ¬ flushOutside s = true) (hl : (engineAfterFlush s).o.toNat ≠ lineCount s.cfg s.dims) :
    flushBlock s = { s with out := outAfterFlush s, eng := { engineAfterFlush s with seq := seqSlot } } := by
  rw [flushBlock, if_neg hf, if_neg hl]

end

/-- The engine once a block is written, field by field (42_serializer.md R161, R162). -/
theorem engineAfterFlush_eq (s : State) :
    engineAfterFlush s = ⟨0, s.eng.seq,
      if s.eng.j.toNat + 1 < blocksPerLine s.cfg s.dims then s.eng.o else s.eng.o + 1,
      if s.eng.j.toNat + 1 < blocksPerLine s.cfg s.dims then s.eng.j + 1 else 0,
      0, s.eng.n + BitVec.ofNat 36 (bytesPerBlock s.cfg)⟩ := by
  unfold engineAfterFlush advance
  split <;> rfl

/-- OUT with the block written: the bytes of R in the block's place, every other byte as before. -/
theorem read_outAfterFlush (s : State) (a : Nat) :
    Memory.read (outAfterFlush s) a =
      if s.eng.n.toNat ≤ a ∧ a < s.eng.n.toNat + bytesPerBlock s.cfg then
        some (s.eng.r.extractLsb' (8 * (a - s.eng.n.toNat)) 8)
      else Memory.read s.out a := by
  rw [outAfterFlush, Memory.read_writeBytes, serialize_length]
  split
  · next h => exact serialize_getElem? _ (by omega)
  · rfl

/-- Settles O38: the three cases of the flush, each with the engine and the bytes of OUT it leaves. -/
theorem flushWritesBlockAndAdvances : Obligations.FlushWritesBlockAndAdvances := by
  intro s hb hq bpb stepsOn j' o' n' byteAfter settledTo
  have heng : engineAfterFlush s = ⟨0, s.eng.seq, o', j', 0, n'⟩ := engineAfterFlush_eq s
  have hbytes : ∀ a, Memory.read (outAfterFlush s) a = byteAfter a := read_outAfterFlush s
  have hline : (engineAfterFlush s).o = o' := by rw [heng]
  have hstep := exec_engFlush_enabled hb hq
  refine ⟨fun hcap => ?_, fun hcap hl => ?_, fun hcap hl => ?_⟩
  · rw [flushBlock_outside ((flushOutside_iff s).2 hcap)] at hstep
    exact ⟨_, hstep, fun a => Memory.read_eraseAll _ _ a, rfl⟩
  · rw [flushBlock_inner (mt (flushOutside_iff s).1 hcap.not_gt) (hline ▸ hl), heng] at hstep
    exact ⟨_, hstep, hbytes, rfl⟩
  · rw [flushBlock_last (mt (flushOutside_iff s).1 hcap.not_gt) (hline ▸ hl), heng] at hstep
    exact ⟨_, hstep, fun a => (Memory.read_eraseAll _ _ a).trans (by rw [hbytes]), rfl⟩

end Sys2Proof.Machine
end

section
/-! SUPPORT. An accepted pass on engine turns: each turn is one step of the `L * NB * (P + 1)` of the pass, and the last
one leaves ENCODE in OUT (spec 42_serializer.md R161 to R165). -/

namespace Sys2Proof.Machine

/-! ### The engine steps taken -/

/-- The engine steps a pass has taken: `P + 1` for each block written, one for each slot packed since. -/
def stepsTaken (s : State) : Nat :=
  (s.eng.o.toNat * blocksPerLine s.cfg s.dims + s.eng.j.toNat) * (pixelsPerBlock s.cfg + 1) + slotsPacked s

theorem BusyInv.block_lt {s : State} (hs : BusyInv s) :
    s.eng.o.toNat * blocksPerLine s.cfg s.dims + s.eng.j.toNat + 1 ≤
      lineCount s.cfg s.dims * blocksPerLine s.cfg s.dims :=
  calc s.eng.o.toNat * blocksPerLine s.cfg s.dims + s.eng.j.toNat + 1
      ≤ s.eng.o.toNat * blocksPerLine s.cfg s.dims + blocksPerLine s.cfg s.dims :=
        Nat.add_le_add_left hs.blockInRange _
    _ = (s.eng.o.toNat + 1) * blocksPerLine s.cfg s.dims := (Nat.succ_mul _ _).symm
    _ ≤ lineCount s.cfg s.dims * blocksPerLine s.cfg s.dims := Nat.mul_le_mul_right _ hs.lineInRange

theorem BusyInv.slotsPacked_le {s : State} (hs : BusyInv s) : slotsPacked s ≤ pixelsPerBlock s.cfg := by
  unfold slotsPacked
  split
  · exact le_rfl
  · exact hs.slotInRange.le

/-- A pass that is BUSY has a step to come. -/
theorem BusyInv.stepsTaken_lt {s : State} (hs : BusyInv s) : stepsTaken s < passSteps s :=
  calc stepsTaken s
      < (s.eng.o.toNat * blocksPerLine s.cfg s.dims + s.eng.j.toNat + 1) * (pixelsPerBlock s.cfg + 1) := by
        rw [stepsTaken, Nat.succ_mul]
        exact Nat.add_lt_add_left (Nat.lt_succ_of_le hs.slotsPacked_le) _
    _ ≤ passSteps s := Nat.mul_le_mul_right _ hs.block_lt

theorem BusyInv.stepsTaken_processSlot {s : State} (hs : BusyInv s) (hq : s.eng.seq = seqSlot)
    (hclean : s.imgDirty = false) : stepsTaken (processSlot s) = stepsTaken s + 1 := by
  obtain ⟨⟨hp, hp64⟩, _, _⟩ := geometry_of_accepted hs.accepted
  have hk := hs.slotInRange
  rw [processSlot_clean hclean, stepsTaken, stepsTaken, slotsPacked_of_slot hq]
  obtain ⟨hlast, he⟩ | ⟨hinner, he⟩ := engineAfterSlot_cases s.eng (pixelsPerBlock s.cfg)
    (field s.params s.cfg (slotValue s s.eng.o.toNat s.eng.j.toNat s.eng.k.toNat) s.eng.k.toNat) <;> rw [he]
  · rw [slotsPacked_of_flush rfl]
    simp only
    omega
  · have hnext : (s.eng.k + 1).toNat = s.eng.k.toNat + 1 := toNat_add_one (by omega)
    rw [slotsPacked_of_slot]
    exacts [by simp only [hnext]; omega, hq]

theorem BusyInv.stepsTaken_of_flush {s : State} (hs : BusyInv s) (hq : s.eng.seq = seqFlush) :
    stepsTaken s + 1 =
      ((engineAfterFlush s).o.toNat * blocksPerLine s.cfg s.dims + (engineAfterFlush s).j.toNat) *
        (pixelsPerBlock s.cfg + 1) := by
  obtain ⟨_, _, _, _, _, hnext⟩ := hs.engineAfterFlush_spec
  rw [hnext, Nat.succ_mul, stepsTaken, slotsPacked_of_flush hq, Nat.add_assoc]

/-- The flush that reaches line `L` writes the last block (42_serializer.md R163). -/
theorem BusyInv.last_block {s : State} (hs : BusyInv s) (hl : (engineAfterFlush s).o.toNat = lineCount s.cfg s.dims) :
    s.eng.o.toNat * blocksPerLine s.cfg s.dims + s.eng.j.toNat + 1 =
      lineCount s.cfg s.dims * blocksPerLine s.cfg s.dims := by
  obtain ⟨_, _, _, _, _, hnext⟩ := hs.engineAfterFlush_spec
  rw [hl] at hnext
  exact Nat.le_antisymm hs.block_lt (hnext ▸ Nat.le_add_right _ _)

theorem BusyInv.stepsTaken_of_last_block {s : State} (hs : BusyInv s) (hq : s.eng.seq = seqFlush)
    (hl : (engineAfterFlush s).o.toNat = lineCount s.cfg s.dims) : stepsTaken s + 1 = passSteps s := by
  rw [stepsTaken, slotsPacked_of_flush hq, Nat.add_assoc, ← Nat.succ_mul, Nat.succ_eq_add_one, hs.last_block hl,
    passSteps]

theorem BusyInv.length_of_last_block {s : State} (hs : BusyInv s)
    (hl : (engineAfterFlush s).o.toNat = lineCount s.cfg s.dims) :
    s.eng.n.toNat + bytesPerBlock s.cfg = outputLength s.cfg s.dims := by
  rw [hs.position, ← Nat.mul_succ, Nat.succ_eq_add_one, hs.last_block hl, outputLength, Nat.mul_assoc]

/-! ### A pass under way, and its end -/

/-- OUT is as at the START of the pass at and above the pass's length. -/
def SameAbove (s₀ s : State) : Prop :=
  ∀ i, outputLength s₀.cfg s₀.dims ≤ i → Memory.read s.out i = Memory.read s₀.out i

/-- `s` is in the pass that START accepted in `s₀`, after `m` engine steps, and the host has kept its duties. -/
structure InPass (s₀ : State) (m : Nat) (s : State) : Prop where
  inv : Inv s
  busy : s.status.state = .busy
  input : SameInput s₀ s
  imgKept : s.imgDirty = false
  outKept : s.outDirty = []
  taken : stepsTaken s = m
  above : SameAbove s₀ s

/-- `t` is where the pass that START accepted in `s₀` ends. -/
structure PassEnded (s₀ t : State) : Prop where
  status : t.status = ⟨.done, .none⟩
  output : ∀ i < outputLength s₀.cfg s₀.dims, Memory.read t.out i = some (encodeByte s₀ i)
  above : SameAbove s₀ t

theorem SameInput.passSteps_eq {s t : State} (h : SameInput s t) : passSteps t = passSteps s := by
  obtain ⟨_, hc, hd, _⟩ := h
  rw [passSteps, hc, hd, passSteps]

theorem SameInput.outputLength_eq {s t : State} (h : SameInput s t) :
    outputLength t.cfg t.dims = outputLength s.cfg s.dims := by
  obtain ⟨_, hc, hd, _⟩ := h
  rw [hc, hd]

/-- START begins the pass with no step taken. -/
theorem InPass_acceptStart {s : State} (hs : Inv s) (hv : validate s = .none)
    (hlen : 0 < outputLength s.cfg s.dims) (es : List Event) : InPass s 0 { acceptStart s with events := es } where
  inv := Inv_reschedule (Inv_acceptStart hs hv) _ es _ _ rfl
  busy := by simp [hlen.ne']
  input := ⟨rfl, rfl, rfl, rfl⟩
  imgKept := rfl
  outKept := rfl
  taken := by simp [stepsTaken, slotsPacked, hlen.ne', seqSlot, seqFlush]
  above _ _ := rfl

section
variable {s₀ s : State} {m : Nat}

theorem InPass.reschedule (h : InPass s₀ m s) (es : List Event) : InPass s₀ m { s with events := es } :=
  { h with inv := Inv_reschedule h.inv s.host es s.hostTurns s.draws rfl }

theorem InPass.steps_lt (h : InPass s₀ m s) : m < passSteps s₀ := by
  rw [← h.input.passSteps_eq, ← h.taken]
  exact (h.inv.busy h.busy).stepsTaken_lt

/-- While BUSY the phase is SLOT or FLUSH (10_state.md R36 item 1). -/
theorem Inv.seq_of_busy (hs : Inv s) (hb : s.status.state = .busy) : s.eng.seq = seqSlot ∨ s.eng.seq = seqFlush := by
  have hphases : ∀ q : Seq, q ≠ seqNone → q ≠ 3 → q = seqSlot ∨ q = seqFlush := by decide
  exact hphases _ (hs.phaseIffBusy.2 hb) hs.phaseNotUnused

/-- ENG_SLOT is one step of the pass. -/
theorem InPass.after_slot (h : InPass s₀ m s) (hq : s.eng.seq = seqSlot) : InPass s₀ (m + 1) (processSlot s) where
  inv := (exec_effect (exec_engSlot_enabled h.busy hq)).keeps_inv h.inv
  busy := by rw [processSlot_clean h.imgKept]; exact h.busy
  input := by rw [processSlot_clean h.imgKept]; exact h.input
  imgKept := by rw [processSlot_clean h.imgKept]; exact h.imgKept
  outKept := by rw [processSlot_clean h.imgKept]; exact h.outKept
  taken := h.taken ▸ (h.inv.busy h.busy).stepsTaken_processSlot hq h.imgKept
  above := by rw [processSlot_clean h.imgKept]; exact h.above

/-- The block written lies below the pass's length. -/
theorem InPass.above_outAfterFlush (h : InPass s₀ m s) : SameAbove s₀ { s with out := outAfterFlush s } := by
  intro i hi
  obtain ⟨hfit, _⟩ := (h.inv.busy h.busy).block_fits
  rw [h.input.outputLength_eq] at hfit
  exact (read_outAfterFlush s i).trans ((if_neg (by omega)).trans (h.above i hi))

/-- ENG_FLUSH of a block before the last is one step of the pass. -/
theorem InPass.after_flush (h : InPass s₀ m s) (hq : s.eng.seq = seqFlush)
    (hl : (engineAfterFlush s).o.toNat ≠ lineCount s.cfg s.dims) : InPass s₀ (m + 1) (flushBlock s) := by
  have hbusy := h.inv.busy h.busy
  obtain ⟨_, hk, _⟩ := hbusy.engineAfterFlush_spec
  have hinv := (exec_effect (exec_engFlush_enabled h.busy hq)).keeps_inv h.inv
  rw [flushBlock_inner (by simp [hbusy.flush_inside]) hl] at hinv ⊢
  refine ⟨hinv, h.busy, h.input, h.imgKept, h.outKept, ?_, h.above_outAfterFlush⟩
  rw [← h.taken, hbusy.stepsTaken_of_flush hq, stepsTaken, slotsPacked_of_slot rfl]
  simp [hk]

/-- ENG_FLUSH of the last block ends the pass with ENCODE in OUT (42_serializer.md R164, R165). -/
theorem InPass.after_last_flush (h : InPass s₀ m s) (hq : s.eng.seq = seqFlush)
    (hl : (engineAfterFlush s).o.toNat = lineCount s.cfg s.dims) :
    m + 1 = passSteps s₀ ∧ PassEnded s₀ (flushBlock s) := by
  have hbusy := h.inv.busy h.busy
  have hsteps := hbusy.stepsTaken_of_last_block hq hl
  rw [h.taken, h.input.passSteps_eq] at hsteps
  have hread : ∀ i, Memory.read (Memory.eraseAll (outAfterFlush s) s.outDirty) i = Memory.read (outAfterFlush s) i :=
    fun i => by rw [h.outKept, Memory.eraseAll]
  rw [flushBlock_last (by simp [hbusy.flush_inside]) hl]
  refine ⟨hsteps, ?_, fun i hi => ?_, fun i hi => (hread i).trans (h.above_outAfterFlush i hi)⟩
  · rw [settleOut_status, h.inv.status_of_busy h.busy]
  · rw [← h.input.outputLength_eq, ← hbusy.length_of_last_block hl] at hi
    rw [h.input.encodeByte_eq]
    exact (hread i).trans (hbusy.read_outAfterFlush hq h.imgKept hi)

/-- An engine turn of a pass is one step of it, or the last one. -/
theorem InPass.step_engine (h : InPass s₀ m s) {rest : List Event} (he : s.events = .engine :: rest) :
    ∃ t, step s = .next t ∧ t.events = rest ∧
      (InPass s₀ (m + 1) t ∨ m + 1 = passSteps s₀ ∧ PassEnded s₀ t) := by
  have hturn := h.reschedule rest
  obtain hq | hq := h.inv.seq_of_busy h.busy
  · have hexec := exec_engSlot_enabled hturn.busy hq
    have hfetch := engineFetch_of_ok h.busy (i := .engSlot) (hq ▸ rfl)
    exact ⟨_, (step_engine_fetched he hfetch).trans hexec, (exec_effect hexec).events_eq, .inl (hturn.after_slot hq)⟩
  · have hexec := exec_engFlush_enabled hturn.busy hq
    have hfetch := engineFetch_of_ok h.busy (i := .engFlush) (hq ▸ rfl)
    refine ⟨_, (step_engine_fetched he hfetch).trans hexec, (exec_effect hexec).events_eq, ?_⟩
    by_cases hl : (engineAfterFlush { s with events := rest }).o.toNat = lineCount s.cfg s.dims
    · exact .inr (hturn.after_last_flush hq hl)
    · exact .inl (hturn.after_flush hq hl)

/-! ### The run of a pass (42_serializer.md R165) -/

/-- As long as steps of the pass remain, engine turns alone leave it BUSY with one step more taken by each. -/
theorem InPass.run_engine {n : Nat} {tail : List Event} (h : InPass s₀ 0 s)
    (he : s.events = List.replicate n .engine ++ tail) (hmn : m ≤ n) (hm : m < passSteps s₀) :
    ∃ u, Sys2Proof.core.run m s = .next u ∧ InPass s₀ m u ∧ u.events = List.replicate (n - m) .engine ++ tail := by
  induction m with
  | zero => exact ⟨s, rfl, h, he⟩
  | succ m ih =>
    obtain ⟨u, hrun, hu, hevents⟩ := ih (Nat.le_of_succ_le hmn) (Nat.lt_of_succ_lt hm)
    rw [show n - m = n - (m + 1) + 1 by omega, List.replicate_succ] at hevents
    obtain ⟨t, hstep, ht, hpass | ⟨hlast, _⟩⟩ := hu.step_engine hevents
    · exact ⟨t, (run_succ_last hrun).trans hstep, hpass, ht⟩
    · exact absurd hlast hm.ne

/-- The last engine turn of the pass ends it. -/
theorem InPass.run_to_end {tail : List Event} (h : InPass s₀ 0 s)
    (he : s.events = List.replicate (passSteps s₀) .engine ++ tail) :
    ∃ t, Sys2Proof.core.run (passSteps s₀) s = .next t ∧ t.events = tail ∧ PassEnded s₀ t := by
  obtain ⟨m, hm⟩ := Nat.exists_eq_add_of_lt h.steps_lt
  rw [Nat.zero_add] at hm
  obtain ⟨u, hrun, hu, hevents⟩ := h.run_engine he (m := m) (by omega) (by omega)
  rw [hm, Nat.add_sub_cancel_left] at hevents
  obtain ⟨t, hstep, ht, hpass | ⟨_, hended⟩⟩ := hu.step_engine hevents
  · exact absurd hpass.steps_lt (hm ▸ Nat.lt_irrefl _)
  · exact ⟨t, hm ▸ (run_succ_last hrun).trans hstep, ht, hended⟩

end

/-- Settles O58: START begins the pass, each engine turn is one of its steps, and the last leaves ENCODE in OUT. -/
theorem acceptedPassWritesEncode : Obligations.AcceptedPassWritesEncode := by
  intro s rest hs hb hv hlen
  have hpass := InPass_acceptStart hs hv hlen (List.replicate (passSteps s) .engine ++ rest)
  refine ⟨_, exec_start_accepted hb hv, fun m hm => ?_, ?_⟩
  · obtain ⟨u, hrun, hu, _⟩ := hpass.run_engine rfl hm.le hm
    exact ⟨u, hrun, hu.busy⟩
  · obtain ⟨t, hrun, hevents, hended⟩ := hpass.run_to_end rfl
    exact ⟨t, hrun, hended.status, hevents, hended.output, hended.above⟩

end Sys2Proof.Machine
end

section
/-! SUPPORT. The host transactions on the registers: what each write stores and each read returns (spec
43_host_commands.md R181 to R196). -/

namespace Sys2Proof.Machine

section
variable {s : State}

theorem isBusy_iff (s : State) : isBusy s = true ↔ s.status.state = .busy := decide_eq_true_iff

/-! ### Writes (43_host_commands.md R181 to R188) -/

/-- While BUSY a write of CFG is ignored (10_state.md R37). -/
theorem exec_wrCfg_busy (hb : s.status.state = .busy) (depth blockBits : BitVec 7) (scan : Scan) (invert : Bool) :
    exec (.wrCfg depth blockBits scan invert) s = .next s :=
  congrArg Host.Outcome.next (if_pos ((isBusy_iff s).2 hb))

/-- While BUSY a write of DIMS is ignored (10_state.md R37). -/
theorem exec_wrDims_busy (hb : s.status.state = .busy) (width height : BitVec 16) :
    exec (.wrDims width height) s = .next s :=
  congrArg Host.Outcome.next (if_pos ((isBusy_iff s).2 hb))

theorem exec_wrDims_not_busy (hb : s.status.state ≠ .busy) (width height : BitVec 16) :
    exec (.wrDims width height) s = .next { s with dims := ⟨width, height⟩ } :=
  congrArg Host.Outcome.next (if_neg (mt (isBusy_iff s).1 hb))

/-! ### Reads (43_host_commands.md R189 to R196) -/

/-- A read of any register but STATUS returns its word, for every DATA, and does nothing else. -/
theorem exec_read {r : Reg} (hr : r ≠ .status) (data : Word32) :
    exec (decodeHost (txnOf false r.number data)) s = .next (returnToHost s r) := by
  rw [decodeHost_read]
  cases r with
  | status => exact absurd rfl hr
  | ctrl | cfg | dims | outLenLo | outLenHi | geom | rsvd7 => rfl

/-- A read of STATUS returns its word, and where that is DONE the host takes note (20_memory.md R61). -/
theorem exec_read_status (data : Word32) :
    exec (decodeHost (txnOf false 3 data)) s = .next (noteDone (returnToHost s .status)) :=
  congrArg (exec · s) (decodeHost_read .status data)

end

/-- The CFG word with SCAN and INVERT as the numbers 0 and 1, shifted before they become words (10_state.md R23). -/
theorem cfgWord_eq_ite (c : Cfg) :
    cfgWord c = c.depth.setWidth 32 ||| (c.blockBits.setWidth 32 <<< 8) |||
      ((if c.scan = .columnMajor then 1 else 0) <<< 16) ||| ((if c.invert then 1 else 0) <<< 17) := by
  have hscan : ∀ scan : Scan, (BitVec.ofBool scan.bit).setWidth 32 <<< 16 =
      (((if scan = .columnMajor then 1 else 0) <<< 16 : Nat) : Word32) := by
    intro scan
    cases scan <;> rfl
  have hinvert : ∀ b : Bool, (BitVec.ofBool b).setWidth 32 <<< 17 =
      (((if b then 1 else 0) <<< 17 : Nat) : Word32) := by
    intro b
    cases b <;> rfl
  rw [cfgWord, cfgData, hscan, hinvert]

/-! ### The statements -/

/-- Settles O7: DATA decodes to WR_CFG of its four fields, which are stored outside BUSY and ignored in it. -/
theorem writeCfgStoresFieldsUnlessBusy : Obligations.WriteCfgStoresFieldsUnlessBusy := by
  refine fun s data => ⟨fun hb => exec_write_cfg hb data, fun hb => ?_⟩
  rw [decodeHost_write_cfg]
  exact exec_wrCfg_busy hb _ _ _ _

/-- Settles O9: DATA decodes to WR_DIMS of its two halves, and their DIMS word is DATA again. -/
theorem writeDimsStoresFieldsUnlessBusy : Obligations.WriteDimsStoresFieldsUnlessBusy := by
  intro s data
  rw [decodeHost_write_dims]
  exact ⟨fun hb => ⟨exec_wrDims_not_busy hb _ _, dimsData_of_fields data⟩, fun hb => exec_wrDims_busy hb _ _⟩

/-- Settles O10: a write of CTRL reads bit 0 of DATA only, a write of the other five registers none of it, and each of
the six instructions answers the state it is given. -/
theorem ignoredWritesChangeNothing : Obligations.IgnoredWritesChangeNothing := by
  intro s data
  refine ⟨fun hnop => ?_, rfl, decodeHost_write_status data, rfl, ?_, rfl, ?_, rfl, decodeHost_write_geom data, rfl,
    ?_, rfl⟩
  · rw [decodeHost_write_ctrl, hnop]
    rfl
  · exact decodeHost_write_ignored (r := .outLenLo) (by decide) data
  · exact decodeHost_write_ignored (r := .outLenHi) (by decide) data
  · exact decodeHost_write_ignored (r := .rsvd7) (by decide) data

/-- Settles O11: each read returns its register's word, and only the CFG word is spelled otherwise in the model. -/
theorem readsReturnRegisterWords : Obligations.ReadsReturnRegisterWords := by
  intro s data answers
  refine ⟨exec_read (r := .ctrl) (by decide) data, ?_, exec_read (r := .dims) (by decide) data,
    exec_read (r := .outLenLo) (by decide) data, exec_read (r := .outLenHi) (by decide) data,
    exec_read (r := .geom) (by decide) data, exec_read (r := .rsvd7) (by decide) data⟩
  have hcfg : answers 1 .cfg (cfgWord s.cfg) := exec_read (r := .cfg) (by decide) data
  exact cfgWord_eq_ite s.cfg ▸ hcfg

/-- Settles O12: the word of STATUS is returned, and the note of DONE is all that changes beside it. -/
theorem statusReadReturnsStateAndError : Obligations.StatusReadReturnsStateAndError := fun s data =>
  (exec_read_status data).trans (congrArg Host.Outcome.next (noteDone_eq (returnToHost s .status)))

end Sys2Proof.Machine
end

section
/-! SUPPORT. START, and the host transactions during a pass (spec 43_host_commands.md R180; 60_exceptions.md R202, R205;
70_reset_and_hazards.md R234, R235). -/

namespace Sys2Proof.Machine

section
variable {s : State}

/-! ### The three ways of START -/

theorem exec_start_busy (hb : s.status.state = .busy) : exec .start s = .next s := by
  obtain ⟨_, h⟩ | ⟨hnb, _⟩ | ⟨hnb, _⟩ := startPass_cases s
  · exact congrArg Host.Outcome.next h
  · exact absurd hb hnb
  · exact absurd hb hnb

theorem exec_start_refused (hb : s.status.state ≠ .busy) (hv : validate s ≠ .none) :
    exec .start s = .next (raiseError (validate s) true s) := by
  obtain ⟨h, _⟩ | ⟨_, _, h⟩ | ⟨_, h, _⟩ := startPass_cases s
  · exact absurd h hb
  · exact congrArg Host.Outcome.next h
  · exact absurd h hv

/-! ### The numbers an accepted START shows -/

/-- OUT_LEN_LO and OUT_LEN_HI after an accepted START: the length fits in the two (10_state.md R29). -/
theorem acceptStart_outLen_halves (hv : validate s = .none) :
    (acceptStart s).outLen.lo.toNat = outputLength s.cfg s.dims % 2 ^ 32 ∧
    (acceptStart s).outLen.hi.toNat = outputLength s.cfg s.dims / 2 ^ 32 := by
  have hlen := outputLength_lt hv
  rw [acceptStart_outLen, BitVec.toNat_ofNat, BitVec.toNat_ofNat, Nat.shiftRight_eq_div_pow]
  omega

end

theorem lineCount_eq_ite (c : Cfg) (dm : Dims) :
    lineCount c dm = if c.scan = .rowMajor then dm.height.toNat else dm.width.toNat := by
  unfold lineCount
  cases c.scan <;> rfl

theorem lineLength_eq_ite (c : Cfg) (dm : Dims) :
    lineLength c dm = if c.scan = .rowMajor then dm.width.toNat else dm.height.toNat := by
  unfold lineLength
  cases c.scan <;> rfl

/-! ### The statements -/

/-- Settles O15: START is ignored, refused or accepted, and the length and geometry an accepted one shows fit their
fields. -/
theorem startFollowsItsRule : Obligations.StartFollowsItsRule := by
  refine fun s => ⟨exec_start_busy, exec_start_refused, fun hb hv => ?_⟩
  intro p bpb l nb len
  have hlen : outputLength s.cfg s.dims = len := by
    rw [outputLength, blocksPerLine, lineCount_eq_ite, lineLength_eq_ite]
    rfl
  obtain ⟨hlo, hhi⟩ := acceptStart_outLen_halves hv
  obtain ⟨hppb, hbpb⟩ := acceptStart_geom_toNat hv
  rw [hlen] at hlo hhi
  refine ⟨_, exec_start_accepted hb hv, hlo, hhi, hppb, hbpb, ?_, ?_,
    rfl, rfl, rfl, rfl, rfl, rfl, rfl, rfl, rfl, rfl, rfl, rfl⟩
  · rw [acceptStart_status, hlen]
  · rw [acceptStart_eng, hlen]
    rfl

/-- Settles O18: the length of an empty image is 0, so that the pass ends in START. -/
theorem emptyImageIsDoneAtOnce : Obligations.EmptyImageIsDoneAtOnce := by
  intro s hb hv hempty
  obtain ⟨⟨hp, _⟩, _⟩ := geometry_of_accepted hv
  have hlen : outputLength s.cfg s.dims = 0 := outputLength_of_empty hp hempty
  refine ⟨_, exec_start_accepted hb hv, ?_, ?_, ?_, fun _ => rfl⟩
  · rw [acceptStart_status, hlen]
    rfl
  · rw [acceptStart_outLen, hlen]
    rfl
  · rw [acceptStart_eng, hlen]
    rfl

/-- While BUSY a host transaction changes at most what the host's reads returned: what STATUS returns is not DONE, so
that the host's note stays too. -/
theorem ExecEffect.reads_only_of_host {s t : State} {i : Instr} (h : ExecEffect s i t) (hi : isHostInstr i = true)
    (hb : s.status.state = .busy) : t = { s with host := { s.host with reads := t.host.reads } } := by
  cases h with
  | ignored | registerRead => rfl
  | statusRead =>
    have hnote : (s.host.seenDone || decide (s.status.state = .done)) = s.host.seenDone := by simp [hb]
    rw [hnote]
    rfl
  | startRefused hnb _ | startAccepted hnb _ | cfgStored _ hnb | dimsStored _ hnb => exact absurd hb hnb
  | slotProcessed _ _ _ | flushRefused _ _ _ | lastBlockFlushed _ _ _ _ | blockFlushed _ _ _ _ => cases hi

/-- Settles O49: every instruction answers a next state, and in BUSY those that change more than the reads are the
engine's. -/
theorem hostCannotDisturbPass : Obligations.HostCannotDisturbPass := by
  intro i s hb hi
  obtain ⟨t, ht⟩ := exec_next i s
  exact ⟨t, ht, (exec_effect ht).reads_only_of_host hi hb⟩

end Sys2Proof.Machine
end

section
/-! SUPPORT. Errors: the conditions of VALIDATE by priority, what leaves ERROR, and the bounds check of ENG_FLUSH (spec
60_exceptions.md R202, R203, R207). -/

namespace Sys2Proof.Machine

/-! ### VALIDATE (60_exceptions.md R202) -/

/-- The size law with `L` and the line length spelled out by scan direction (41_block_packer.md R121, R122). -/
theorem outputLength_eq_ite (c : Cfg) (dm : Dims) :
    outputLength c dm =
      bytesPerBlock c * (if c.scan = .rowMajor then dm.height.toNat else dm.width.toNat) *
        ceilDiv (if c.scan = .rowMajor then dm.width.toNat else dm.height.toNat) (pixelsPerBlock c) := by
  rw [outputLength, blocksPerLine, lineCount_eq_ite, lineLength_eq_ite]

section
variable {s : State}

/-- Two nonzero fields of which one is past 64. -/
theorem validate_of_out_of_range (hd : depthOf s.cfg ≠ 0) (hb : blockBitsOf s.cfg ≠ 0)
    (hr : 64 < depthOf s.cfg ∨ 64 < blockBitsOf s.cfg) : validate s = .range := by
  rw [validate, if_neg hd, if_neg hb, if_pos hr]

/-- Two fields in range of which the depth is the larger. -/
theorem validate_of_depth_gt_block (hb : blockBitsOf s.cfg ≠ 0) (hd64 : depthOf s.cfg ≤ 64)
    (hlt : blockBitsOf s.cfg < depthOf s.cfg) : validate s = .depthGtBlock := by
  rw [validate, if_neg (by omega), if_neg hb, if_neg (by omega), if_pos hlt]

/-- A legal configuration (10_state.md R24) passes the first four conditions, and the last two decide. -/
theorem validate_of_legal (hd : depthOf s.cfg ≠ 0) (hb : blockBitsOf s.cfg ≤ 64)
    (hdb : depthOf s.cfg ≤ blockBitsOf s.cfg) :
    validate s =
      if s.params.outCap.toNat < outputLength s.cfg s.dims then .bounds
      else if 0 < outputLength s.cfg s.dims ∧ 3 ≤ pixelsPerBlock s.cfg ∧ s.params.shiftPolicy = .sourceObserved then
        .negShift
      else .none := by
  rw [validate, if_neg hd, if_neg (by omega), if_neg (by omega), if_neg (by omega)]

end

/-- Settles O16: the first four conditions read the configuration alone, and a legal one leaves the length and the
negative shift to decide. -/
theorem validateReportsFirstError : Obligations.ValidateReportsFirstError := by
  intro s d b p l nb len negShift
  have hlen : outputLength s.cfg s.dims = len := outputLength_eq_ite s.cfg s.dims
  have hneg : (0 < outputLength s.cfg s.dims ∧ 3 ≤ pixelsPerBlock s.cfg ∧
      s.params.shiftPolicy = .sourceObserved) ↔ negShift := by
    rw [hlen]
    exact ⟨fun ⟨h0, hp, hs⟩ => ⟨hs, hp, h0⟩, fun ⟨hs, hp, h0⟩ => ⟨h0, hp, hs⟩⟩
  refine ⟨fun hd => if_pos hd, fun hd hb => (if_neg hd).trans (if_pos hb), validate_of_out_of_range,
    fun _ hb hd64 _ hlt => validate_of_depth_gt_block hb hd64 hlt, fun hd hb hdb hcap => ?_,
    fun hd hb hdb hcap hn => ?_, fun hd hb hdb hcap hn => ?_⟩
  · rw [validate_of_legal hd hb hdb, if_pos (hlen ▸ hcap)]
  · rw [validate_of_legal hd hb hdb, if_neg (hlen ▸ hcap.not_gt), if_pos (hneg.2 hn)]
  · rw [validate_of_legal hd hb hdb, if_neg (hlen ▸ hcap.not_gt), if_neg (mt hneg.1 hn)]

/-! ### Leaving ERROR (60_exceptions.md R207) -/

/-- Outside BUSY START is the only instruction that writes STATUS. -/
theorem ExecEffect.status_eq_or_start {s t : State} {i : Instr} (h : ExecEffect s i t)
    (hb : s.status.state ≠ .busy) : t.status = s.status ∨ i = .start := by
  cases h with
  | startRefused _ _ | startAccepted _ _ => exact .inr rfl
  | flushRefused hbusy _ _ | lastBlockFlushed hbusy _ _ _ => exact absurd hbusy hb
  | _ => exact .inl rfl

/-- Settles O19: ERROR is not BUSY, where START is the only instruction and reset the only other turn that writes
STATUS. -/
theorem errorIsLeftOnlyByStartOrReset : Obligations.ErrorIsLeftOnlyByStartOrReset := by
  intro s t herr h
  have hb : s.status.state ≠ .busy := by simp [herr]
  obtain ⟨i, u, hn, hu, he⟩ | he := step_effect h
  · obtain hkept | rfl := he.status_eq_or_start (hu.status_eq ▸ hb)
    · exact .inl (hkept.trans hu.status_eq)
    · exact .inr (.inl ⟨u, hn⟩)
  · exact he.status_eq_or_reset.imp_right fun ⟨hr, _⟩ => .inr hr

/-! ### The bounds check (60_exceptions.md R203) -/

/-- Settles O39: in a pass the next block lies within the output, which fits in OUT; were the check to fire, settling
would erase the marked bytes only, and there are none. -/
theorem boundsCheckNeverFires : Obligations.BoundsCheckNeverFires := by
  refine ⟨fun s hs hb => (hs.busy hb).block_fits, fun s hb hq hdirty hcap => ?_⟩
  have hstep := exec_engFlush_enabled hb hq
  rw [flushBlock_outside ((flushOutside_iff s).2 hcap)] at hstep
  exact ⟨_, hstep, rfl, rfl, rfl, fun i => by simp [Memory.read_eraseAll, hdirty]⟩

end Sys2Proof.Machine
end

section
/-! SUPPORT. The reset input, and the image the host provides (spec 70_reset_and_hazards.md R230, R231, R233). -/

namespace Sys2Proof.Machine

/-- The reset input takes effect in any STATE (70_reset_and_hazards.md R230). -/
theorem step_reset {s : State} {rest : List Event} (he : s.events = .reset :: rest) :
    step s = .next (resetCore { s with events := rest }) :=
  step_of_settled (nextAction_scheduled he)

/-- Settles O21: `resetCore` writes every piece, and its empty memory OUT holds no value at any index. -/
theorem resetSetsEveryPiece : Obligations.ResetSetsEveryPiece := fun _ _ he =>
  ⟨_, step_reset he, rfl, rfl, rfl, rfl, rfl, rfl, fun _ => rfl, rfl, rfl, rfl, rfl, rfl⟩

/-- A pixel the host writes holds its sample. -/
theorem imgAt_setPixel_same (x y : BitVec 16) (w : Word64) (s : State) : imgAt (setPixel x y w s) x y = w := by
  rw [imgAt, setPixel_img, Memory.read_write_same, Option.getD_some]

/-- Outside a pass a pixel the host writes breaks no duty: only the image changes (20_memory.md R66). -/
theorem setPixel_of_not_busy {s : State} (hb : s.status.state ≠ .busy) (x y : BitVec 16) (w : Word64) :
    setPixel x y w s = { s with img := Memory.write s.img (pixelKey x y) w } := by
  simp [setPixel, isBusy, hb]

/-- Settles O55: the write goes to its own key of the memory IMG, and outside BUSY it sets no mark. -/
theorem hostProvidesImage : Obligations.HostProvidesImage := by
  intro s rest x y w hb he
  refine ⟨_, step_setPixel he, ?_, imgAt_setPixel_same x y w _, fun x' y' hother => ?_⟩
  · rw [setPixel_of_not_busy (s := { s with events := rest }) hb]
  · exact imgAt_setPixel_other w { s with events := rest } hother

end Sys2Proof.Machine
end

section
/-! SUPPORT. Who moves next while the engine can step: what is scheduled, then the turns left to the host, then the
engine. So no endless run passes the engine over (spec 70_reset_and_hazards.md R240; log 16). -/

namespace Sys2Proof.Machine

/-! ### The turns before the engine's next step -/

/-- The turns the host takes before the engine's next step, drawn or still to be drawn, where both can move and nothing
is scheduled. -/
def turnsLeft (s : State) : Nat := s.hostTurns.getD (Config.freeHostTurns s.draws)

/-- How long the engine can have to wait for its turn: the events scheduled, and after them the host's turns. -/
def waiting (s : State) : ℕ ×ₗ ℕ := toLex (s.events.length, turnsLeft s)

section
variable {s t u : State}

theorem waiting_lt_of_scheduled {e : Event} {rest : List Event} (he : s.events = e :: rest) (ht : t.events = rest) :
    waiting t < waiting s :=
  Prod.Lex.toLex_lt_toLex.2 (.inl (by simp [he, ht]))

theorem waiting_lt_of_turnsLeft_lt (he : t.events = s.events) (hlt : turnsLeft t < turnsLeft s) :
    waiting t < waiting s :=
  Prod.Lex.toLex_lt_toLex.2 (.inr ⟨by rw [he], hlt⟩)

/-- Where both agents can move, the open turn is the contested one with the host's turns drawn. -/
theorem freeAction_eq_contestedTurn (he : engineEnabled s = true) (hh : hostEnabled s = true) :
    ∃ d, freeAction s = contestedTurn (turnsLeft s) { s with draws := d } := by
  obtain hw | ⟨count, hw⟩ := Option.eq_none_or_eq_some s.hostTurns
  · exact ⟨s.draws + 1, by simp [freeAction, he, hh, hw, turnsLeft]⟩
  · have hleft : turnsLeft s = count := by rw [turnsLeft, hw, Option.getD_some]
    exact ⟨s.draws, hleft.symm ▸ freeAction_contested he hh hw⟩

/-- Where the engine can step, the open turn is the engine's, or one of the host's turns before it. -/
theorem freeAction_of_engineEnabled (he : engineEnabled s = true) :
    (∃ w d, freeAction s = engineTurn { s with hostTurns := w, draws := d }) ∨
    ∃ left d, left < turnsLeft s ∧ freeAction s = hostTurn { s with hostTurns := some left, draws := d } := by
  cases hh : hostEnabled s with
  | false => exact .inl ⟨s.hostTurns, s.draws, by simp [freeAction, he, hh]⟩
  | true =>
    obtain ⟨d, hturn⟩ := freeAction_eq_contestedTurn he hh
    obtain ⟨_, hc⟩ | ⟨left, hl, hc⟩ := contestedTurn_cases (turnsLeft s) { s with draws := d }
    · exact .inl ⟨none, d, hturn.trans hc⟩
    · exact .inr ⟨left, d, by omega, hturn.trans hc⟩

/-! ### Whose step it is -/

theorem engineMoves_of_engineTurn (hturn : nextAction s = engineTurn u) (he : engineEnabled u = true) :
    engineMoves s = true := by
  obtain ⟨i, hi, hmicro⟩ := engineTurn_of_enabled he
  simp [engineMoves, hturn, hi, hmicro]

theorem engineMoves_of_hostTurn (hturn : nextAction s = hostTurn u) : engineMoves s = false := by
  obtain ⟨w, _, hc⟩ | ⟨_, _, _, hc⟩ | ⟨_, _, _, hc⟩ | ⟨_, hc⟩ := hostTurn_cases u
  · simp [engineMoves, hturn, hc, isHostInstr_decodeHost w]
  · simp [engineMoves, hturn, hc]
  · simp [engineMoves, hturn, hc]
  · simp [engineMoves, hturn, hc]

/-- A host turn during a pass completes, changes the host alone, and leaves its note of DONE (70_reset_and_hazards.md
R235). -/
theorem step_hostTurn_busy (hturn : nextAction s = hostTurn u) (hb : u.status.state = .busy) :
    ∃ h, step s = .next { u with host := h } ∧ h.seenDone = u.host.seenDone := by
  obtain ⟨w, _, hc⟩ | ⟨target, _, _, hc⟩ | ⟨_, _, _, hc⟩ | ⟨_, hc⟩ := hostTurn_cases u <;> rw [hc] at hturn
  · obtain ⟨t, ht⟩ := exec_next (decodeHost w) (hostNext u)
    have hreads := (exec_effect ht).reads_only_of_host (isHostInstr_decodeHost w) hb
    exact ⟨{ (hostNext u).host with reads := t.host.reads },
      (step_of_run hturn).trans (ht.trans (congrArg _ hreads)), rfl⟩
  · exact ⟨{ u.host with pc := target }, step_of_settled hturn, rfl⟩
  · exact ⟨{ u.host with pc := u.host.pc + 1 }, step_of_settled hturn, rfl⟩
  · exact ⟨u.host, step_of_settled hturn, rfl⟩

/-! ### The schedule after a scheduled turn -/

theorem hostTurn_events (s : State) : (hostTurn s).2.events = s.events := by
  obtain ⟨_, _, hc⟩ | ⟨_, _, _, hc⟩ | ⟨_, _, _, hc⟩ | ⟨_, hc⟩ := hostTurn_cases s <;> rw [hc] <;> rfl

theorem engineTurn_events (s : State) : (engineTurn s).2.events = s.events := by
  obtain ⟨_, _, hc⟩ | ⟨_, hc⟩ := engineTurn_cases s <;> rw [hc]

/-- No turn touches the events after its own. -/
theorem eventAction_events (e : Event) (s : State) : (eventAction e s).2.events = s.events := by
  cases e with
  | host => exact hostTurn_events s
  | engine => exact engineTurn_events s
  | reset => rfl
  | setPixel x y w => rfl
  | writeOut i v =>
    simp only [eventAction, writeOut]
    split
    · split <;> rfl
    · rfl
  | readOut i =>
    obtain ⟨d, cells, hr⟩ := readOut_state i s
    simp only [eventAction]
    split
    · rw [hr]
    · rfl

/-- A step takes one event off the schedule. -/
theorem events_of_step_scheduled {e : Event} {rest : List Event} (he : s.events = e :: rest)
    (hstep : step s = .next t) : t.events = rest := by
  have hturn := eventAction_events e { s with events := rest }
  rw [← nextAction_scheduled he] at hturn
  obtain ⟨i, u, hn, hexec⟩ | hn := step_next_cases hstep <;> rw [hn] at hturn
  · exact (exec_effect hexec).events_eq.trans hturn
  · exact hturn

/-! ### Weak fairness -/

/-- Where the engine can step, it steps now or its wait gets shorter. -/
theorem engineMoves_or_waiting_lt (he : engineEnabled s = true) (hstep : step s = .next t) :
    engineMoves s = true ∨ waiting t < waiting s := by
  cases hev : s.events with
  | cons e rest => exact .inr (waiting_lt_of_scheduled hev (events_of_step_scheduled hev hstep))
  | nil =>
    have hopen := nextAction_unscheduled hev
    obtain ⟨w, d, hturn⟩ | ⟨left, d, hl, hturn⟩ := freeAction_of_engineEnabled he
    · exact .inl (engineMoves_of_engineTurn (hopen.trans hturn) he)
    · obtain ⟨_, hi⟩ := (engineEnabled_iff s).1 he
      obtain ⟨h, hnext, _⟩ := step_hostTurn_busy (hopen.trans hturn) (engineFetch_eq_some hi).1
      cases hnext.symm.trans hstep
      exact .inr (waiting_lt_of_turnsLeft_lt rfl hl)

/-- Every endless run is fair to the engine, since its wait cannot get shorter for ever. -/
theorem weaklyFair_of_isRun {r : Nat → State} (hr : IsRun r) : WeaklyFair r := by
  intro n hen
  induction hw : waiting (r n) using WellFoundedLT.induction generalizing n with
  | ind w ih =>
    subst hw
    obtain hmoves | hlt := engineMoves_or_waiting_lt (hen n le_rfl) (hr n)
    · exact ⟨n, le_rfl, hmoves⟩
    · obtain ⟨m, hm, hmoves⟩ := ih _ hlt (n + 1) (fun m hm => hen m (Nat.le_of_succ_le hm)) rfl
      exact ⟨m, Nat.le_of_succ_le hm, hmoves⟩

end

end Sys2Proof.Machine
end

section
/-! SUPPORT. A pass under any schedule of host and engine turns, whatever the host's program: each engine step is one of
the pass, and the host's turns between them are finitely many (spec 42_serializer.md R165; 70_reset_and_hazards.md R239,
R240). -/

namespace Sys2Proof.Machine

/-! ### A pass under way -/

/-- A schedule of turns, without acts of the environment. -/
def TurnsOnly (es : List Event) : Prop := ∀ e ∈ es, e = .host ∨ e = .engine

/-- `s` is in a pass, and its schedule has turns only. -/
structure UnderWay (s : State) : Prop where
  inv : Inv s
  busy : s.status.state = .busy
  turns : TurnsOnly s.events

/-- The engine steps still to come in a pass. -/
def stepsLeft (s : State) : Nat := passSteps s - stepsTaken s

section
variable {s t u : State}

theorem UnderWay.status (hs : UnderWay s) : s.status = ⟨.busy, .none⟩ := hs.inv.status_of_busy hs.busy

theorem UnderWay.engineEnabled_eq (hs : UnderWay s) : engineEnabled s = true := by
  obtain hq | hq := hs.inv.seq_of_busy hs.busy
  · exact (engineEnabled_iff s).2 ⟨.engSlot, engineFetch_of_ok hs.busy (hq ▸ rfl)⟩
  · exact (engineEnabled_iff s).2 ⟨.engFlush, engineFetch_of_ok hs.busy (hq ▸ rfl)⟩

/-- A pass goes on with another schedule of turns, and another host with the same note of DONE. -/
theorem UnderWay.reschedule (hs : UnderWay s) {h : HostAgent} (hseen : h.seenDone = s.host.seenDone) {es : List Event}
    (hes : TurnsOnly es) (w : Option Nat) (d : Nat) :
    UnderWay { s with host := h, events := es, hostTurns := w, draws := d } :=
  ⟨Inv_reschedule hs.inv h es w d hseen, hs.busy, hes⟩

/-- During a pass the next turn is the engine's, or a host's that shortens the engine's wait. -/
theorem UnderWay.next_turn (hs : UnderWay s) :
    ∃ u, UnderWay u ∧ u.host = s.host ∧ stepsLeft u = stepsLeft s ∧
      (nextAction s = engineTurn u ∨ nextAction s = hostTurn u ∧ waiting u < waiting s) := by
  cases hev : s.events with
  | cons e rest =>
    obtain ⟨he, hrest⟩ := List.forall_mem_cons.1 (hev ▸ hs.turns)
    refine ⟨{ s with events := rest }, hs.reschedule rfl hrest s.hostTurns s.draws, rfl, rfl, ?_⟩
    obtain rfl | rfl := he
    · exact .inr ⟨nextAction_scheduled hev, waiting_lt_of_scheduled hev rfl⟩
    · exact .inl (nextAction_scheduled hev)
  | nil =>
    have hopen := nextAction_unscheduled hev
    obtain ⟨w, d, hturn⟩ | ⟨left, d, hl, hturn⟩ := freeAction_of_engineEnabled hs.engineEnabled_eq
    · exact ⟨_, hs.reschedule rfl hs.turns w d, rfl, rfl, .inl (hopen.trans hturn)⟩
    · exact ⟨_, hs.reschedule rfl hs.turns (some left) d, rfl, rfl,
        .inr ⟨hopen.trans hturn, waiting_lt_of_turnsLeft_lt rfl hl⟩⟩

/-! ### An engine step of the pass -/

/-- A slot, whatever the sample read, packs one slot more of the same block. -/
theorem BusyInv.stepsTaken_after_slot (hs : BusyInv s) (hq : s.eng.seq = seqSlot) (d : Nat) (f : Word64) :
    stepsTaken { s with draws := d, eng := engineAfterSlot s.eng (pixelsPerBlock s.cfg) f } = stepsTaken s + 1 := by
  obtain ⟨⟨hp, hp64⟩, _, _⟩ := geometry_of_accepted hs.accepted
  have hk := hs.slotInRange
  rw [stepsTaken, stepsTaken, slotsPacked_of_slot hq]
  obtain ⟨hlast, he⟩ | ⟨hinner, he⟩ := engineAfterSlot_cases s.eng (pixelsPerBlock s.cfg) f <;> rw [he]
  · rw [slotsPacked_of_flush rfl]
    simp only
    omega
  · have hnext : (s.eng.k + 1).toNat = s.eng.k.toNat + 1 := toNat_add_one (by omega)
    rw [slotsPacked_of_slot]
    exacts [by simp only [hnext]; omega, hq]

/-- Where an engine step of the pass leads: one step further in the pass, or to its end. -/
def PassAdvanced (s t : State) : Prop :=
  (UnderWay t ∧ stepsLeft s = stepsLeft t + 1) ∨ (t.status = ⟨.done, .none⟩ ∧ TurnsOnly t.events ∧ stepsLeft s = 1)

theorem UnderWay.advanced_of_stepsTaken (ht : UnderWay t) (hsteps : passSteps t = passSteps s)
    (htaken : stepsTaken t = stepsTaken s + 1) : PassAdvanced s t := by
  have hlt := (ht.inv.busy ht.busy).stepsTaken_lt
  exact .inl ⟨ht, by unfold stepsLeft; omega⟩

theorem UnderWay.advanced_by_slot (hs : UnderWay s) (hq : s.eng.seq = seqSlot) : PassAdvanced s (processSlot s) := by
  have hinv := (exec_effect (exec_engSlot_enabled hs.busy hq)).keeps_inv hs.inv
  obtain ⟨d, hd⟩ := processSlot_eq s
  rw [hd] at hinv ⊢
  exact UnderWay.advanced_of_stepsTaken ⟨hinv, hs.busy, hs.turns⟩ rfl
    ((hs.inv.busy hs.busy).stepsTaken_after_slot hq d _)

theorem UnderWay.advanced_by_flush (hs : UnderWay s) (hq : s.eng.seq = seqFlush) : PassAdvanced s (flushBlock s) := by
  have hbusy := hs.inv.busy hs.busy
  have hinside : ¬ flushOutside s = true := by simp [hbusy.flush_inside]
  by_cases hl : (engineAfterFlush s).o.toNat = lineCount s.cfg s.dims
  · have hlast := hbusy.stepsTaken_of_last_block hq hl
    rw [flushBlock_last hinside hl]
    refine .inr ⟨?_, hs.turns, by unfold stepsLeft; omega⟩
    rw [settleOut_status, hs.status]
  · obtain ⟨_, hk, _⟩ := hbusy.engineAfterFlush_spec
    have hinv := (exec_effect (exec_engFlush_enabled hs.busy hq)).keeps_inv hs.inv
    rw [flushBlock_inner hinside hl] at hinv ⊢
    refine UnderWay.advanced_of_stepsTaken ⟨hinv, hs.busy, hs.turns⟩ rfl ?_
    rw [hbusy.stepsTaken_of_flush hq, stepsTaken, slotsPacked_of_slot rfl]
    simp [hk]

theorem processSlot_host (s : State) : (processSlot s).host = s.host := by
  obtain ⟨d, hd⟩ := processSlot_eq s
  rw [hd]

theorem flushBlock_host (s : State) : (flushBlock s).host = s.host := by
  obtain ⟨_, h⟩ | ⟨_, _, h⟩ | ⟨_, _, h⟩ := flushBlock_cases s <;> rw [h] <;> rfl

/-- An engine turn of a pass is one step of it. -/
theorem UnderWay.step_engineTurn (hu : UnderWay u) (hturn : nextAction s = engineTurn u) :
    ∃ t, step s = .next t ∧ t.host = u.host ∧ PassAdvanced u t := by
  obtain hq | hq := hu.inv.seq_of_busy hu.busy
  · have hexec := exec_engSlot_enabled hu.busy hq
    have hfetch := engineFetch_of_ok hu.busy (i := .engSlot) (hq ▸ rfl)
    exact ⟨_, (step_of_run (hturn.trans (engineTurn_of_fetched hfetch))).trans hexec,
      processSlot_host u, hu.advanced_by_slot hq⟩
  · have hexec := exec_engFlush_enabled hu.busy hq
    have hfetch := engineFetch_of_ok hu.busy (i := .engFlush) (hq ▸ rfl)
    exact ⟨_, (step_of_run (hturn.trans (engineTurn_of_fetched hfetch))).trans hexec,
      flushBlock_host u, hu.advanced_by_flush hq⟩

/-! ### The run to the end of a pass -/

/-- `n` steps from `s` end the pass in `t`: the machine is BUSY before the last, and `k` of them are engine steps. -/
structure EndsPass (s : State) (k n : Nat) (t : State) : Prop where
  run : Sys2Proof.core.run n s = .next t
  busyBefore : ∀ m < n, ∃ v, Sys2Proof.core.run m s = .next v ∧ v.status.state = .busy
  engineSteps : engineStepCount n s = k
  done : t.status = ⟨.done, .none⟩
  turns : TurnsOnly t.events

theorem EndsPass.refl (hdone : t.status = ⟨.done, .none⟩) (hturns : TurnsOnly t.events) : EndsPass t 0 0 t :=
  ⟨rfl, fun _ hm => absurd hm (Nat.not_lt_zero _), rfl, hdone, hturns⟩

theorem engineStepCount_of_step (n : Nat) (hstep : step s = .next u) :
    engineStepCount (n + 1) s = (if engineMoves s then 1 else 0) + engineStepCount n u := by
  simp only [engineStepCount, hstep]

/-- One step before the others. -/
theorem EndsPass.of_step {k n : Nat} (h : EndsPass u k n t) (hb : s.status.state = .busy) (hstep : step s = .next u) :
    EndsPass s ((if engineMoves s then 1 else 0) + k) (n + 1) t where
  run := (run_succ_of_step n hstep).trans h.run
  busyBefore m hm := by
    cases m with
    | zero => exact ⟨s, rfl, hb⟩
    | succ m =>
      rw [run_succ_of_step m hstep]
      exact h.busyBefore m (Nat.lt_of_succ_lt_succ hm)
  engineSteps := (engineStepCount_of_step n hstep).trans (congrArg _ h.engineSteps)
  done := h.done
  turns := h.turns

theorem EndsPass.of_engine_step {k n : Nat} (h : EndsPass u k n t) (hb : s.status.state = .busy)
    (hstep : step s = .next u) (hmoves : engineMoves s = true) : EndsPass s (k + 1) (n + 1) t := by
  have hend := h.of_step hb hstep
  rwa [if_pos hmoves, Nat.add_comm] at hend

theorem EndsPass.of_host_step {k n : Nat} (h : EndsPass u k n t) (hb : s.status.state = .busy)
    (hstep : step s = .next u) (hmoves : engineMoves s = false) : EndsPass s k (n + 1) t := by
  have hend := h.of_step hb hstep
  rwa [if_neg (Bool.eq_false_iff.1 hmoves), Nat.zero_add] at hend

/-- What each host turn of a pass keeps of the host. -/
def KeptByHostTurns (Q : HostAgent → Prop) : Prop :=
  ∀ s u t, nextAction s = hostTurn u → u.status = ⟨.busy, .none⟩ → step s = .next t → Q u.host → Q t.host

/-- A pass under way ends in DONE after the engine steps it has left, and the host then is as its own turns left it. -/
theorem UnderWay.reaches_done {Q : HostAgent → Prop} (hQ : KeptByHostTurns Q) (hs : UnderWay s) (hq : Q s.host) :
    ∃ n t, EndsPass s (stepsLeft s) n t ∧ Q t.host := by
  induction hm : (toLex (stepsLeft s, waiting s) : ℕ ×ₗ ℕ ×ₗ ℕ) using WellFoundedLT.induction generalizing s with
  | ind measure ih =>
    subst hm
    obtain ⟨u, hu, hhost, hleft, hturn | ⟨hturn, hlt⟩⟩ := hs.next_turn
    · obtain ⟨t, hstep, ht, hadvanced⟩ := hu.step_engineTurn hturn
      have hqt : Q t.host := ht ▸ hhost ▸ hq
      have hmoves := engineMoves_of_engineTurn hturn hu.engineEnabled_eq
      rw [PassAdvanced, hleft] at hadvanced
      obtain ⟨hgoing, hsteps⟩ | ⟨hdone, hturns, hsteps⟩ := hadvanced
      · obtain ⟨n, v, hend, hv⟩ := ih _ (Prod.Lex.toLex_lt_toLex.2 (.inl (by omega))) hgoing hqt rfl
        exact ⟨n + 1, v, hsteps.symm ▸ hend.of_engine_step hs.busy hstep hmoves, hv⟩
      · exact ⟨1, t, hsteps.symm ▸ (EndsPass.refl hdone hturns).of_engine_step hs.busy hstep hmoves, hqt⟩
    · obtain ⟨h, hstep, hseen⟩ := step_hostTurn_busy hturn hu.busy
      have hqt : Q h := hQ _ _ _ hturn hu.status hstep (hhost ▸ hq)
      obtain ⟨n, v, hend, hv⟩ := ih _ (Prod.Lex.toLex_lt_toLex.2 (.inr ⟨hleft, hlt⟩))
        (hu.reschedule hseen hu.turns u.hostTurns u.draws) hqt rfl
      exact ⟨n + 1, v, hleft ▸ hend.of_host_step hs.busy hstep (engineMoves_of_hostTurn hturn), hv⟩

/-- START begins a pass that has all its engine steps left. -/
theorem UnderWay_acceptStart (hs : Inv s) (hv : validate s = .none) (hlen : 0 < outputLength s.cfg s.dims)
    (hturns : TurnsOnly s.events) : UnderWay (acceptStart s) ∧ stepsLeft (acceptStart s) = passSteps s := by
  have hpass : InPass s 0 (acceptStart s) := InPass_acceptStart hs hv hlen s.events
  refine ⟨⟨hpass.inv, hpass.busy, hturns⟩, ?_⟩
  rw [stepsLeft, hpass.taken, hpass.input.passSteps_eq, Nat.sub_zero]

end

end Sys2Proof.Machine
end

section
/-! SUPPORT. The host that polls STATUS: during a pass it goes round its loop, and after it reads DONE once and goes on
(spec 30_encoding.md R80; 43_host_commands.md R192; 70_reset_and_hazards.md R240). -/

namespace Sys2Proof.Machine

/-! ### Host turns after a pass -/

/-- A run goes on from where its first part leads. -/
theorem run_add_of_run {m n : Nat} {s t : State} (h : Sys2Proof.core.run m s = .next t) :
    Sys2Proof.core.run (m + n) s = Sys2Proof.core.run n t := by
  induction m generalizing s with
  | zero =>
    cases h
    rw [Nat.zero_add]
  | succ m ih =>
    obtain ⟨u, hstep, hrest⟩ := step_of_run_succ h
    rw [Nat.succ_add, run_succ_of_step _ hstep, ih hrest]

section
variable {s : State}

/-- Outside a pass the engine's turns change nothing, and so the host's turn comes, whatever the schedule. -/
theorem host_turn_comes (hb : s.status.state ≠ .busy) (hh : hostEnabled s = true) (hturns : TurnsOnly s.events) :
    ∃ n es v, TurnsOnly es ∧ Sys2Proof.core.run n s = .next v ∧ nextAction v = hostTurn { s with events := es } := by
  have hidle := engineFetch_of_not_busy hb
  induction hev : s.events generalizing s with
  | nil =>
    refine ⟨0, s.events, s, hturns, rfl, ?_⟩
    rw [nextAction_unscheduled hev]
    simp [freeAction, engineEnabled, hidle, hh]
  | cons e rest ih =>
    obtain ⟨he, hrest⟩ := List.forall_mem_cons.1 (hev ▸ hturns)
    obtain rfl | rfl := he
    · exact ⟨0, rest, s, hrest, rfl, nextAction_scheduled hev⟩
    · obtain ⟨n, es, v, hes, hrun, hturn⟩ := ih (s := { s with events := rest }) hb hh hrest hidle rfl
      exact ⟨n + 1, es, v, hes, (run_succ_of_step n (step_engine_idle hev hidle)).trans hrun, hturn⟩

/-- The host's program is at a read of STATUS after a pass: the host reads DONE and takes note. -/
theorem run_rdStatus_of_done {w : Txn} (hdone : s.status = ⟨.done, .none⟩) (hturns : TurnsOnly s.events)
    (hop : s.host.prog[s.host.pc]? = some (.txn w)) (hw : decodeHost w = .rdStatus) :
    ∃ n es, TurnsOnly es ∧ Sys2Proof.core.run n s = .next { s with
      events := es
      host := { s.host with pc := s.host.pc + 1, reads := ⟨.status, 2⟩ :: s.host.reads, seenDone := true } } := by
  have hfetch : hostFetch s = some (.txn w) := hop
  obtain ⟨n, es, v, hes, hrun, hturn⟩ :=
    host_turn_comes (by simp [hdone]) (by simp [hostEnabled, hfetch]) hturns
  rw [hostTurn_txn (s := { s with events := es }) hop, hw] at hturn
  have hword : regRead s .status = 2 := by rw [regRead, hdone]; rfl
  refine ⟨n + 1, es, hes, (run_succ_last hrun).trans ((step_of_run hturn).trans
    ((exec_rdStatus_done (s := hostNext { s with events := es }) (by simp [hdone])).trans ?_))⟩
  rw [← hword]
  rfl

/-- The host's program is at a `jbusy` outside a pass. -/
theorem run_jbusy_of_not_busy {target : Nat} (hb : s.status.state ≠ .busy) (hturns : TurnsOnly s.events)
    (hop : s.host.prog[s.host.pc]? = some (.jbusy target)) :
    ∃ n es, TurnsOnly es ∧ Sys2Proof.core.run n s = .next { s with
      events := es
      host.pc := if lastStatusBusy s.host.reads then target else s.host.pc + 1 } := by
  have hfetch : hostFetch s = some (.jbusy target) := hop
  obtain ⟨n, es, v, hes, hrun, hturn⟩ := host_turn_comes hb (by simp [hostEnabled, hfetch]) hturns
  refine ⟨n + 1, es, hes, (run_succ_last hrun).trans (step_of_settled (hturn.trans ?_))⟩
  cases hlast : lastStatusBusy s.host.reads
  · exact hostTurn_jbusy_passed (s := { s with events := es }) hop hlast
  · exact hostTurn_jbusy_taken (s := { s with events := es }) hop hlast

end

/-! ### The polling loop -/

/-- `h` is a host in its polling loop: it came to the loop as `h₀`, and has read BUSY `polls` times since. -/
structure Polling (h₀ : HostAgent) (polls : Nat) (h : HostAgent) : Prop where
  prog : h.prog = h₀.prog
  reads : h.reads = List.replicate polls ⟨.status, 1⟩ ++ h₀.reads
  place : h.pc = h₀.pc ∨ (h.pc = h₀.pc + 1 ∧ 0 < polls)

section
variable {h₀ : HostAgent} {w : Txn} {polls : Nat} {s : State}
  (hop : h₀.prog[h₀.pc]? = some (.txn w)) (hw : decodeHost w = .rdStatus)
  (hjump : h₀.prog[h₀.pc + 1]? = some (.jbusy h₀.pc))

/-- A host that has read BUSY in its loop jumps back. -/
theorem Polling.lastStatusBusy_eq {h : HostAgent} (hp : Polling h₀ polls h) (hpos : 0 < polls) :
    lastStatusBusy h.reads = true := by
  obtain ⟨k, rfl⟩ := Nat.exists_eq_add_of_lt hpos
  rw [hp.reads]
  rfl

include hop hw hjump

/-- During a pass each host turn keeps the host in its loop: it reads BUSY, or jumps back. -/
theorem polling_kept : KeptByHostTurns fun h => ∃ polls, Polling h₀ polls h := by
  rintro s u t hturn hstatus hstep ⟨polls, hp⟩
  obtain hpc | ⟨hpc, hpos⟩ := hp.place
  · have hfetch : hostFetch u = some (.txn w) := by rw [hostFetch, hp.prog, hpc, hop]
    rw [hostTurn_txn hfetch, hw] at hturn
    cases (step_of_run hturn).symm.trans hstep
    have hword : regRead (hostNext u) .status = 1 := by rw [regRead, hostNext_status, hstatus]; rfl
    rw [noteDone_eq]
    exact ⟨polls + 1, hp.prog, by simp [hword, hp.reads, List.replicate_succ], .inr ⟨by simp [hpc], polls.succ_pos⟩⟩
  · have hfetch : hostFetch u = some (.jbusy h₀.pc) := by rw [hostFetch, hp.prog, hpc, hjump]
    rw [hostTurn_jbusy_taken hfetch (hp.lastStatusBusy_eq hpos)] at hturn
    cases (step_of_settled hturn).symm.trans hstep
    exact ⟨polls, hp.prog, hp.reads, .inl rfl⟩

/-- After the pass a host at the read of its loop reads DONE and goes on past the loop. -/
theorem Polling.leaves_from_read (hp : Polling h₀ polls s.host) (hpc : s.host.pc = h₀.pc)
    (hdone : s.status = ⟨.done, .none⟩) (hturns : TurnsOnly s.events) :
    ∃ n es, Sys2Proof.core.run n s = .next { s with
      events := es
      host := { s.host with
        pc := h₀.pc + 2
        reads := ⟨.status, 2⟩ :: (List.replicate polls ⟨.status, 1⟩ ++ h₀.reads)
        seenDone := true } } := by
  obtain ⟨n, es, hes, hread⟩ := run_rdStatus_of_done (w := w) hdone hturns (by rw [hp.prog, hpc, hop]) hw
  rw [hpc, hp.reads] at hread
  obtain ⟨m, es', _, hleave⟩ := run_jbusy_of_not_busy (s := { s with
      events := es
      host := { s.host with
        pc := h₀.pc + 1
        reads := ⟨.status, 2⟩ :: (List.replicate polls ⟨.status, 1⟩ ++ h₀.reads)
        seenDone := true } }) (target := h₀.pc) (by simp [hdone]) hes (by simp only [hp.prog, hjump])
  exact ⟨n + m, es', (run_add_of_run hread).trans hleave⟩

/-- After the pass a host anywhere in its loop reads DONE and goes on past the loop. -/
theorem Polling.leaves (hp : Polling h₀ polls s.host) (hdone : s.status = ⟨.done, .none⟩)
    (hturns : TurnsOnly s.events) :
    ∃ n t, Sys2Proof.core.run n s = .next t ∧ t.status = ⟨.done, .none⟩ ∧ t.host.seenDone = true ∧
      t.host.pc = h₀.pc + 2 ∧ t.host.reads = ⟨.status, 2⟩ :: (List.replicate polls ⟨.status, 1⟩ ++ h₀.reads) := by
  obtain hpc | ⟨hpc, hpos⟩ := hp.place
  · obtain ⟨n, es, hrun⟩ := hp.leaves_from_read hop hw hjump hpc hdone hturns
    exact ⟨n, _, hrun, hdone, rfl, rfl, rfl⟩
  · obtain ⟨m, es, hes, hback⟩ := run_jbusy_of_not_busy (target := h₀.pc) (by simp [hdone]) hturns
      (by rw [hp.prog, hpc, hjump])
    rw [if_pos (hp.lastStatusBusy_eq hpos)] at hback
    have hp' : Polling h₀ polls { s.host with pc := h₀.pc } := ⟨hp.prog, hp.reads, .inl rfl⟩
    obtain ⟨n, es', hrun⟩ := hp'.leaves_from_read (s := { s with events := es, host.pc := h₀.pc }) hop hw hjump rfl
      hdone hes
    exact ⟨m + n, _, (run_add_of_run hback).trans hrun, hdone, rfl, rfl, rfl⟩

end

/-- Settles O60: the engine's wait gets shorter with each turn that is not its own, so that a pass reaches DONE; the
polling host is in its loop until then, and leaves it after. -/
theorem engineProgressIsWeaklyFair : Obligations.EngineProgressIsWeaklyFair := by
  refine ⟨fun _ => weaklyFair_of_isRun, fun s hs hb hv hlen hturns => ?_,
    fun s w hs hb hturns hop hw hjump => ?_⟩
  · obtain ⟨hpass, hleft⟩ := UnderWay_acceptStart hs hv hlen hturns
    obtain ⟨n, t, hend, _⟩ := hpass.reaches_done (Q := fun _ => True) (fun _ _ _ _ _ _ => id) trivial
    exact ⟨_, n, t, exec_start_accepted hb hv, hend.run, hend.done, hend.engineSteps.trans hleft, hend.busyBefore⟩
  · have hpolling : Polling s.host 0 s.host := ⟨rfl, rfl, .inl rfl⟩
    obtain ⟨n, t, hend, polls, hp⟩ :=
      UnderWay.reaches_done (polling_kept hop hw hjump) ⟨hs, hb, hturns⟩ ⟨0, hpolling⟩
    obtain ⟨m, v, hrun, hresult⟩ := hp.leaves hop hw hjump hend.done hend.turns
    exact ⟨n + m, polls, v, (run_add_of_run hend.run).trans hrun, hresult⟩

end Sys2Proof.Machine
end
